-- ==== Sys2Proof/Word.lean ====
section
/-! DEFINITION. The core's data widths: 32-bit command words and source addresses, 8-bit bytes. -/

namespace Sys2Proof

/-- A command word, or a source-memory address (spec/30_encoding.md R90, spec/20_memory.md R70). -/
abbrev Word := BitVec 32

/-- One location of the source memory, and one entry of an internal array. -/
abbrev Byte := BitVec 8

end Sys2Proof
end

