-- ==== Sys2Proof/Syntax.lean ====
section
/-! DEFINITION. The eight host commands: one constructor per row of spec/opcode_table.json. -/

namespace Sys2Proof

/-- A command with its operand words (spec/30_encoding.md R94, R95). An operand is kept as the 32-bit word the
packet carries; an S32 operand is read by `BitVec.toInt` where it is used, a U32 one by `BitVec.toNat`
(R93, R101). No operand is scaled or combined at decode time. -/
inductive Instr where
  /-- `POWER_ON`, opcode 0x01, format F0 (spec/42_power_sequencer.md R171). -/
  | powerOn
  /-- `POWER_OFF`, opcode 0x02, format F0 (R174). -/
  | powerOff
  /-- `POWER_OFF_ALL`, opcode 0x03, format F0 (R176). -/
  | powerOffAll
  /-- `CLEAR cycles`, opcode 0x04, format FC; cycles is S32 (spec/44_renderer_1bpp.md R230). -/
  | clear (cycles : Word)
  /-- `DRAW_1BPP x, y, w, h, src, pulse`, opcode 0x05, format FD1; x, y, w, h are S32, src and pulse U32 (R226). -/
  | draw1bpp (x y w h src pulse : Word)
  /-- `DRAW_GRAY x, y, w, h, src, mode`, opcode 0x06, format FDG; x, y, w, h are S32, src is U32 and mode a
  MODEW word (spec/45_grayscale_engine.md R267). -/
  | drawGray (x y w h src mode : Word)
  /-- `GET_WIDTH`, opcode 0x07, format F0 (spec/46_host_interface.md R298). -/
  | getWidth
  /-- `GET_HEIGHT`, opcode 0x08, format F0 (R299). -/
  | getHeight
  deriving DecidableEq, Repr

end Sys2Proof
end

