-- ==== Sys2Proof/WellFormed.lean ====
section
/-! DEFINITION. Which instruction terms stand for an accepted packet. -/

namespace Sys2Proof

/-- A MODEW word is legal when its reserved bits [31:2] are zero (spec/30_encoding.md R93, R99). -/
def legalModeWord (mode : Word) : Bool := mode >>> 2 == 0#32

/-- The only operand with reserved bits is DRAW_GRAY's mode word; every other operand word is legal
(spec/30_encoding.md R100). -/
def Instr.wf : Instr → Bool
  | .powerOn => true
  | .powerOff => true
  | .powerOffAll => true
  | .clear _ => true
  | .draw1bpp _ _ _ _ _ _ => true
  | .drawGray _ _ _ _ _ mode => legalModeWord mode
  | .getWidth => true
  | .getHeight => true

end Sys2Proof
end

