-- ==== Sys2Proof/Decode.lean ====
section
/-! DEFINITION. The command decoder (spec/30_encoding.md R91-R100), total on any sequence of words, and the
encoder, written from the same tables. -/

namespace Sys2Proof

/-- Why a packet is refused: the two refusals of spec/60_exceptions.md R320. -/
inductive DecodeError where
  /-- word 0's bits [7:0] hold no defined opcode (R98); one word is consumed -/
  | illegalOpcode
  /-- a defined opcode with a nonzero reserved field (R99); the whole packet is consumed -/
  | reservedBits
  deriving DecidableEq, Repr

/-- What the decoder makes of the words presented so far. `rest` is what follows the packet. -/
inductive Decoded where
  /-- more words must arrive before the packet is whole -/
  | incomplete
  | accept (i : Instr) (rest : List Word)
  | refuse (e : DecodeError) (rest : List Word)
  deriving DecidableEq, Repr

/-- The number of operand words that follow word 0 with opcode `opc`, and `none` for a reserved opcode
(spec/30_encoding.md R92, R94, R95). -/
def operandWords (opc : Byte) : Option Nat :=
  if opc = 0x01#8 then some 0
  else if opc = 0x02#8 then some 0
  else if opc = 0x03#8 then some 0
  else if opc = 0x04#8 then some 1
  else if opc = 0x05#8 then some 6
  else if opc = 0x06#8 then some 6
  else if opc = 0x07#8 then some 0
  else if opc = 0x08#8 then some 0
  else none

/-- `OPC`, bits [7:0] of word 0 (spec/30_encoding.md R91). -/
def opcodeField (w0 : Word) : Byte := w0.setWidth 8

/-- `RSV0`, bits [31:8] of word 0 (spec/30_encoding.md R91). -/
def reservedField (w0 : Word) : Word := w0 >>> 8

/-- The length in words of the packet that starts with `w0`: fixed by the opcode; a word with no defined opcode
is a packet of one word (spec/30_encoding.md R92). -/
def packetLength (w0 : Word) : Nat := 1 + (operandWords (opcodeField w0)).getD 0

/-- The command a whole packet stands for: its opcode and its operand words in order (spec/30_encoding.md R94, R95). -/
def buildInstr (opc : Byte) (args : List Word) : Option Instr :=
  match args with
  | [] =>
    if opc = 0x01#8 then some .powerOn
    else if opc = 0x02#8 then some .powerOff
    else if opc = 0x03#8 then some .powerOffAll
    else if opc = 0x07#8 then some .getWidth
    else if opc = 0x08#8 then some .getHeight
    else none
  | [cycles] => if opc = 0x04#8 then some (.clear cycles) else none
  | [x, y, w, h, a, b] =>
    if opc = 0x05#8 then some (.draw1bpp x y w h a b)
    else if opc = 0x06#8 then some (.drawGray x y w h a b)
    else none
  | _ => none

/-- The decoder of spec/30_encoding.md R96: the opcode is checked first, then the whole packet is read, then the
reserved fields are checked (`Instr.wf` holds the mode word's check). -/
def decode : List Word → Decoded
  | [] => .incomplete
  | w0 :: ws =>
    match operandWords (opcodeField w0) with
    | none => .refuse .illegalOpcode ws
    | some n =>
      if ws.length < n then .incomplete
      else if reservedField w0 ≠ 0#32 then .refuse .reservedBits (ws.drop n)
      else
        match buildInstr (opcodeField w0) (ws.take n) with
        | none => .refuse .reservedBits (ws.drop n)
        | some i => if i.wf then .accept i (ws.drop n) else .refuse .reservedBits (ws.drop n)

/-- The packet of a command (spec/30_encoding.md R94, R95). -/
def encode : Instr → List Word
  | .powerOn => [0x00000001#32]
  | .powerOff => [0x00000002#32]
  | .powerOffAll => [0x00000003#32]
  | .clear cycles => [0x00000004#32, cycles]
  | .draw1bpp x y w h src pulse => [0x00000005#32, x, y, w, h, src, pulse]
  | .drawGray x y w h src mode => [0x00000006#32, x, y, w, h, src, mode]
  | .getWidth => [0x00000007#32]
  | .getHeight => [0x00000008#32]

/-- The words of a packet given as one number: word k is bits [32k+31 : 32k]; the bits at and above `nbits` are
zero, and the packet is as long as its word 0 says (log 18). -/
def packetWords (nbits w : Nat) : List Word :=
  let bits := w % 2 ^ nbits
  let word (k : Nat) : Word := BitVec.ofNat 32 (bits >>> (32 * k))
  ((List.range 7).map word).take (packetLength (word 0))

/-- The instruction the decoder reads from an instruction whose bits are `w` (log 18). -/
def decodeTableWord (nbits w : Nat) : Option Instr :=
  match decode (packetWords nbits w) with
  | .accept i _ => some i
  | .refuse _ _ => none
  | .incomplete => none

end Sys2Proof
end

