-- ==== Sys2Proof/Config.lean ====
section
/-! DEFINITION. The implementation parameters of spec/00_scope.md R8 that are fixed for the machine, and the
two free values of the model. REQ_W, REQ_H, DMASK and SRC_ADMIT are arguments of the model and stand in State. -/

namespace Sys2Proof.Config

/-- `MAX_W`: the maximum panel width in pixels. -/
def maxWidth : Nat := 960

/-- `MAX_H`: the maximum panel height in rows. -/
def maxHeight : Nat := 540

/-- `ROWBUF1_BYTES`: the capacity of the 1bpp row buffer. -/
abbrev rowbuf1Bytes : Nat := 120

/-- `ROWBUF4_BYTES`: the capacity of the 4bpp scratch buffer. -/
abbrev rowbuf4Bytes : Nat := 480

/-- The capacity of OUTBUF (spec/10_state.md R45). -/
abbrev outbufBytes : Nat := 240

/-- `LUT_ENTRIES`: 4096, a 12-bit index. -/
abbrev lutEntries : Nat := 4096

/-- `NPASS`: the number of grayscale passes. -/
def passes : Nat := 15

/-- `T_SET`, OPEN in R8: the minimum real time between two consecutive Sets, in clock cycles. No value (log 14). -/
opaque tSet : Nat

/-- `WAIT_STRETCH`, OPEN in R8: how much longer than n µs a real Wait(n) may last, in clock cycles. No value (log 14). -/
opaque waitStretch : Nat

/-- `TICKS_PER_US`, OPEN in R8 and spec/60_exceptions.md R330: clock cycles per microsecond. No value (log 14). -/
opaque ticksPerUs : Nat

/-- FREE VALUE (log 10): which of a raced byte's values the read numbered `tick`, of address `addr`, for panel
column `col`, returns (spec/20_memory.md R84 item 2, spec/93_implementation_defined.md U11). -/
opaque raceChoice (tick addr col : Nat) : Nat

/-- FREE VALUE (log 16): whether the pixel of panel column `col` was copied before the read that faults, in the row
whose reads are numbered `tick`. The order of the reads within a row is open (spec/20_memory.md R75,
spec/93_implementation_defined.md U10). -/
opaque copiedBeforeFault (tick col : Nat) : Bool

end Sys2Proof.Config
end

