-- ==== Sys2Proof/Machine/State.lean ====
section
/-! DEFINITION. The core's state as plain data: everything spec/10_state.md, spec/46_host_interface.md and
spec/20_memory.md give it, and the state right after reset. -/

namespace Sys2Proof.Machine

/-- The level of an output line: X means not driven since reset (spec/10_state.md R38). -/
inductive Level where
  | x | lo | hi
  deriving DecidableEq, Repr

/-- The 14 output lines (spec/10_state.md R38). -/
inductive Pin where
  | cfgData | cfgClk | cfgStr | ckv | ie | ws
  | d (i : Fin 8)
  deriving DecidableEq, Repr

/-- `PIN[p]` for every line p (spec/10_state.md R39). -/
structure Pins where
  cfgData : Level
  cfgClk : Level
  cfgStr : Level
  ckv : Level
  ie : Level
  ws : Level
  data : Vector Level 8
  deriving DecidableEq, Repr

/-- An event of the trace (spec/00_scope.md R12). -/
inductive Event where
  /-- `Set(pin, v)`: the core drives `pin` to `v` -/
  | set (pin : Pin) (v : Bool)
  /-- `Wait(us)`: every line is held for `us` microseconds, `us` at least 1 -/
  | wait (us : Nat)
  deriving DecidableEq, Repr

/-- The fields of CR; field k of this list is bit k (spec/10_state.md R32). -/
inductive CrField where
  | le | pwrDis | posEn | negEn | stv | scanDir | mode | oe
  deriving DecidableEq, Repr

/-- `FSTATE` (spec/10_state.md R42). -/
inductive FrameState where
  | idle | active
  deriving DecidableEq, Repr

/-- The error codes of spec/60_exceptions.md R320. Codes 5..15 are never recorded. -/
inductive ErrCode where
  | none | illegalOpcode | reservedBits | srcFault | fsmFault
  deriving DecidableEq, Repr

/-- `OPL`, the operand latch (spec/10_state.md R30). x, y, w, h and cycles are read as two's-complement. -/
structure OperandLatch where
  x : Word
  y : Word
  w : Word
  h : Word
  src : Word
  pulse : Word
  mode : BitVec 2
  cycles : Word
  deriving DecidableEq, Repr

/-- The two buffers a data row can be sent from (spec/41_bus_writer.md R155). -/
inductive RowSource where
  | rowbuf1 | outbuf
  deriving DecidableEq, Repr

/-- A clipped rectangle: panel columns [xs, xe) and rows [ys, ye) (spec/44_renderer_1bpp.md R221). -/
structure Rect where
  xs : Int
  xe : Int
  ys : Int
  ye : Int
  deriving DecidableEq, Repr

/-- A position of a command's list that emits one event (spec/10_state.md R36). -/
inductive Drive where
  /-- `Set(pin, v)` -/
  | set (pin : Pin) (v : Bool)
  /-- `Set(CFG_DATA, CR[k])` (spec/40_config_shift_register.md R132) -/
  | sendBit (k : Nat)
  /-- `Set(D<i>, buf[k][i])` (spec/41_bus_writer.md R150, R155) -/
  | busBit (buf : RowSource) (k : Nat) (i : Fin 8)
  /-- `Wait(us)` -/
  | wait (us : Nat)
  deriving DecidableEq, Repr

/-- A position of a command's list that changes internal state and emits nothing (spec/00_scope.md R15). compose1 and
compose4 read the source memory. -/
inductive Silent where
  /-- setBit (spec/40_config_shift_register.md R130) -/
  | setBit (f : CrField) (v : Bool)
  /-- `CR <- 0x00` (spec/42_power_sequencer.md R176) -/
  | clearCr
  /-- `FSTATE <- IDLE; ROW <- 0` (spec/42_power_sequencer.md R176) -/
  | dropFrame
  /-- StartFrame's requirement and state change (spec/43_frame_pipeline.md R190, R193) -/
  | openFrame
  /-- the requirement of a row operation (R190) -/
  | requireRow
  /-- `ROW <- ROW + 1`, after a row operation's last event (R190) -/
  | countRow
  /-- EndFrame's requirement (R190, R195) -/
  | requireFull
  /-- EndFrame's state change, after its last event (R190, R195) -/
  | closeFrame
  /-- fill the L1 bytes of ROWBUF1 with one byte (spec/44_renderer_1bpp.md R230) -/
  | fillRow (b : Byte)
  /-- Compose1 of panel row r (spec/44_renderer_1bpp.md R223) -/
  | compose1 (rect : Rect) (r : Nat)
  /-- resetLUT (spec/45_grayscale_engine.md R255) -/
  | resetLut (m : BitVec 2)
  /-- carve (spec/45_grayscale_engine.md R256) -/
  | carve (level : Nat)
  /-- Compose4 of panel row r (spec/45_grayscale_engine.md R262) -/
  | compose4 (rect : Rect) (r : Nat)
  /-- Lookup (spec/45_grayscale_engine.md R263) -/
  | lookup
  deriving DecidableEq, Repr

/-- One position of the list a command's rule generates (spec/10_state.md R36). -/
inductive MicroOp where
  | drive (d : Drive)
  | silent (i : Silent)
  deriving DecidableEq, Repr

/-- GRAY_OOB_POLICY (spec/00_scope.md R8, spec/45_grayscale_engine.md R253; log 11). -/
inductive GrayPolicy where
  | clip | reject
  deriving DecidableEq, Repr

/-- A run of `size` source addresses from `base` that SRC_ADMIT holds for (log 5). -/
structure Region where
  base : Nat
  size : Nat
  deriving DecidableEq, Repr

/-- What the outside does at the core's ports, or lets the core do, next (log 2, 3). -/
inductive PortAct where
  /-- the host presents a word and holds it until it is taken (spec/46_host_interface.md R290) -/
  | word (w : Word)
  /-- the host raises RSP_ACK (R300) -/
  | ack
  /-- the host writes a byte of the source memory (spec/20_memory.md R84) -/
  | write (addr : Word) (b : Byte)
  /-- RST is asserted (spec/70_reset_and_hazards.md R350) -/
  | assertRst
  /-- RST is released with these levels on REQ_W, REQ_H and DMASK_IN (R350) -/
  | releaseRst (reqW reqH : Word) (dmaskIn : Byte)
  /-- the core makes its next move, an event or the reads of a row, before the host does anything else -/
  | core
  /-- `us` microseconds of the Wait in progress pass (spec/10_state.md R36) -/
  | time (us : Nat)
  /-- the host waits until BUSY = 0 (spec/70_reset_and_hazards.md R354) -/
  | waitIdle
  /-- the preemption point of a transferred POWER_OFF_ALL is reached (spec/46_host_interface.md R296) -/
  | stopPoint
  /-- the platform's answers on MEM_OK change: from now on it admits these addresses (spec/46_host_interface.md R290,
  spec/20_memory.md R72; log 5) -/
  | memOk (regions : List Region)
  deriving DecidableEq, Repr

/-- The source memory: rising addresses below 2^32, no entry equal to what an unlisted address reads as (log 6). -/
abbrev Memory := List Host.Cell

/-- Reasons for the machine to stop. There are none: a halting fault leaves the core in a state that still takes
packets (spec/60_exceptions.md R321, R326), so taking one is a next state (log 15). Nothing raises a fault; safe. -/
inductive Fault
  deriving DecidableEq, Repr

/-- Reasons for a missing meaning. -/
inductive Refusal where
  /-- raised by exec for a constructor without a meaning: no arm does so in this model; safe -/
  | notModelled (mnemonic : String)
  deriving DecidableEq, Repr

/-- Everything the spec gives one core, and the model's own fields at the end. -/
structure State where
  /-- CR, the control-register shadow (spec/10_state.md R31) -/
  cr : BitVec 8
  /-- OPL (R30) -/
  opl : OperandLatch
  /-- PIN (R39) -/
  pins : Pins
  /-- DMASK (R40) -/
  dmask : Byte
  /-- WIDTH (R41) -/
  width : BitVec 10
  /-- HEIGHT (R41) -/
  height : BitVec 10
  /-- FSTATE (R42) -/
  fstate : FrameState
  /-- ROW (R42) -/
  row : BitVec 10
  /-- ROWBUF1 (R43) -/
  rowbuf1 : Vector Byte Config.rowbuf1Bytes
  /-- ROWBUF4 (R44) -/
  rowbuf4 : Vector Byte Config.rowbuf4Bytes
  /-- OUTBUF (R45), an array of its own beside ROWBUF4 (DESIGN CHOICE, log 28) -/
  outbuf : Vector Byte Config.outbufBytes
  /-- LUT (R46) -/
  lut : Vector Byte Config.lutEntries
  /-- BUSY (R37) -/
  busy : Bool
  /-- ERR (R49) -/
  err : Bool
  /-- ERR_CODE (R49) -/
  errCode : ErrCode
  /-- HALTED (R49) -/
  halted : Bool
  /-- RSP (R50) -/
  rsp : Word
  /-- RSP_VALID (R50) -/
  rspValid : Bool
  /-- PENDING (spec/46_host_interface.md R292) -/
  pending : Option Word
  /-- the words of a partly decoded packet (spec/30_encoding.md R96) -/
  packet : List Word
  /-- the sequence position: what is left of the running command's list (spec/10_state.md R36) -/
  todo : List MicroOp
  /-- the microseconds spent so far in the Wait at the head of `todo` (R36) -/
  waited : Nat
  /-- RST is asserted (spec/70_reset_and_hazards.md R350) -/
  rst : Bool
  /-- the source memory (spec/20_memory.md R70) -/
  src : Memory
  /-- SRC_ADMIT (spec/20_memory.md R72; log 5) -/
  srcAdmit : List Region
  /-- GRAY_OOB_POLICY (log 11) -/
  grayPolicy : GrayPolicy
  /-- the event trace since reset, newest first (spec/00_scope.md R12; log 12) -/
  log : List Event
  /-- MODEL: a transferred POWER_OFF_ALL whose preemption point is still to come (log 3) -/
  stopReq : Bool
  /-- MODEL: source bytes overwritten while the running command is busy, with their old values (log 10) -/
  raced : List Host.Cell
  /-- MODEL: how many rows have been read; the free choices of a row's reads are applied to it (log 10, 16) -/
  raceTick : Nat
  /-- MODEL: the schedule of port acts to come (log 2) -/
  inbox : List PortAct
  deriving DecidableEq, Repr

/-- Every line not driven (spec/10_state.md R39). -/
def Pins.undriven : Pins :=
  { cfgData := .x, cfgClk := .x, cfgStr := .x, ckv := .x, ie := .x, ws := .x, data := Vector.replicate 8 .x }

/-- An operand latch of zeros: R30 leaves its reset value open (DESIGN CHOICE, log 8). -/
def OperandLatch.zero : OperandLatch :=
  { x := 0, y := 0, w := 0, h := 0, src := 0, pulse := 0, mode := 0, cycles := 0 }

/-- The core right after a reset (spec/10_state.md R55, spec/70_reset_and_hazards.md R350) with REQ_W = REQ_H = 0
and DMASK_IN = 0xFF (DESIGN CHOICE, log 4), every address admitted (DESIGN CHOICE, log 5), and the values the spec
leaves open at zero (DESIGN CHOICE, log 6-9). -/
def State.reset : State :=
  { cr := 0x00#8
    opl := OperandLatch.zero
    pins := Pins.undriven
    dmask := 0xFF#8
    width := 960#10
    height := 540#10
    fstate := .idle
    row := 0#10
    rowbuf1 := Vector.replicate Config.rowbuf1Bytes 0#8
    rowbuf4 := Vector.replicate Config.rowbuf4Bytes 0#8
    outbuf := Vector.replicate Config.outbufBytes 0#8
    lut := Vector.replicate Config.lutEntries 0#8
    busy := false
    err := false
    errCode := .none
    halted := false
    rsp := 0#32
    rspValid := false
    pending := none
    packet := []
    todo := []
    waited := 0
    rst := false
    src := []
    srcAdmit := [{ base := 0, size := 2 ^ 32 }]
    grayPolicy := .clip
    log := []
    stopReq := false
    raced := []
    raceTick := 0
    inbox := [] }

/-- The event trace since reset, oldest first (spec/00_scope.md R12). -/
def State.trace (s : State) : List Event := s.log.reverse

end Sys2Proof.Machine
end

