-- ==== Sys2Proof/Machine/Flags.lean ====
section
/-! DEFINITION. The fields of CR, the status word, and the recording of errors. The core has no condition flags
(spec/10_state.md R51). -/

namespace Sys2Proof.Machine

/-- The bit of CR that holds a field (spec/10_state.md R32). -/
def CrField.bit : CrField → Nat
  | .le => 0
  | .pwrDis => 1
  | .posEn => 2
  | .negEn => 3
  | .stv => 4
  | .scanDir => 5
  | .mode => 6
  | .oe => 7

/-- A CR value with one field written (spec/40_config_shift_register.md R130). -/
def writeField (f : CrField) (v : Bool) (cr : BitVec 8) : BitVec 8 :=
  if v then cr ||| BitVec.twoPow 8 f.bit else cr &&& ~~~(BitVec.twoPow 8 f.bit)

/-- The 4-bit ERR_CODE of a code (spec/60_exceptions.md R320). -/
def ErrCode.bits : ErrCode → BitVec 4
  | .none => 0#4
  | .illegalOpcode => 1#4
  | .reservedBits => 2#4
  | .srcFault => 3#4
  | .fsmFault => 4#4

/-- FRAME_ACTIVE, bit 9 of STATUS (spec/10_state.md R48). -/
def State.frameActive (s : State) : Bool := s.fstate == .active

/-- STATUS, from bit 31 down: reserved, ROW, ERR_CODE, HALTED, ERR, FRAME_ACTIVE, BUSY, CR (spec/10_state.md R48). -/
def State.statusWord (s : State) : BitVec 32 :=
  0#6 ++ s.row ++ s.errCode.bits ++ BitVec.ofBool s.halted ++ BitVec.ofBool s.err ++ BitVec.ofBool s.frameActive
    ++ BitVec.ofBool s.busy ++ s.cr

/-- Record an error: ERR is set and ERR_CODE keeps the first code since reset (spec/10_state.md R49). -/
def State.recordError (c : ErrCode) (s : State) : State :=
  { s with err := true, errCode := if s.errCode = .none then c else s.errCode }

end Sys2Proof.Machine
end

