-- ==== Sys2Proof/Machine/Memory.lean ====
section
/-! DEFINITION. The source memory in its canonical form, SRC_ADMIT, and the internal byte arrays. -/

namespace Sys2Proof.Machine

/-- What an unlisted source address reads as: the spec gives no reset contents (DESIGN CHOICE, log 6). -/
def blankByte : Byte := 0x00#8

/-- The byte stored at an address. -/
def Memory.read : Memory → Nat → Byte
  | [], _ => blankByte
  | (a, v) :: rest, k => if a = k then v else Memory.read rest k

/-- Store a byte, keeping the canonical form: storing what an unlisted address reads as removes the entry. -/
def Memory.write : Memory → Nat → Byte → Memory
  | [], k, v => if v = blankByte then [] else [(k, v)]
  | (a, x) :: rest, k, v =>
    if k < a then (if v = blankByte then (a, x) :: rest else (k, v) :: (a, x) :: rest)
    else if k = a then (if v = blankByte then rest else (k, v) :: rest)
    else (a, x) :: Memory.write rest k v

/-- Every listed address is at least `low`, below 2^32, below the next one, and holds no blank byte. -/
def Memory.wfFrom : Nat → Memory → Bool
  | _, [] => true
  | low, (a, v) :: rest =>
    decide (low ≤ a) && decide (a < 2 ^ 32) && decide (v ≠ blankByte) && Memory.wfFrom (a + 1) rest

/-- The canonical form (log 6). -/
def Memory.wf (m : Memory) : Bool := Memory.wfFrom 0 m

/-- SRC_ADMIT (spec/20_memory.md R72): some region holds the address. -/
def State.admits (s : State) (a : Word) : Bool :=
  s.srcAdmit.any fun g => decide (g.base ≤ a.toNat) && decide (a.toNat < g.base + g.size)

/-- The values the host has replaced at an address since the running command was accepted (spec/20_memory.md R84). -/
def State.oldValues (s : State) (a : Word) : List Byte :=
  (s.raced.filter fun c => c.1 == a.toNat).map Prod.snd

/-- The byte a read of an address returns: the byte stored there or, where the host has written it while the
command runs, a free choice among that byte and the ones it replaced (spec/20_memory.md R84 item 2, U11; log 10). -/
def State.readByte (s : State) (a : Word) (col : Nat) : Byte :=
  let now := s.src.read a.toNat
  match s.oldValues a with
  | [] => now
  | old => (now :: old).getD (Config.raceChoice s.raceTick a.toNat col % (old.length + 1)) now

/-- `MemRead(addr, 1)` (spec/20_memory.md R72): `none` is a read that raises SRC_FAULT. `col` is the panel column
the byte is read for (R75: a byte may be read once for each of its pixels). -/
def State.memRead (s : State) (a : Word) (col : Nat) : Option Byte :=
  if s.admits a then some (s.readByte a col) else none

/-- `f 0, f 1, …`: `n` values counted from `i`. -/
def tabList (f : Nat → Byte) : Nat → Nat → List Byte
  | _, 0 => []
  | i, n + 1 => f i :: tabList f (i + 1) n

theorem length_tabList (f : Nat → Byte) (i n : Nat) : (tabList f i n).length = n := by
  induction n generalizing i with
  | zero => rfl
  | succ n ih => simp [tabList, ih]

/-- The array whose entry k is `f k`. -/
def tabulate (n : Nat) (f : Nat → Byte) : Vector Byte n :=
  Vector.mk (Array.mk (tabList f 0 n)) (length_tabList f 0 n)

/-- Entry k of an internal array. No rule reads beyond an array's end (spec/20_memory.md R89); such a read would
answer 0 (log 19). -/
def entry {n : Nat} (b : Vector Byte n) (k : Nat) : Byte := b.toList.getD k 0#8

/-- Give the first `len` entries of an array new values and leave the others. -/
def overwrite {n : Nat} (len : Nat) (f : Nat → Byte) (b : Vector Byte n) : Vector Byte n :=
  tabulate n fun k => if k < len then f k else entry b k

end Sys2Proof.Machine
end

