-- ==== Sys2Proof/Machine/Operands.lean ====
section
/-! DEFINITION. What the operands mean: rectangles, draw modes, source addresses, pixels and composed rows. -/

namespace Sys2Proof.Machine

/-- CONTRAST_DEFAULT, in microseconds per pass (spec/10_state.md R47). -/
def contrastDefault : List Nat := [30, 30, 20, 20, 30, 30, 30, 40, 40, 50, 50, 50, 100, 200, 300]

/-- CONTRAST_WOB, in microseconds per pass (spec/10_state.md R47). -/
def contrastWob : List Nat := [10, 10, 8, 8, 8, 8, 8, 10, 10, 15, 15, 20, 20, 100, 300]

/-- `inverted(m)`: modes WHITE_ON_WHITE and WHITE_ON_BLACK (spec/45_grayscale_engine.md R250). -/
def inverted (m : BitVec 2) : Bool := m == 1#2 || m == 2#2

/-- `base(m)`: the uniform LUT value (R250). -/
def lutBase (m : BitVec 2) : Byte := if inverted m then 0xAA#8 else 0x55#8

/-- `table(m)` (R250). -/
def contrastTable (m : BitVec 2) : List Nat := if m = 2#2 then contrastWob else contrastDefault

/-- The high time of the data rows of pass p (R252). -/
def contrastTime (m : BitVec 2) (p : Nat) : Nat := (contrastTable m).getD p 0

/-- `level(p, m)` (R251). -/
def carveLevel (p : Nat) (m : BitVec 2) : Nat := if inverted m then p else 15 - p

/-- `Clip(x, y, w, h)` over ℤ; `none` is EMPTY (spec/44_renderer_1bpp.md R221). -/
def clip (width height : Nat) (x y w h : Int) : Option Rect :=
  if w ≤ 0 ∨ h ≤ 0 then none
  else
    let xs := max x 0
    let xe := min (x + w) width
    let ys := max y 0
    let ye := min (y + h) height
    if xe ≤ xs ∨ ye ≤ ys then none else some { xs, xe, ys, ye }

/-- `GrayRect(x, y, w, h)` (spec/45_grayscale_engine.md R253). -/
def grayRect (policy : GrayPolicy) (width height : Nat) (x y w h : Int) : Option Rect :=
  match policy with
  | .clip => clip width height x y w h
  | .reject =>
    if w ≤ 0 ∨ h ≤ 0 ∨ x < 0 ∨ y < 0 ∨ x + w > width ∨ y + h > height then none
    else some { xs := x, xe := x + w, ys := y, ye := y + h }

/-- Panel row r is a data row of the rectangle: ys ≤ r < ye. -/
def Rect.hasRow (R : Rect) (r : Nat) : Bool := decide (R.ys ≤ r) && decide ((r : Int) < R.ye)

/-- Panel column c is in the rectangle: xs ≤ c < xe. -/
def Rect.hasCol (R : Rect) (c : Nat) : Bool := decide (R.xs ≤ c) && decide ((c : Int) < R.xe)

/-- `L1`, the bytes of a 1bpp row (spec/44_renderer_1bpp.md R222). -/
def State.rowLen1 (s : State) : Nat := s.width.toNat / 8

/-- `L4`, the bytes of the 4bpp scratch row (spec/45_grayscale_engine.md R258). -/
def State.rowLen4 (s : State) : Nat := s.width.toNat / 2

/-- `LO`, the bytes of a grayscale output row (R258). -/
def State.rowLenOut (s : State) : Nat := s.rowLen4 / 2

/-- `ceil(a / b)` for b > 0 (spec/00_scope.md R11). -/
def ceilDiv (a b : Int) : Int := (a + b - 1) / b

/-- `SrcByte1(r, c)` (spec/20_memory.md R73, R79, R80). -/
def srcByte1 (o : OperandLatch) (r c : Int) : Word :=
  BitVec.ofInt 32 (o.src.toNat + r * ceilDiv o.w.toInt 8 + c / 8)

/-- `SrcByte4(r, c)` (spec/20_memory.md R73, R79, R81). -/
def srcByte4 (o : OperandLatch) (r c : Int) : Word :=
  BitVec.ofInt 32 (o.src.toNat + r * ceilDiv o.w.toInt 2 + c / 2)

/-- The source address of panel column c of panel row r of a 1bpp draw. -/
def State.pixelAddr1 (s : State) (r c : Nat) : Word := srcByte1 s.opl (r - s.opl.y.toInt) (c - s.opl.x.toInt)

/-- The source address of panel column c of panel row r of a 4bpp draw. -/
def State.pixelAddr4 (s : State) (r c : Nat) : Word := srcByte4 s.opl (r - s.opl.y.toInt) (c - s.opl.x.toInt)

/-- `SrcPix1` for a byte read at source column c: bit 7 − (c mod 8) (spec/20_memory.md R80). -/
def pixelOfByte1 (b : Byte) (c : Int) : Bool := b.getLsbD (7 - c % 8).toNat

/-- `SrcPix4` for a byte read at source column c: the high nibble of an even column (spec/20_memory.md R81). -/
def pixelOfByte4 (b : Byte) (c : Int) : BitVec 4 := if c % 2 = 0 then b.extractLsb' 4 4 else b.extractLsb' 0 4

/-- The panel columns Compose1 copies: xs .. min(xe, 8·L1) − 1 (spec/44_renderer_1bpp.md R223). -/
def State.columns1 (s : State) (R : Rect) : List Nat := (List.range (8 * s.rowLen1)).filter R.hasCol

/-- The panel columns Compose4 copies: xs .. min(xe, 2·L4) − 1 (spec/45_grayscale_engine.md R262). -/
def State.columns4 (s : State) (R : Rect) : List Nat := (List.range (2 * s.rowLen4)).filter R.hasCol

/-- Every byte Compose1 reads for row r is admitted (spec/20_memory.md R72, R76). -/
def State.rowAdmitted1 (s : State) (R : Rect) (r : Nat) : Bool :=
  (s.columns1 R).all fun c => (s.memRead (s.pixelAddr1 r c) c).isSome

/-- Every byte Compose4 reads for row r is admitted (spec/20_memory.md R72, R76). -/
def State.rowAdmitted4 (s : State) (R : Rect) (r : Nat) : Bool :=
  (s.columns4 R).all fun c => (s.memRead (s.pixelAddr4 r c) c).isSome

/-- The byte of a read that is known to be admitted. -/
def State.admittedByte (s : State) (a : Word) (col : Nat) : Byte := (s.memRead a col).getD blankByte

/-- The 1bpp pixel at panel column c of data row r: the source pixel inside the rectangle and 0 outside it
(spec/44_renderer_1bpp.md R223). -/
def State.pixel1 (s : State) (R : Rect) (r c : Nat) : Bool :=
  R.hasCol c && pixelOfByte1 (s.admittedByte (s.pixelAddr1 r c) c) (c - s.opl.x.toInt)

/-- `P(c)`: the 4bpp pixel at panel column c of data row r (spec/45_grayscale_engine.md R262, R265). -/
def State.pixel4 (s : State) (R : Rect) (r c : Nat) : BitVec 4 :=
  if R.hasCol c then pixelOfByte4 (s.admittedByte (s.pixelAddr4 r c) c) (c - s.opl.x.toInt) else 0#4

/-- A byte from its bits, bit 7 first. -/
def byteOfBits (b7 b6 b5 b4 b3 b2 b1 b0 : Bool) : Byte :=
  BitVec.ofBool b7 ++ BitVec.ofBool b6 ++ BitVec.ofBool b5 ++ BitVec.ofBool b4 ++ BitVec.ofBool b3
    ++ BitVec.ofBool b2 ++ BitVec.ofBool b1 ++ BitVec.ofBool b0

/-- Byte k of a 1bpp row of pixels: column 8k in bit 7, column 8k+7 in bit 0 (spec/30_encoding.md R107). -/
def packByte1 (px : Nat → Bool) (k : Nat) : Byte :=
  byteOfBits (px (8 * k)) (px (8 * k + 1)) (px (8 * k + 2)) (px (8 * k + 3)) (px (8 * k + 4)) (px (8 * k + 5))
    (px (8 * k + 6)) (px (8 * k + 7))

/-- Byte k of a 4bpp row of pixels: column 2k in the high nibble (spec/30_encoding.md R108). -/
def packByte4 (px : Nat → BitVec 4) (k : Nat) : Byte := px (2 * k) ++ px (2 * k + 1)

/-- Byte k of a composed 1bpp row (spec/44_renderer_1bpp.md R223). -/
def State.rowByte1 (s : State) (R : Rect) (r k : Nat) : Byte := packByte1 (s.pixel1 R r) k

/-- Byte k of the composed 4bpp scratch row (spec/45_grayscale_engine.md R262). -/
def State.rowByte4 (s : State) (R : Rect) (r k : Nat) : Byte := packByte4 (s.pixel4 R r) k

/-- In a row one of whose reads faults, the pixel of panel column `col`, read at `a`, was copied before the fault: its
read was admitted, and a free choice says whether it came first (log 16). -/
def State.copied (s : State) (a : Word) (col : Nat) : Bool := s.admits a && Config.copiedBeforeFault s.raceTick col

/-- Byte k of a 1bpp row one of whose reads faults: zero but for the pixels copied by then (spec/44_renderer_1bpp.md
R223). -/
def State.faultByte1 (s : State) (R : Rect) (r k : Nat) : Byte :=
  packByte1 (fun c => s.copied (s.pixelAddr1 r c) c && s.pixel1 R r c) k

/-- Byte k of a 4bpp row one of whose reads faults: zero but for the pixels copied by then (spec/45_grayscale_engine.md
R262). -/
def State.faultByte4 (s : State) (R : Rect) (r k : Nat) : Byte :=
  packByte4 (fun c => if s.copied (s.pixelAddr4 r c) c then s.pixel4 R r c else 0#4) k

end Sys2Proof.Machine
end

