-- ==== Sys2Proof/Machine/Ops.lean ====
section
/-! DEFINITION. The named operations every command is made of: driving the lines, the silent micro-operations,
taking a fault, starting and advancing a command, preemption, reset, and the host's ports. -/

namespace Sys2Proof.Machine

/-! ## The lines and the trace -/

/-- The level a Set drives. -/
def Level.ofBit (v : Bool) : Level := if v then .hi else .lo

/-- `PIN[p]`. -/
def Pins.get (P : Pins) : Pin → Level
  | .cfgData => P.cfgData
  | .cfgClk => P.cfgClk
  | .cfgStr => P.cfgStr
  | .ckv => P.ckv
  | .ie => P.ie
  | .ws => P.ws
  | .d i => P.data[i]

/-- `PIN[p] <- v` (spec/10_state.md R39). -/
def Pins.put (P : Pins) (p : Pin) (v : Level) : Pins :=
  match p with
  | .cfgData => { P with cfgData := v }
  | .cfgClk => { P with cfgClk := v }
  | .cfgStr => { P with cfgStr := v }
  | .ckv => { P with ckv := v }
  | .ie => { P with ie := v }
  | .ws => { P with ws := v }
  | .d i => { P with data := P.data.set i v }

/-- What an event does to the lines: only a Set changes one (spec/10_state.md R39). -/
def Pins.after (P : Pins) : Event → Pins
  | .set p v => P.put p (Level.ofBit v)
  | .wait _ => P

/-- Append one event to the trace (spec/00_scope.md R12). -/
def State.emit (e : Event) (s : State) : State := { s with log := e :: s.log, pins := s.pins.after e }

/-! ## Taking an error -/

/-- Take a halting fault: ERR, ERR_CODE and HALTED are set, BUSY falls and the rest of the command's list is gone;
everything else keeps the value it had at the fault (spec/60_exceptions.md R321). -/
def takeHaltingFault (c : ErrCode) (s : State) : State :=
  { s.recordError c with halted := true, busy := false, todo := [], waited := 0 }

/-- Take a refusal: only ERR and ERR_CODE are written (spec/60_exceptions.md R322). -/
def takeRefusal (c : ErrCode) (s : State) : State := s.recordError c

/-! ## The silent micro-operations -/

/-- StartFrame's requirement and state change (spec/43_frame_pipeline.md R190, R193). -/
def openFrame (s : State) : Except ErrCode State :=
  if s.fstate = .idle then .ok { s with fstate := .active, row := 0#10 } else .error .fsmFault

/-- The requirement of SkipRow and OutputRow (R190). -/
def requireRow (s : State) : Except ErrCode State :=
  if s.fstate = .active ∧ s.row < s.height then .ok s else .error .fsmFault

/-- EndFrame's requirement (R190, R195). -/
def requireFull (s : State) : Except ErrCode State :=
  if s.fstate = .active ∧ s.row = s.height then .ok s else .error .fsmFault

/-- `FSTATE <- IDLE; ROW <- 0` (spec/42_power_sequencer.md R176, spec/43_frame_pipeline.md R195). -/
def dropFrame (s : State) : State := { s with fstate := .idle, row := 0#10 }

/-- `Compose1(r)` (spec/44_renderer_1bpp.md R223): ROWBUF1 takes the composed row, or SRC_FAULT is raised and
`halfCompose` says what ROWBUF1 then holds. -/
def compose1 (R : Rect) (r : Nat) (s : State) : Except ErrCode State :=
  if s.rowAdmitted1 R r then
    .ok { s with rowbuf1 := overwrite s.rowLen1 (s.rowByte1 R r) s.rowbuf1 }
  else .error .srcFault

/-- `Compose4(r)` (spec/45_grayscale_engine.md R262): ROWBUF4 takes the expanded row, or SRC_FAULT is raised and
`halfCompose` says what ROWBUF4 then holds. -/
def compose4 (R : Rect) (r : Nat) (s : State) : Except ErrCode State :=
  if s.rowAdmitted4 R r then
    .ok { s with rowbuf4 := overwrite s.rowLen4 (s.rowByte4 R r) s.rowbuf4 }
  else .error .srcFault

/-- `resetLUT(m)` (spec/45_grayscale_engine.md R255). -/
def resetLut (m : BitVec 2) (s : State) : State := { s with lut := tabulate Config.lutEntries fun _ => lutBase m }

/-- One LUT entry after carving for a level (spec/45_grayscale_engine.md R256, spec/30_encoding.md R112). -/
def carveEntry (level i : Nat) (v : Byte) : Byte :=
  let v := if i % 16 = level then v &&& ~~~0x03#8 else v
  if i / 16 % 16 = level then v &&& ~~~0x0C#8 else v

/-- `carve(L)` (R256). -/
def carve (level : Nat) (s : State) : State :=
  { s with lut := tabulate Config.lutEntries fun i => carveEntry level i (entry s.lut i) }

/-- `word_j`: the byte pair of the scratch row, little-endian (spec/30_encoding.md R110). -/
def State.scratchWord (s : State) (j : Nat) : BitVec 16 := entry s.rowbuf4 (2 * j + 1) ++ entry s.rowbuf4 (2 * j)

/-- `index_j`: the word masked to the LUT's index range (R110). -/
def State.lutIndex (s : State) (j : Nat) : BitVec 12 := (s.scratchWord j).setWidth 12

/-- `Lookup()` (spec/45_grayscale_engine.md R263). OUTBUF is an array of its own, so ROWBUF4 stays (DESIGN CHOICE,
log 28: spec/10_state.md R45 lets an implementation place OUTBUF over ROWBUF4). -/
def lookup (s : State) : State :=
  { s with outbuf := overwrite s.rowLenOut (fun j => entry s.lut (s.lutIndex j).toNat) s.outbuf }

/-- Fill the L1 transmitted bytes of ROWBUF1 (spec/44_renderer_1bpp.md R230). -/
def fillRow (b : Byte) (s : State) : State := { s with rowbuf1 := overwrite s.rowLen1 (fun _ => b) s.rowbuf1 }

/-- What a silent position does. -/
def runSilent (i : Silent) (s : State) : Except ErrCode State :=
  match i with
  | .setBit f v => .ok { s with cr := writeField f v s.cr }
  | .clearCr => .ok { s with cr := 0x00#8 }
  | .dropFrame => .ok (dropFrame s)
  | .openFrame => openFrame s
  | .requireRow => requireRow s
  | .countRow => .ok { s with row := s.row + 1#10 }
  | .requireFull => requireFull s
  | .closeFrame => .ok (dropFrame s)
  | .fillRow b => .ok (fillRow b s)
  | .compose1 R r => compose1 R r s
  | .resetLut m => .ok (resetLut m s)
  | .carve l => .ok (carve l s)
  | .compose4 R r => compose4 R r s
  | .lookup => .ok (lookup s)

/-! ## Running a command's list -/

/-- Byte k of the buffer a row is sent from. -/
def State.rowByte (s : State) (buf : RowSource) (k : Nat) : Byte :=
  match buf with
  | .rowbuf1 => entry s.rowbuf1 k
  | .outbuf => entry s.outbuf k

/-- The event a position of the list emits. -/
def Drive.event (d : Drive) (s : State) : Event :=
  match d with
  | .set p v => .set p v
  | .sendBit k => .set .cfgData (s.cr.getLsbD k)
  | .busBit buf k i => .set (.d i) ((s.rowByte buf k).getLsbD i)
  | .wait us => .wait us

/-- The position reads the source memory: Compose1 and Compose4, and nothing else (spec/60_exceptions.md R323). -/
def Silent.reads : Silent → Bool
  | .compose1 _ _ => true
  | .compose4 _ _ => true
  | _ => false

/-- Run the silent positions up to the next event, or to a row's reads, and leave the rest as the sequence position; a
fault stops the command there. The reads are a move of their own, so that the host can act between the event before
them and the reads (spec/20_memory.md R76, R84; log 1). -/
def settle : List MicroOp → State → State
  | .silent i :: rest, s =>
    if i.reads then { s with todo := .silent i :: rest }
    else
      match runSilent i s with
      | .ok t => settle rest t
      | .error c => takeHaltingFault c s
  | todo, s => { s with todo := todo }

/-- A row that is read is counted, so that each has free choices of its own (log 10). -/
def countRead (i : Silent) (s : State) : State := if i.reads then { s with raceTick := s.raceTick + 1 } else s

/-- What a row's reads leave in the row buffer where one of them faults: its transmitted bytes, zeroed before the first
read, with the pixels copied before that read (spec/44_renderer_1bpp.md R223, spec/45_grayscale_engine.md R262; which
pixels these are is a free value, log 16). -/
def halfCompose (i : Silent) (s : State) : State :=
  match i with
  | .compose1 R r => { s with rowbuf1 := overwrite s.rowLen1 (s.faultByte1 R r) s.rowbuf1 }
  | .compose4 R r => { s with rowbuf4 := overwrite s.rowLen4 (s.faultByte4 R r) s.rowbuf4 }
  | _ => s

/-- The fault of a position at which the core stands, with what its reads leave (spec/60_exceptions.md R321, R323). -/
def takeFaultAt (c : ErrCode) (i : Silent) (s : State) : State := takeHaltingFault c (halfCompose i (countRead i s))

/-- BUSY falls when nothing is left of the list (spec/46_host_interface.md R294). -/
def finish (s : State) : State := if s.todo = [] then { s with busy := false } else s

/-- Start an accepted command: BUSY rises and its list begins at position 0 (spec/46_host_interface.md R291,
spec/10_state.md R36). A list without an event is over at once, and BUSY never shows (R294). What the host wrote
before is no longer in a race (spec/20_memory.md R84 item 1). -/
def start (todo : List MicroOp) (s : State) : State :=
  finish (settle todo { s with busy := true, waited := 0, raced := [] })

/-- Perform the next event of the running command's list, or the reads of the next row, and what is silent after it. -/
def performNext (s : State) : State :=
  match s.todo with
  | .drive d :: rest => finish (settle rest { s.emit (d.event s) with waited := 0 })
  | .silent i :: rest =>
    match runSilent i (countRead i s) with
    | .ok t => finish (settle rest t)
    | .error c => takeFaultAt c i s
  | [] => finish s

/-- `us` microseconds of the Wait in progress pass (spec/10_state.md R36): the Wait is performed when they reach
its end. Nothing else takes time. -/
def passTime (us : Nat) (s : State) : State :=
  match s.todo with
  | .drive (.wait n) :: _ => if s.waited + us < n then { s with waited := s.waited + us } else performNext s
  | _ => s

/-- At a preemption point before a row's reads, a fault of those reads is taken first: it arises in the read that
precedes the point (spec/60_exceptions.md R325 (d)). -/
def readFault (s : State) : State :=
  match s.todo with
  | .silent i :: _ =>
    match runSilent i (countRead i s) with
    | .ok _ => s
    | .error c => takeFaultAt c i s
  | _ => s

/-- Stop the running command at a preemption point: a Wait in progress is recorded truncated, and the rest of the
list is discarded (spec/46_host_interface.md R296). -/
def cutShort (s : State) : State :=
  let s := if 0 < s.waited then s.emit (.wait s.waited) else s
  { s with todo := [], waited := 0, stopReq := false }

/-! ## Reset -/

/-- A requested dimension clamped: at most 0, or over the maximum, gives the maximum (spec/10_state.md R41). -/
def clampDim (maxDim : Nat) (req : Word) : BitVec 10 :=
  if req.toInt ≤ 0 ∨ (maxDim : Int) < req.toInt then BitVec.ofNat 10 maxDim else req.setWidth 10

/-- RST is asserted: the running command stops at once with no further event (spec/70_reset_and_hazards.md R350;
log 13). -/
def assertRst (s : State) : State :=
  { s with rst := true, busy := false, todo := [], waited := 0, stopReq := false, pending := none }

/-- RST is released with these levels on REQ_W, REQ_H and DMASK_IN: the three sampled registers take their values
(spec/10_state.md R40, R41) and everything else its reset value (R55, spec/70_reset_and_hazards.md R350); a new trace
begins (log 12). The source memory, SRC_ADMIT and the model's own schedule are not the core's to reset. -/
def releaseRst (reqW reqH : Word) (dmaskIn : Byte) (s : State) : State :=
  { State.reset with
    dmask := dmaskIn
    width := clampDim Config.maxWidth reqW
    height := clampDim Config.maxHeight reqH
    src := s.src
    srcAdmit := s.srcAdmit
    grayPolicy := s.grayPolicy
    raceTick := s.raceTick
    inbox := s.inbox }

/-! ## The host's ports -/

/-- CMD_READY (spec/46_host_interface.md R291, R292, spec/60_exceptions.md R326, spec/70_reset_and_hazards.md R350). -/
def State.cmdReady (s : State) : Bool := !s.rst && (!s.busy || s.pending.isNone)

/-- RSP_ACK is raised (spec/46_host_interface.md R300). -/
def acknowledge (s : State) : State := { s with rspValid := false }

/-- The platform changes which addresses it admits (spec/20_memory.md R72; log 5). -/
def setAdmit (regions : List Region) (s : State) : State := { s with srcAdmit := regions }

/-- The host writes a source byte; while a command runs, the byte it replaces stays possible for that command's reads
(spec/20_memory.md R84; log 10). -/
def hostWrite (a : Word) (b : Byte) (s : State) : State :=
  { s with
    src := s.src.write a.toNat b
    raced := if s.busy then (a.toNat, s.src.read a.toNat) :: s.raced else s.raced }

/-- The response both GET commands give: RSP takes a register, zero-extended (spec/30_encoding.md R116,
spec/46_host_interface.md R298, R299). -/
def respond (v : BitVec 10) (s : State) : State := { s with rsp := v.setWidth 32, rspValid := true }

end Sys2Proof.Machine
end

