-- ==== Sys2Proof/Machine/Pipeline.lean ====
section
/-! DEFINITION. The lists of the micro-operations: config shift register, bus writer and frame pipeline
(spec/40_config_shift_register.md, spec/41_bus_writer.md, spec/43_frame_pipeline.md). -/

namespace Sys2Proof.Machine

/-- `Set(p, v)` as a position of a list. -/
def setPin (p : Pin) (v : Bool) : MicroOp := .drive (.set p v)

/-- `Wait(n)`, and nothing for n = 0 (spec/00_scope.md R12). -/
def waitFor (n : Nat) : List MicroOp := if n = 0 then [] else [.drive (.wait n)]

/-- The three events of bit k of a Push (spec/40_config_shift_register.md R132). -/
def sendBit (k : Nat) : List MicroOp := [setPin .cfgClk false, .drive (.sendBit k), setPin .cfgClk true]

/-- `Push()` (R132). CR does not change inside it, so each bit reads the value sampled at its start (log 20). -/
def push : List MicroOp :=
  setPin .cfgStr false :: ([7, 6, 5, 4, 3, 2, 1, 0].flatMap sendBit ++ [setPin .cfgStr true])

/-- `SetPush(F, v)` (R131). -/
def setPush (f : CrField) (v : Bool) : List MicroOp := .silent (.setBit f v) :: push

/-- `Pulse(a, b)` (spec/43_frame_pipeline.md R191). -/
def pulse (a b : Nat) : List MicroOp := setPin .ckv true :: (waitFor a ++ setPin .ckv false :: waitFor b)

/-- The wired data lines in ascending order (spec/41_bus_writer.md R150, R152). -/
def wiredLines (dmask : Byte) : List (Fin 8) := ([0, 1, 2, 3, 4, 5, 6, 7] : List (Fin 8)).filter fun i => dmask.getLsbD i

/-- `writeByte(buf[k])` (R150). -/
def writeByte (dmask : Byte) (buf : RowSource) (k : Nat) : List MicroOp :=
  (wiredLines dmask).map (fun i => .drive (.busBit buf k i)) ++ [setPin .ws true, setPin .ws false]

/-- `writeLineBytes(buf, n)` (R155). -/
def writeLineBytes (dmask : Byte) (buf : RowSource) (n : Nat) : List MicroOp :=
  (List.range n).flatMap (writeByte dmask buf)

/-- `StartFrame()` (spec/43_frame_pipeline.md R193). -/
def startFrame : List MicroOp :=
  .silent .openFrame :: (setPush .mode true ++ pulse 1 1 ++ setPush .stv false ++ waitFor 1000 ++ pulse 10 10
    ++ setPush .stv true ++ pulse 0 10 ++ setPush .oe true ++ pulse 1 1)

/-- `EndFrame()` (R195). -/
def endFrame : List MicroOp :=
  .silent .requireFull :: (setPush .oe false ++ setPush .mode false ++ pulse 1 1 ++ pulse 1 1
    ++ [.silent .closeFrame])

/-- `SkipRow()` (R197). -/
def skipRow : List MicroOp := .silent .requireRow :: (pulse 45 5 ++ [.silent .countRow])

/-- `LatchRow()` (R200). -/
def latchRow : List MicroOp := setPush .le true ++ setPush .le false

/-- `OutputRow(buf, n, p)` (R198). -/
def outputRow (dmask : Byte) (buf : RowSource) (n p : Nat) : List MicroOp :=
  .silent .requireRow :: (latchRow ++ pulse p 50 ++ writeLineBytes dmask buf n ++ pulse 1 1 ++ [.silent .countRow])

/-- `Frame(rowop)` (R202): one row operation per panel row between StartFrame and EndFrame. -/
def frame (height : Nat) (rowop : Nat → List MicroOp) : List MicroOp :=
  startFrame ++ (List.range height).flatMap rowop ++ endFrame

end Sys2Proof.Machine
end

