-- ==== Sys2Proof/Machine/Gray.lean ====
section
/-! DEFINITION. The grayscale waveform engine's command DRAW_GRAY (spec/45_grayscale_engine.md). -/

namespace Sys2Proof.Machine

/-- The row operation of pass p for panel row r (spec/45_grayscale_engine.md R261, R266). -/
def grayRow (s : State) (R : Rect) (p r : Nat) : List MicroOp :=
  if R.hasRow r then
    .silent (.compose4 R r) :: .silent .lookup ::
      outputRow s.dmask .outbuf s.rowLenOut (contrastTime s.opl.mode p)
  else skipRow

/-- `GrayPass(p, R)` (R266). -/
def grayPass (s : State) (R : Rect) (p : Nat) : List MicroOp :=
  .silent (.resetLut s.opl.mode) :: .silent (.carve (carveLevel p s.opl.mode)) ::
    (frame s.height.toNat (grayRow s R p) ++ waitFor 5000)

/-- The rectangle of the operand latch under the rectangle policy (R253). -/
def State.rect4 (s : State) : Option Rect :=
  grayRect s.grayPolicy s.width.toNat s.height.toNat s.opl.x.toInt s.opl.y.toInt s.opl.w.toInt s.opl.h.toInt

/-- The list of DRAW_GRAY: nothing for an EMPTY rectangle, else 15 passes (R267). -/
def drawGrayList (s : State) : List MicroOp :=
  match s.rect4 with
  | none => []
  | some R => (List.range Config.passes).flatMap (grayPass s R)

/-- `DRAW_GRAY x, y, w, h, src, mode` (R267): the operand latch is written first; its mode is bits [1:0] of the mode
word (spec/30_encoding.md R97). -/
def execDrawGray (x y w h src mode : Word) (s : State) : Host.Outcome State Fault Refusal :=
  let s := { s with opl := { s.opl with x := x, y := y, w := w, h := h, src := src, mode := mode.setWidth 2 } }
  .next (start (drawGrayList s) s)

end Sys2Proof.Machine
end

