-- ==== Sys2Proof/Machine/Mono.lean ====
section
/-! DEFINITION. The 1bpp row packer's commands: CLEAR and DRAW_1BPP (spec/44_renderer_1bpp.md). -/

namespace Sys2Proof.Machine

/-- One frame of CLEAR: every row of the panel sends the byte `b` (spec/44_renderer_1bpp.md R230). -/
def clearFrame (s : State) (b : Byte) : List MicroOp :=
  .silent (.fillRow b) ::
    (frame s.height.toNat (fun _ => outputRow s.dmask .rowbuf1 s.rowLen1 10) ++ waitFor 20000)

/-- The list of CLEAR: `cycles` times a dark and a white frame, none for cycles ≤ 0 (R230). -/
def clearList (s : State) : List MicroOp :=
  (List.replicate s.opl.cycles.toInt.toNat (clearFrame s 0x00#8 ++ clearFrame s 0xFF#8)).flatten

/-- `CLEAR cycles` (R230): the operand latch is written first (spec/30_encoding.md R97). -/
def execClear (cycles : Word) (s : State) : Host.Outcome State Fault Refusal :=
  let s := { s with opl := { s.opl with cycles := cycles } }
  .next (start (clearList s) s)

/-- The row operation of DRAW_1BPP for panel row r (R226). -/
def drawRow1 (s : State) (R : Rect) (r : Nat) : List MicroOp :=
  if R.hasRow r then
    .silent (.compose1 R r) :: outputRow s.dmask .rowbuf1 s.rowLen1 s.opl.pulse.toNat
  else skipRow

/-- The clipped rectangle of the operand latch (R221). -/
def State.rect1 (s : State) : Option Rect :=
  clip s.width.toNat s.height.toNat s.opl.x.toInt s.opl.y.toInt s.opl.w.toInt s.opl.h.toInt

/-- The list of DRAW_1BPP: nothing for an EMPTY rectangle, else one frame (R226). -/
def draw1bppList (s : State) : List MicroOp :=
  match s.rect1 with
  | none => []
  | some R => frame s.height.toNat (drawRow1 s R)

/-- `DRAW_1BPP x, y, w, h, src, pulse` (R226): the operand latch is written first (spec/30_encoding.md R97). -/
def execDraw1bpp (x y w h src pulse : Word) (s : State) : Host.Outcome State Fault Refusal :=
  let s := { s with opl := { s.opl with x := x, y := y, w := w, h := h, src := src, pulse := pulse } }
  .next (start (draw1bppList s) s)

end Sys2Proof.Machine
end

