-- ==== Sys2Proof/Machine/Power.lean ====
section
/-! DEFINITION. The power sequencer's commands (spec/42_power_sequencer.md). None has a precondition on CR (R170). -/

namespace Sys2Proof.Machine

/-- The list of POWER_ON (spec/42_power_sequencer.md R171). -/
def powerOnList : List MicroOp :=
  setPush .scanDir true ++ setPush .pwrDis false ++ waitFor 100000 ++ setPush .negEn true ++ waitFor 500000
    ++ setPush .posEn true ++ waitFor 100000 ++ setPush .stv true ++ [setPin .ie true]

/-- The list of POWER_OFF (R174). -/
def powerOffList : List MicroOp :=
  setPush .posEn false ++ waitFor 10000 ++ setPush .negEn false ++ waitFor 100000 ++ setPush .pwrDis true
    ++ setPush .stv false

/-- The list of POWER_OFF_ALL (R176). -/
def powerOffAllList : List MicroOp := .silent .dropFrame :: .silent .clearCr :: push

/-- `POWER_ON` (R171). -/
def execPowerOn (s : State) : Host.Outcome State Fault Refusal := .next (start powerOnList s)

/-- `POWER_OFF` (R174). -/
def execPowerOff (s : State) : Host.Outcome State Fault Refusal := .next (start powerOffList s)

/-- `POWER_OFF_ALL` (R176). -/
def execPowerOffAll (s : State) : Host.Outcome State Fault Refusal := .next (start powerOffAllList s)

end Sys2Proof.Machine
end

