-- ==== Sys2Proof/Machine/Query.lean ====
section
/-! DEFINITION. The commands that read a dimension back (spec/46_host_interface.md R298, R299). They emit nothing
and BUSY stays as it is. -/

namespace Sys2Proof.Machine

/-- `GET_WIDTH` (spec/46_host_interface.md R298). -/
def execGetWidth (s : State) : Host.Outcome State Fault Refusal := .next (respond s.width s)

/-- `GET_HEIGHT` (R299). -/
def execGetHeight (s : State) : Host.Outcome State Fault Refusal := .next (respond s.height s)

end Sys2Proof.Machine
end

