-- ==== Sys2Proof/Machine/Dispatch.lean ====
section
/-! DEFINITION. One arm per command: the meaning of an accepted packet. -/

namespace Sys2Proof.Machine

def exec (i : Instr) (s : State) : Host.Outcome State Fault Refusal :=
  match i with
  | .powerOn => Sys2Proof.Machine.execPowerOn s
  | .powerOff => Sys2Proof.Machine.execPowerOff s
  | .powerOffAll => Sys2Proof.Machine.execPowerOffAll s
  | .clear cycles => Sys2Proof.Machine.execClear cycles s
  | .draw1bpp x y w h src pulse => Sys2Proof.Machine.execDraw1bpp x y w h src pulse s
  | .drawGray x y w h src mode => Sys2Proof.Machine.execDrawGray x y w h src mode s
  | .getWidth => Sys2Proof.Machine.execGetWidth s
  | .getHeight => Sys2Proof.Machine.execGetHeight s

end Sys2Proof.Machine
end

