-- ==== Sys2Proof/Machine/Port.lean ====
section
/-! DEFINITION. The command port, preemption and one move of the machine (spec/46_host_interface.md,
spec/60_exceptions.md R326). -/

namespace Sys2Proof.Machine

/-- The error code of a refusal (spec/60_exceptions.md R320). -/
def refusalCode : DecodeError → ErrCode
  | .illegalOpcode => .illegalOpcode
  | .reservedBits => .reservedBits

/-- An accepted packet: a halted core runs POWER_OFF_ALL and drops the rest (spec/60_exceptions.md R326). -/
def runPacket (i : Instr) (s : State) : Host.Outcome State Fault Refusal :=
  if s.halted ∧ i ≠ .powerOffAll then .next s else exec i s

/-- A refused packet: recorded, or dropped on a halted core (spec/60_exceptions.md R322, R326). -/
def refusePacket (e : DecodeError) (s : State) : State :=
  if s.halted then s else takeRefusal (refusalCode e) s

/-- A word reaches the decoder (spec/30_encoding.md R96): it is kept until its packet is whole; a whole packet is
consumed and run or refused. -/
def feedDecoder (w : Word) (s : State) : Host.Outcome State Fault Refusal :=
  match decode (s.packet ++ [w]) with
  | .incomplete => .next { s with packet := s.packet ++ [w] }
  | .accept i rest => runPacket i { s with packet := rest }
  | .refuse e rest => .next (refusePacket e { s with packet := rest })

/-- The complete POWER_OFF_ALL packet (spec/46_host_interface.md R292). -/
def stopWord : Word := 0x00000003#32

/-- A word is transferred (spec/46_host_interface.md R291, R292): to the decoder while BUSY = 0; while BUSY = 1 a
POWER_OFF_ALL asks for preemption and any other word is held in PENDING. -/
def transfer (w : Word) (s : State) : Host.Outcome State Fault Refusal :=
  if s.busy then
    if w = stopWord then .next { s with stopReq := true } else .next { s with pending := some w }
  else feedDecoder w s

/-- Preemption: the running command is cut short, after a fault that falls at the same point, and POWER_OFF_ALL runs
(spec/46_host_interface.md R296, spec/60_exceptions.md R325 (d)). -/
def preempt (s : State) : Host.Outcome State Fault Refusal := exec .powerOffAll (cutShort (readFault s))

/-- After a move of the running command. If BUSY has fallen, a POWER_OFF_ALL that was transferred in time still
runs (spec/60_exceptions.md R325 (d); log 22), else a held word is decoded (spec/46_host_interface.md R292). -/
def afterMove (s : State) : Host.Outcome State Fault Refusal :=
  if s.busy then .next s
  else if s.stopReq then preempt s
  else
    match s.pending with
    | none => .next s
    | some w => feedDecoder w { s with pending := none }

/-- The running command moves by one event or by the reads of one row; an idle core does nothing (spec/60_exceptions.md R333). -/
def moveCore (s : State) : Host.Outcome State Fault Refusal :=
  if s.busy then afterMove (performNext s) else .next s

/-- What the core does when the schedule leaves it to itself: a preemption that has been asked for is taken at once
(spec/46_host_interface.md R296: the first boundary after the transfer), else the running command moves. -/
def moveOrStop (s : State) : Host.Outcome State Fault Refusal := if s.stopReq then preempt s else moveCore s

/-- The next act of the schedule (log 2, 3, 13). A word that is not taken stays presented while the core moves; RST
asserted, it is withdrawn. A host that waits for BUSY = 0 lets the core move. -/
def takeAct (a : PortAct) (rest : List PortAct) (s : State) : Host.Outcome State Fault Refusal :=
  let t : State := { s with inbox := rest }
  match a with
  | .word w => if s.cmdReady then transfer w t else if s.rst then .next t else moveOrStop s
  | .ack => .next (acknowledge t)
  | .write addr b => .next (hostWrite addr b t)
  | .assertRst => .next (assertRst t)
  | .releaseRst reqW reqH dmaskIn => if s.rst then .next (releaseRst reqW reqH dmaskIn t) else .next t
  | .core => moveCore t
  | .time us => if s.busy then afterMove (passTime us t) else .next t
  | .waitIdle => if s.busy then moveOrStop s else .next t
  | .stopPoint => if s.stopReq then preempt t else .next t
  | .memOk regions => .next (setAdmit regions t)

/-- One move of the machine. -/
def move (s : State) : Host.Outcome State Fault Refusal :=
  match s.inbox with
  | [] => moveOrStop s
  | a :: rest => takeAct a rest s

/-- The core set up so that the next move takes the last word of the packet of `w` and runs it: idle, released from
reset, not halted, the packet's other words already with the decoder and its last word presented (log 18). -/
def presentPacket (nbits w : Nat) (s : State) : State :=
  let ws := packetWords nbits w
  { s with
    rst := false
    busy := false
    halted := false
    stopReq := false
    pending := none
    todo := []
    waited := 0
    packet := ws.dropLast
    inbox := .word (ws.getLastD 0#32) :: s.inbox }

end Sys2Proof.Machine
end

