-- ==== Sys2Proof/Machine/Step.lean ====
section
/-! DEFINITION. One step of the machine, and the host's way to place a command where it is taken next. -/

namespace Sys2Proof.Machine

/-- One step: the next act at the ports, or the core's own next move (log 1, 2). -/
def step (s : State) : Host.Outcome State Fault Refusal := move s

/-- The state in which the very next step runs the packet with the bits `w` (log 18). -/
def State.withFetchWord (s : State) (nbits w : Nat) : State := presentPacket nbits w s

end Sys2Proof.Machine
end

