-- ==== Sys2Proof/Machine/Trace.lean ====
section
/-! DEFINITION. The event lists the rules give, written as functions of CR, DMASK and the bytes sent; their duration;
and the two test observers of a trace (spec/10_state.md R34, spec/41_bus_writer.md R157). The machine does not use this
file: statements compare its traces with these lists. -/

namespace Sys2Proof.Machine

/-! ## Reading a trace -/

/-- The microseconds of one event: a Set takes no model time (spec/00_scope.md R12, spec/10_state.md R53). -/
def Event.micros : Event → Nat
  | .set _ _ => 0
  | .wait us => us

/-- The sum of a trace's Waits (spec/10_state.md R53). -/
def duration (es : List Event) : Nat := (es.map Event.micros).sum

/-- The lines after a trace (spec/10_state.md R39). -/
def Pins.afterAll (P : Pins) (es : List Event) : Pins := es.foldl Pins.after P

/-- Append a list of events, oldest first: what emitting them one by one does. -/
def State.emitAll (es : List Event) (s : State) : State :=
  { s with log := es.reverse ++ s.log, pins := s.pins.afterAll es }

/-! ## The config shift register -/

/-- `Push()` of the value v (spec/40_config_shift_register.md R132). -/
def pushEvents (v : BitVec 8) : List Event :=
  .set .cfgStr false ::
    ([7, 6, 5, 4, 3, 2, 1, 0].flatMap (fun k =>
      [.set .cfgClk false, .set .cfgData (v.getLsbD k), .set .cfgClk true]) ++ [.set .cfgStr true])

/-! ## The bus writer -/

/-- `popcount` of a byte: how many of its bits are 1 (spec/00_scope.md R11). -/
def popcount (b : Byte) : Nat := ((List.range 8).map fun i => (b.getLsbD i).toNat).sum

/-- `writeByte(b)` with the wired lines of `dmask` (spec/41_bus_writer.md R150). -/
def byteEvents (dmask b : Byte) : List Event :=
  (wiredLines dmask).map (fun i => .set (.d i) (b.getLsbD i)) ++ [.set .ws true, .set .ws false]

/-- `writeLineBytes` of the bytes (R155). -/
def lineEvents (dmask : Byte) (bytes : List Byte) : List Event := bytes.flatMap (byteEvents dmask)

/-! ## The frame pipeline -/

/-- `Wait(n)` (spec/00_scope.md R12). -/
def waitEvents (n : Nat) : List Event := if n = 0 then [] else [.wait n]

/-- `Pulse(a, b)` (spec/43_frame_pipeline.md R191). -/
def pulseEvents (a b : Nat) : List Event := .set .ckv true :: (waitEvents a ++ .set .ckv false :: waitEvents b)

/-- `StartFrame()` from the CR value `cr` (R193). -/
def startFrameEvents (cr : BitVec 8) : List Event :=
  pushEvents (cr ||| 0x40#8) ++ pulseEvents 1 1 ++ pushEvents ((cr ||| 0x40#8) &&& ~~~0x10#8) ++ [.wait 1000]
    ++ pulseEvents 10 10 ++ pushEvents (cr ||| 0x50#8) ++ pulseEvents 0 10 ++ pushEvents (cr ||| 0xD0#8)
    ++ pulseEvents 1 1

/-- `EndFrame()` from the CR value `cr` (R195). -/
def endFrameEvents (cr : BitVec 8) : List Event :=
  pushEvents (cr &&& ~~~0x80#8) ++ pushEvents (cr &&& ~~~0xC0#8) ++ pulseEvents 1 1 ++ pulseEvents 1 1

/-- `SkipRow()` (R197). -/
def skipRowEvents : List Event := pulseEvents 45 5

/-- `LatchRow()` from the CR value `cr` (R200). -/
def latchRowEvents (cr : BitVec 8) : List Event := pushEvents (cr ||| 0x01#8) ++ pushEvents (cr &&& ~~~0x01#8)

/-- `OutputRow` of the bytes with high time p, from the CR value `cr` (R198). -/
def outputRowEvents (dmask : Byte) (cr : BitVec 8) (bytes : List Byte) (p : Nat) : List Event :=
  latchRowEvents cr ++ pulseEvents p 50 ++ lineEvents dmask bytes ++ pulseEvents 1 1

/-- CR while the rows of a frame are processed: MODE, STV and OE are set (R194). -/
def crInFrame (cr : BitVec 8) : BitVec 8 := cr ||| 0xD0#8

/-- CR after a frame with a data row: STV set, MODE, OE and LE clear (R194, R196, R200). -/
def crAfterFrame (cr : BitVec 8) : BitVec 8 := (cr ||| 0x10#8) &&& ~~~0xC1#8

/-- A frame from the CR value `cr` whose row r emits `row r` (R202). -/
def frameEvents (cr : BitVec 8) (height : Nat) (row : Nat → List Event) : List Event :=
  startFrameEvents cr ++ (List.range height).flatMap row ++ endFrameEvents (crInFrame cr &&& ~~~0x01#8)

/-! ## The commands -/

/-- POWER_ON from the CR value `cr` (spec/42_power_sequencer.md R171). -/
def powerOnEvents (cr : BitVec 8) : List Event :=
  pushEvents (cr ||| 0x20#8) ++ pushEvents ((cr ||| 0x20#8) &&& ~~~0x02#8) ++ [.wait 100000]
    ++ pushEvents ((cr ||| 0x28#8) &&& ~~~0x02#8) ++ [.wait 500000] ++ pushEvents ((cr ||| 0x2C#8) &&& ~~~0x02#8)
    ++ [.wait 100000] ++ pushEvents ((cr ||| 0x3C#8) &&& ~~~0x02#8) ++ [.set .ie true]

/-- POWER_OFF from the CR value `cr` (R174). -/
def powerOffEvents (cr : BitVec 8) : List Event :=
  pushEvents (cr &&& ~~~0x04#8) ++ [.wait 10000] ++ pushEvents (cr &&& ~~~0x0C#8) ++ [.wait 100000]
    ++ pushEvents ((cr &&& ~~~0x0C#8) ||| 0x02#8) ++ pushEvents ((cr &&& ~~~0x1C#8) ||| 0x02#8)

/-- One frame of CLEAR and its settle: every row sends `len` bytes b (spec/44_renderer_1bpp.md R230). -/
def clearFrameEvents (dmask : Byte) (height len : Nat) (cr : BitVec 8) (b : Byte) : List Event :=
  frameEvents cr height (fun _ => outputRowEvents dmask (crInFrame cr) (List.replicate len b) 10) ++ [.wait 20000]

/-- CLEAR for a number of cycles (R230). -/
def clearEvents (dmask : Byte) (height len : Nat) : Nat → BitVec 8 → List Event
  | 0, _ => []
  | n + 1, cr =>
    clearFrameEvents dmask height len cr 0x00#8 ++ clearFrameEvents dmask height len (crAfterFrame cr) 0xFF#8
      ++ clearEvents dmask height len n (crAfterFrame cr)

/-- A frame in which the rows of R are data rows that send `bytes r` and the others are skipped
(spec/44_renderer_1bpp.md R226, spec/45_grayscale_engine.md R266). -/
def drawFrameEvents (dmask : Byte) (height : Nat) (R : Rect) (bytes : Nat → List Byte) (p : Nat) (cr : BitVec 8) :
    List Event :=
  frameEvents cr height fun r =>
    if R.hasRow r then outputRowEvents dmask (crInFrame cr) (bytes r) p else skipRowEvents

/-- The bytes DRAW_1BPP sends for data row r (spec/44_renderer_1bpp.md R223, R226). -/
def State.sentBytes1 (s : State) (R : Rect) (r : Nat) : List Byte := (List.range s.rowLen1).map (s.rowByte1 R r)

/-- The byte of a grayscale row in closed form: the pixels at columns 4j+1 and 4j are carved out of lanes 0 and 1
where they equal the pass's level (spec/45_grayscale_engine.md R265). -/
def State.grayByte (s : State) (R : Rect) (p r j : Nat) : Byte :=
  lutBase s.opl.mode
    &&& ~~~(if (s.pixel4 R r (4 * j + 1)).toNat = carveLevel p s.opl.mode then 0x03#8 else 0x00#8)
    &&& ~~~(if (s.pixel4 R r (4 * j)).toNat = carveLevel p s.opl.mode then 0x0C#8 else 0x00#8)

/-- The bytes DRAW_GRAY sends for data row r in pass p (R264, R265). -/
def State.sentBytes4 (s : State) (R : Rect) (p r : Nat) : List Byte := (List.range s.rowLenOut).map (s.grayByte R p r)

/-- Passes `p`, `p + 1`, … of DRAW_GRAY, `n` of them (R266, R267). -/
def grayEvents (s : State) (R : Rect) : Nat → Nat → BitVec 8 → List Event
  | 0, _, _ => []
  | n + 1, p, cr =>
    drawFrameEvents s.dmask s.height.toNat R (s.sentBytes4 R p) (contrastTime s.opl.mode p) cr ++ [.wait 5000]
      ++ grayEvents s R n (p + 1) (crAfterFrame cr)

/-! ## The observers -/

/-- The panel observer: the lines, the 8 shifted bits and the latched output (spec/10_state.md R34). -/
structure PanelObserver where
  lines : Pins
  shift : BitVec 8
  latched : BitVec 8
  deriving DecidableEq, Repr

/-- The panel observer sees one event: it shifts CFG_DATA in on a 0→1 edge of CFG_CLK and latches on a 0→1 edge of
CFG_STR (R34). -/
def PanelObserver.see (o : PanelObserver) (e : Event) : PanelObserver :=
  let lines := o.lines.after e
  let shift :=
    if o.lines.cfgClk = .lo ∧ lines.cfgClk = .hi then (o.shift <<< 1) ||| BitVec.setWidth 8 (BitVec.ofBool (lines.cfgData == .hi))
    else o.shift
  { lines, shift, latched := if o.lines.cfgStr = .lo ∧ lines.cfgStr = .hi then shift else o.latched }

/-- The panel observer after a trace. -/
def PanelObserver.seeAll (o : PanelObserver) (es : List Event) : PanelObserver := es.foldl PanelObserver.see o

/-- What the bus observer captures from lines that stand at P: the levels of D0..D7 at every Set(WS, 1)
(spec/41_bus_writer.md R157). -/
def captured : Pins → List Event → List (Vector Level 8)
  | _, [] => []
  | P, e :: es => if e = .set .ws true then P.data :: captured (P.after e) es else captured (P.after e) es

end Sys2Proof.Machine
end

