-- ==== Sys2Proof/Safety.lean ====
section
/-! DEFINITION. What the statements take for granted and what they keep: the invariant of the state, the safety of the
frame state machine, a host that stays away from the ports, and real time. -/

namespace Sys2Proof.Machine

/-- The list starts with a move of the core: an event, or the reads of a row. -/
def headMoves : List MicroOp → Bool
  | .drive _ :: _ => true
  | .silent i :: _ => i.reads
  | [] => false

/-- If the running command is about to read a row, the bytes it reads are admitted. -/
def State.readsAdmitted (s : State) : Bool :=
  match s.todo with
  | .silent (.compose1 R r) :: _ => s.rowAdmitted1 R r
  | .silent (.compose4 R r) :: _ => s.rowAdmitted4 R r
  | _ => true

/-- The µs a Wait at the head of the list lasts. -/
def headWait : List MicroOp → Nat
  | .drive (.wait n) :: _ => n
  | _ => 0

/-- What a command's list may hold: data lines are driven only through the bus writer and only where they are wired
(spec/41_bus_writer.md R152), IE is only raised (spec/70_reset_and_hazards.md R364), and no Wait is empty
(spec/00_scope.md R12). -/
def opAllowed (dmask : Byte) : MicroOp → Bool
  | .drive (.set (.d _) _) => false
  | .drive (.set .ie v) => v
  | .drive (.set _ _) => true
  | .drive (.sendBit _) => true
  | .drive (.busBit _ _ i) => dmask.getLsbD i
  | .drive (.wait n) => decide (1 ≤ n)
  | .silent _ => true

/-- The invariant of the core's state: every state a run reaches has it. -/
structure State.Inv (s : State) : Prop where
  /-- WIDTH is in 1..960 (spec/10_state.md R41) -/
  width_range : 1 ≤ s.width.toNat ∧ s.width.toNat ≤ Config.maxWidth
  /-- HEIGHT is in 1..540 (R41) -/
  height_range : 1 ≤ s.height.toNat ∧ s.height.toNat ≤ Config.maxHeight
  /-- the source memory is in its canonical form (log 6) -/
  memory_wf : s.src.wf = true
  /-- ERR is set exactly when a code is recorded (R49) -/
  err_iff_code : s.err = true ↔ s.errCode ≠ .none
  /-- a halted core has recorded an error (R49) -/
  halted_err : s.halted = true → s.err = true
  /-- BUSY = 0 while RST is asserted (spec/70_reset_and_hazards.md R350) -/
  rst_not_busy : s.rst = true → s.busy = false
  /-- nothing is left to do, held or asked for while BUSY = 0 (spec/46_host_interface.md R291, R292) -/
  idle_clean : s.busy = false → s.todo = [] ∧ s.waited = 0 ∧ s.stopReq = false ∧ s.pending = none
  /-- a running command is about to emit an event or to read a row (R294) -/
  busy_moves : s.busy = true → headMoves s.todo = true
  /-- the decoder is at a packet boundary while a command runs (R292) -/
  busy_packet : s.busy = true → s.packet = []
  /-- the words with the decoder are an unfinished packet (spec/30_encoding.md R96) -/
  packet_open : decode s.packet = .incomplete
  /-- a Wait in progress has not reached its end (spec/10_state.md R36) -/
  wait_open : s.waited = 0 ∨ s.waited < headWait s.todo
  /-- the running command's list holds only what a list may hold -/
  list_allowed : ∀ op ∈ s.todo, opAllowed s.dmask op = true
  /-- an unwired data line is never driven (spec/10_state.md R39) -/
  unwired_undriven : ∀ i : Fin 8, s.dmask.getLsbD i = false → s.pins.data[i] = .x
  /-- RSP holds a dimension, or its reset value: bits [31:10] are 0 (spec/30_encoding.md R116; log 7) -/
  rsp_small : s.rsp.toNat < 1024

/-- Walk a command's list with the frame state machine of spec/43_frame_pipeline.md R190: no requirement fails on the
way, ROW never passes HEIGHT, and the walk ends IDLE with ROW = 0. -/
def frameWalk (height : BitVec 10) : List MicroOp → FrameState → BitVec 10 → Bool
  | [], f, n => f == .idle && n == 0#10
  | .silent .dropFrame :: rest, _, _ => frameWalk height rest .idle 0#10
  | .silent .openFrame :: rest, f, _ => f == .idle && frameWalk height rest .active 0#10
  | .silent .requireRow :: rest, f, n => f == .active && decide (n < height) && frameWalk height rest f n
  | .silent .countRow :: rest, f, n => f == .active && decide (n < height) && frameWalk height rest f (n + 1#10)
  | .silent .requireFull :: rest, f, n => f == .active && n == height && frameWalk height rest f n
  | .silent .closeFrame :: rest, _, _ => frameWalk height rest .idle 0#10
  | _ :: rest, f, n => frameWalk height rest f n

/-- The frame state machine is safe: from here the running command's list never fails a requirement, and between
commands FSTATE is IDLE, unless the core is halted or in reset. -/
structure State.FrameSafe (s : State) : Prop where
  walk : (s.busy = true ∨ (s.halted = false ∧ s.rst = false)) → frameWalk s.height s.todo s.fstate s.row = true
  /-- ROW is in 0..HEIGHT (spec/10_state.md R42) -/
  row_le : s.row ≤ s.height

/-- Walk a command's list with CR.LE: it is 0 wherever a fault can stop the command and at the end
(spec/70_reset_and_hazards.md R363). -/
def latchWalk : List MicroOp → Bool → Bool
  | [], le => !le
  | .silent (.setBit .le v) :: rest, _ => latchWalk rest v
  | .silent .clearCr :: rest, _ => latchWalk rest false
  | .silent .openFrame :: rest, le => !le && latchWalk rest le
  | .silent .requireRow :: rest, le => !le && latchWalk rest le
  | .silent .requireFull :: rest, le => !le && latchWalk rest le
  | .silent (.compose1 _ _) :: rest, le => !le && latchWalk rest le
  | .silent (.compose4 _ _) :: rest, le => !le && latchWalk rest le
  | _ :: rest, le => latchWalk rest le

/-- CR.LE. -/
def State.latchEnable (s : State) : Bool := s.cr.getLsbD 0

/-- LE is 0 between commands, and will be at the running command's end. -/
def State.LatchSafe (s : State) : Prop := s.rst = false → latchWalk s.todo s.latchEnable = true

/-- The host stays away from the ports: nothing is scheduled, held or asked for, and RST is released. -/
structure State.Quiet (s : State) : Prop where
  inbox : s.inbox = []
  pending : s.pending = none
  stopReq : s.stopReq = false
  rst : s.rst = false

/-- The decoder takes the next word presented: the core is not busy and RST is released. -/
structure State.Listening (s : State) : Prop where
  busy : s.busy = false
  rst : s.rst = false

/-- `u` is what `t` has become after exactly `n` steps, BUSY is 1 until then and 0 there. -/
structure State.RunsTo (t : State) (n : Nat) (u : State) : Prop where
  busy_until : ∀ k < n, ∃ v, Host.Core.run core k t = .next v ∧ v.busy = true
  reached : Host.Core.run core n t = .next u
  idle : u.busy = false

/-- The lines stand where the trace has left them (spec/10_state.md R39). -/
def State.LinesReplay (s : State) : Prop := s.pins = Pins.undriven.afterAll s.trace

/-- Real time, in clock cycles (log 14): `c` cycles are spent on each event. A Set is followed by at least T_SET, a
Wait(n) lasts n µs and at most WAIT_STRETCH more (spec/00_scope.md R8, spec/60_exceptions.md R330). -/
def realTimeOk (es : List (Event × Nat)) : Prop :=
  ∀ p ∈ es, match p.1 with
    | .set _ _ => Config.tSet ≤ p.2
    | .wait n => n * Config.ticksPerUs ≤ p.2 ∧ p.2 ≤ n * Config.ticksPerUs + Config.waitStretch

end Sys2Proof.Machine
end

