-- ==== Sys2Proof/Certificates/Slice0/Obligations.lean ====
section
/-! DEFINITION. The statements for the provers, in the order of the spec's files. -/

open Sys2Proof Sys2Proof.Machine

/-! ## Encoding (spec/30_encoding.md) -/

/-- R94, R95, R96: the decoder reads back every well-formed command from its packet and leaves what follows. -/
def Obligations.DecodeOfEncode : Prop :=
  ∀ (i : Instr) (rest : List Word), i.wf = true → decode (encode i ++ rest) = .accept i rest

/-- R95, R100: whatever the decoder accepts is the packet of a well-formed command, and nothing else is. -/
def Obligations.AcceptedOnlyIfEncoded : Prop :=
  ∀ (ws rest : List Word) (i : Instr), decode ws = .accept i rest → ws = encode i ++ rest ∧ i.wf = true

/-- R98: a reserved opcode is refused with ILLEGAL_OPCODE, one word is consumed, and nothing is executed: a step that
takes it only records the error. -/
def Obligations.ReservedOpcodeRefused : Prop :=
  ∀ (w : Word), (opcodeField w = 0x00#8 ∨ 0x09#8 ≤ opcodeField w) →
    (∀ ws, decode (w :: ws) = .refuse .illegalOpcode ws) ∧
    ∀ (s : State) (rest : List PortAct), s.Listening → s.halted = false → s.packet = [] → s.inbox = .word w :: rest →
      step s = .next (takeRefusal .illegalOpcode { s with inbox := rest })

/-- R99: a defined opcode with a nonzero reserved field is refused with RESERVED_BITS once the whole packet is there,
and not before. -/
def Obligations.ReservedFieldRefused : Prop :=
  ∀ (w : Word) (n : Nat) (args : List Word), operandWords (opcodeField w) = some n →
    (reservedField w ≠ 0#32 ∨ (opcodeField w = 0x06#8 ∧ args.getD 5 0#32 >>> 2 ≠ 0#32)) →
    (args.length < n → decode (w :: args) = .incomplete) ∧
    (∀ rest, args.length = n → decode (w :: (args ++ rest)) = .refuse .reservedBits rest)

/-- Words written out from the table of R95 and the formats of R94 decode to the commands they stand for. -/
def Obligations.SampleWordsDecode : Prop :=
  decode [0x00000001#32] = .accept .powerOn [] ∧
  decode [0x00000004#32, 0xFFFFFFFF#32] = .accept (.clear 0xFFFFFFFF#32) [] ∧
  decode [0x00000005#32, 0xFFFFFFFD#32, 1#32, 12#32, 2#32, 0x200#32, 10#32] =
    .accept (.draw1bpp 0xFFFFFFFD#32 1#32 12#32 2#32 0x200#32 10#32) [] ∧
  decode [0x00000006#32, 0#32, 0#32, 2#32, 1#32, 0x2000#32, 3#32] =
    .accept (.drawGray 0#32 0#32 2#32 1#32 0x2000#32 3#32) [] ∧
  decode [0x00000008#32] = .accept .getHeight []

/-! ## Operands and addresses (spec/20_memory.md, spec/44_renderer_1bpp.md) -/

/-- R73, R79-R81: every source address is the exact sum over ℤ reduced modulo 2^32. -/
def Obligations.SourceAddressesWrap : Prop :=
  ∀ (o : OperandLatch) (r c : Int),
    ((srcByte1 o r c).toNat : Int) = (o.src.toNat + r * ((o.w.toInt + 7) / 8) + c / 8) % 2 ^ 32 ∧
    ((srcByte4 o r c).toNat : Int) = (o.src.toNat + r * ((o.w.toInt + 1) / 2) + c / 2) % 2 ^ 32

/-- R221: the clipped rectangle holds exactly the panel's pixels that lie in the given one, and is EMPTY exactly when
there is none. -/
def Obligations.ClipKeepsVisiblePixels : Prop :=
  ∀ (width height : Nat) (x y w h : Int),
    (∀ R, clip width height x y w h = some R →
      (∀ c : Nat, R.hasCol c = true ↔ x ≤ c ∧ c < x + w ∧ c < width) ∧
      (∀ r : Nat, R.hasRow r = true ↔ y ≤ r ∧ r < y + h ∧ r < height)) ∧
    (clip width height x y w h = none ↔
      ¬ ∃ c r : Nat, (x ≤ c ∧ c < x + w ∧ c < width) ∧ (y ≤ r ∧ r < y + h ∧ r < height))

/-- R253: under REJECT a rectangle that sticks out is EMPTY and any other non-empty one is kept; under CLIP it is
clipped. -/
def Obligations.GrayPolicyDecidesRectangle : Prop :=
  ∀ (width height : Nat) (x y w h : Int),
    grayRect .clip width height x y w h = clip width height x y w h ∧
    (0 ≤ x → 0 ≤ y → x + w ≤ width → y + h ≤ height →
      grayRect .reject width height x y w h = clip width height x y w h) ∧
    ((x < 0 ∨ y < 0 ∨ (width : Int) < x + w ∨ (height : Int) < y + h) →
      grayRect .reject width height x y w h = none)

/-- R84 items 1 and 2: a byte the host writes while no command runs is what a later read returns; one it writes while a
command runs leaves that command's read a free choice between the new byte and the ones it replaced, and does not itself
make the command read. The form of the choice is the model's (log 10). -/
def Obligations.HostWriteRacesWithRead : Prop :=
  ∀ (s : State) (a : Word) (b : Byte) (rest : List PortAct) (col : Nat), s.src.wf = true →
    s.inbox = .write a b :: rest →
    ∃ t, step s = .next t ∧ t.src.read a.toNat = b ∧ t.todo = s.todo ∧ t.rowbuf1 = s.rowbuf1 ∧ t.rowbuf4 = s.rowbuf4 ∧
      (s.busy = false → s.raced = [] → t.readByte a col = b) ∧
      (s.busy = true → t.readByte a col = b ∨ t.readByte a col = s.src.read a.toNat ∨
        t.readByte a col ∈ s.oldValues a) ∧
      (∀ a' : Word, a' ≠ a → t.readByte a' col = s.readByte a' col)

/-- R71: only the host writes the source memory; no step of the core changes it. That SRC_ADMIT, a parameter of R8,
changes only where the schedule says that the platform's answers change is the model's choice (log 5). -/
def Obligations.CoreNeverWritesSource : Prop :=
  ∀ (s t : State), step s = .next t →
    ((∀ a b rest, s.inbox ≠ .write a b :: rest) → t.src = s.src) ∧
    ((∀ regions rest, s.inbox ≠ .memOk regions :: rest) → t.srcAdmit = s.srcAdmit)

/-! ## Config shift register and bus writer (spec/40_config_shift_register.md, spec/41_bus_writer.md) -/

/-- R132, R133: a Push that is about to begin emits its 26 Sets in 26 steps, sends CR and leaves it, whatever follows
it. -/
def Obligations.PushTakesTwentySixSteps : Prop :=
  ∀ (s : State) (next : MicroOp) (rest : List MicroOp), s.Quiet → s.busy = true → s.waited = 0 →
    s.todo = push ++ next :: rest → headMoves (next :: rest) = true →
    (pushEvents s.cr).length = 26 ∧ duration (pushEvents s.cr) = 0 ∧
    Host.Core.run core 26 s = .next { s.emitAll (pushEvents s.cr) with todo := next :: rest }

/-- R134: after a Push, CFG_STR and CFG_CLK are 1, CFG_DATA holds bit 0, and no other line has changed. -/
def Obligations.PushLeavesConfigLines : Prop :=
  ∀ (P : Pins) (v : BitVec 8),
    P.afterAll (pushEvents v) = { P with cfgStr := .hi, cfgClk := .hi, cfgData := Level.ofBit (v.getLsbD 0) }

/-- R137: whatever the panel observer held and wherever the lines stood, after a complete Push it has latched the value
sent. -/
def Obligations.PanelObserverLatchesPush : Prop :=
  ∀ (o : PanelObserver) (v : BitVec 8), (o.seeAll (pushEvents v)).latched = v

/-- R151, R156: a byte takes one Set per 1 of DMASK and two for the strobe, and no time; a line of n bytes n times as
many. -/
def Obligations.BusEventCounts : Prop :=
  ∀ (dmask : Byte) (bytes : List Byte),
    (lineEvents dmask bytes).length = bytes.length * (popcount dmask + 2) ∧
      duration (lineEvents dmask bytes) = 0

/-- R153, R157: the bus observer captures the bytes of a line in order on the wired lines, and whatever stood there
before on the others. -/
def Obligations.BusObserverCapturesLine : Prop :=
  ∀ (P : Pins) (dmask : Byte) (bytes : List Byte),
    captured P (lineEvents dmask bytes) = bytes.map fun b =>
      Vector.ofFn fun i : Fin 8 => if dmask.getLsbD i then Level.ofBit (b.getLsbD i) else P.data[i]

/-! ## Power sequencer (spec/42_power_sequencer.md) -/

/-- R171, R172: POWER_ON is accepted from any CR and, left alone, emits its 134 events in 134 steps with BUSY = 1, takes
700000 µs, leaves CR = (CR | 0x3C) & ~0x02, and changes nothing else. -/
def Obligations.PowerOnCompletes : Prop :=
  ∀ s : State, s.Quiet →
    (powerOnEvents s.cr).length = 134 ∧ duration (powerOnEvents s.cr) = 700000 ∧
    ∃ t, exec .powerOn s = .next t ∧
      t.RunsTo 134 { s.emitAll (powerOnEvents s.cr) with
        cr := (s.cr ||| 0x3C#8) &&& ~~~0x02#8, busy := false, todo := [], waited := 0, raced := [] }

/-- R174, R175: POWER_OFF, likewise: 106 events, 110000 µs, CR = (CR & ~0x1C) | 0x02, IE as it was. -/
def Obligations.PowerOffCompletes : Prop :=
  ∀ s : State, s.Quiet →
    (powerOffEvents s.cr).length = 106 ∧ duration (powerOffEvents s.cr) = 110000 ∧
    ∃ t, exec .powerOff s = .next t ∧
      t.RunsTo 106 { s.emitAll (powerOffEvents s.cr) with
        cr := (s.cr &&& ~~~0x1C#8) ||| 0x02#8, busy := false, todo := [], waited := 0, raced := [] } ∧
      (s.pins.afterAll (powerOffEvents s.cr)).ie = s.pins.ie

/-- R176, R177: POWER_OFF_ALL is accepted whatever CR, FSTATE and HALTED hold, writes CR to 0x00 with one Push of it,
and drops the frame; only the three config lines change. -/
def Obligations.PowerOffAllCompletes : Prop :=
  ∀ s : State, s.Quiet →
    ∃ t, exec .powerOffAll s = .next t ∧
      t.RunsTo 26 { s.emitAll (pushEvents 0x00#8) with
        cr := 0x00#8, fstate := .idle, row := 0#10, busy := false, todo := [], waited := 0, raced := [] } ∧
      s.pins.afterAll (pushEvents 0x00#8) = { s.pins with cfgStr := .hi, cfgClk := .hi, cfgData := .lo }

/-- R364: IE is never cleared but by reset: no other step lowers it or returns it to X. That it keeps its level while
RST is asserted, until the release, is the model's choice (log 13). -/
def Obligations.InputEnableStaysHigh : Prop :=
  ∀ (s t : State), s.Inv → step s = .next t → s.pins.ie = .hi →
    (∀ rw rh dm rest, s.inbox ≠ .releaseRst rw rh dm :: rest) → t.pins.ie = .hi

/-! ## Frame pipeline (spec/43_frame_pipeline.md) -/

/-- R203: the duration and the event count of a frame of h rows of which d are data rows of n bytes with high time p. -/
def Obligations.FrameSize : Prop :=
  ∀ (dmask : Byte) (h n p : Nat) (R : Rect) (bytes : Nat → List Byte) (cr : BitVec 8),
    (∀ r, (bytes r).length = n) →
    let d := ((List.range h).filter R.hasRow).length
    duration (drawFrameEvents dmask h R bytes p cr) = 1034 + 4 + 50 * (h - d) + (p + 52) * d ∧
    (drawFrameEvents dmask h R bytes p cr).length =
      120 + 60 + 4 * (h - d) + d * (52 + (if 1 ≤ p then 4 else 3) + n * (popcount dmask + 2) + 4)

/-- R204: after a frame CKV = 0 and CFG_STR = CFG_CLK = 1, whatever the lines were before it. -/
def Obligations.FrameLeavesClockLow : Prop :=
  ∀ (P : Pins) (dmask : Byte) (h p : Nat) (R : Rect) (bytes : Nat → List Byte) (cr : BitVec 8),
    let Q := P.afterAll (drawFrameEvents dmask h R bytes p cr)
    Q.ckv = .lo ∧ Q.cfgStr = .hi ∧ Q.cfgClk = .hi ∧ Q.ie = P.ie

/-- R190, R324: the frame state machine stays safe: no step leads where a running command's list would fail a
requirement of the machine's table. -/
def Obligations.StepKeepsFrameSafe : Prop :=
  ∀ (s t : State), s.Inv → s.FrameSafe → step s = .next t → t.FrameSafe

/-- R190: FSM_FAULT cannot happen: no step from a safe state records it, and a step from a safe state that halts the
core halts it with SRC_FAULT, as the same step shows where no code has been recorded before. -/
def Obligations.FsmFaultNeverRecorded : Prop :=
  ∀ (s t : State), s.Inv → s.FrameSafe → step s = .next t →
    (s.errCode ≠ .fsmFault → t.errCode ≠ .fsmFault) ∧
    (s.halted = false → t.halted = true →
      ∃ u, step { s with err := false, errCode := .none } = .next u ∧ u.halted = true ∧ u.errCode = .srcFault)

/-- R363: LE is 0 between commands: every step keeps it so. -/
def Obligations.StepKeepsLatchSafe : Prop :=
  ∀ (s t : State), s.Inv → s.LatchSafe → step s = .next t → t.LatchSafe

/-! ## 1bpp renderer (spec/44_renderer_1bpp.md) -/

/-- R223, R80: in a composed 1bpp row, panel column c is bit 7 − (c mod 8) of byte c/8; R262, R81: in a composed 4bpp
row, it is the high nibble of byte c/2 for an even c and the low one for an odd c. It holds the source pixel inside the
rectangle and 0 outside it. Where a read of the row faults, each column holds that pixel, if its byte is admitted, or
the 0 that the row was filled with first (which of the two is a free value, log 16), and the bytes that are not
transmitted stay. -/
def Obligations.ComposedRowHoldsSourcePixels : Prop :=
  ∀ (s t : State) (R : Rect) (r c : Nat), s.width.toNat ≤ Config.maxWidth → s.raced = [] →
    let inside := decide (R.xs ≤ c) && decide ((c : Int) < R.xe)
    let col : Int := c - s.opl.x.toInt
    let addr1 := srcByte1 s.opl (r - s.opl.y.toInt) col
    let addr4 := srcByte4 s.opl (r - s.opl.y.toInt) col
    let pixel1 := inside && (s.src.read addr1.toNat).getLsbD (7 - col % 8).toNat
    let pixel4 := if inside then (s.src.read addr4.toNat).extractLsb' (if col % 2 = 0 then 4 else 0) 4 else 0#4
    let bit := fun u : State => (entry u.rowbuf1 (c / 8)).getLsbD (7 - c % 8)
    let nibble := fun u : State => (entry u.rowbuf4 (c / 2)).extractLsb' (if c % 2 = 0 then 4 else 0) 4
    (compose1 R r s = .ok t → c < 8 * s.rowLen1 → bit t = pixel1) ∧
    (compose4 R r s = .ok t → c < 2 * s.rowLen4 → nibble t = pixel4) ∧
    (∀ e, compose1 R r s = .error e →
      let u := halfCompose (.compose1 R r) s
      u.rowbuf4 = s.rowbuf4 ∧ (∀ k, s.rowLen1 ≤ k → entry u.rowbuf1 k = entry s.rowbuf1 k) ∧
      (c < 8 * s.rowLen1 → bit u = false ∨ s.admits addr1 = true ∧ bit u = pixel1)) ∧
    (∀ e, compose4 R r s = .error e →
      let u := halfCompose (.compose4 R r) s
      u.rowbuf1 = s.rowbuf1 ∧ (∀ k, s.rowLen4 ≤ k → entry u.rowbuf4 k = entry s.rowbuf4 k) ∧
      (c < 2 * s.rowLen4 → nibble u = 0#4 ∨ s.admits addr4 = true ∧ nibble u = pixel4))

/-- R224, R226, R294: a DRAW_1BPP whose rectangle is EMPTY is over at once: the operand latch is written, BUSY never
shows, and nothing is emitted or read. -/
def Obligations.EmptyDraw1bppIsNoOp : Prop :=
  ∀ (s : State) (x y w h src pulse : Word),
    clip s.width.toNat s.height.toNat x.toInt y.toInt w.toInt h.toInt = none →
    exec (.draw1bpp x y w h src pulse) s = .next { s with
      opl := { s.opl with x := x, y := y, w := w, h := h, src := src, pulse := pulse },
      busy := false, todo := [], waited := 0, raced := [] }

/-- R226, R229: a DRAW_1BPP of a non-EMPTY rectangle whose bytes are all admitted, left alone, emits exactly one frame
with the composed rows as data rows, in one step for each event and for each data row's reads; then CR has STV set and
MODE, OE and LE clear, FSTATE is IDLE, and nothing but ROWBUF1 (the last data row) and the free choices' counter has
changed. -/
def Obligations.Draw1bppCompletes : Prop :=
  ∀ (s : State) (x y w h src pulse : Word) (R : Rect),
    let o : OperandLatch := { s.opl with x := x, y := y, w := w, h := h, src := src, pulse := pulse }
    let s₁ : State := { s with opl := o, raced := [] }
    let es := drawFrameEvents s.dmask s.height.toNat R (s₁.sentBytes1 R) pulse.toNat s.cr
    s.Inv → s.Quiet → s.fstate = .idle → s₁.rect1 = some R →
    (∀ r, R.hasRow r = true → s₁.rowAdmitted1 R r = true) →
    ∃ t, exec (.draw1bpp x y w h src pulse) s = .next t ∧
      t.RunsTo (es.length + (R.ye - R.ys).toNat) { s₁.emitAll es with
        cr := crAfterFrame s.cr
        rowbuf1 := overwrite s.rowLen1 (s₁.rowByte1 R (R.ye.toNat - 1)) s.rowbuf1
        raceTick := s.raceTick + (R.ye - R.ys).toNat
        row := 0#10, busy := false, todo := [], waited := 0 }

/-- R321, R323: if the bytes of data row r are not all admitted and those of the data rows before it are, DRAW_1BPP
stops before row r: the trace ends with the event before, FSTATE is ACTIVE, ROW = r, CR has MODE, STV and OE set and LE
clear, the error is recorded and the core is halted. -/
def Obligations.Draw1bppSourceFault : Prop :=
  ∀ (s : State) (x y w h src pulse : Word) (R : Rect) (r : Nat),
    let o : OperandLatch := { s.opl with x := x, y := y, w := w, h := h, src := src, pulse := pulse }
    let s₁ : State := { s with opl := o, raced := [] }
    let row := fun q => if R.hasRow q then outputRowEvents s.dmask (crInFrame s.cr) (s₁.sentBytes1 R q) pulse.toNat
      else skipRowEvents
    let es := startFrameEvents s.cr ++ (List.range r).flatMap row
    s.Inv → s.Quiet → s.fstate = .idle → s.latchEnable = false → s₁.rect1 = some R →
    R.hasRow r = true → s₁.rowAdmitted1 R r = false →
    (∀ q < r, R.hasRow q = true → s₁.rowAdmitted1 R q = true) →
    ∃ t u, exec (.draw1bpp x y w h src pulse) s = .next t ∧ t.RunsTo (es.length + ((List.range r).filter R.hasRow).length + 1) u ∧
      u.trace = s.trace ++ es ∧ u.pins = s.pins.afterAll es ∧ u.cr = crInFrame s.cr ∧ u.fstate = .active ∧
      u.row = BitVec.ofNat 10 r ∧ u.todo = [] ∧ u.err = true ∧ u.halted = true ∧
      u.errCode = (if s.errCode = .none then .srcFault else s.errCode) ∧ u.src = s.src ∧ u.rsp = s.rsp

/-- R232 (a), R294: CLEAR with cycles ≤ 0 is over at once with no event. -/
def Obligations.ClearOfNoCyclesIsNoOp : Prop :=
  ∀ (s : State) (cycles : Word), cycles.toInt ≤ 0 →
    exec (.clear cycles) s = .next { s with
      opl := { s.opl with cycles := cycles }, busy := false, todo := [], waited := 0, raced := [] }

/-- R230: CLEAR with cycles ≥ 1, left alone, emits a dark and a white frame of every row with their settles, `cycles`
times; ROWBUF1 then holds ones in its transmitted bytes. -/
def Obligations.ClearCompletes : Prop :=
  ∀ (s : State) (cycles : Word),
    let es := clearEvents s.dmask s.height.toNat s.rowLen1 cycles.toInt.toNat s.cr
    s.Inv → s.Quiet → s.fstate = .idle → 1 ≤ cycles.toInt →
    ∃ t, exec (.clear cycles) s = .next t ∧
      t.RunsTo es.length { s.emitAll es with
        opl := { s.opl with cycles := cycles }
        cr := crAfterFrame s.cr
        rowbuf1 := overwrite s.rowLen1 (fun _ => 0xFF#8) s.rowbuf1
        row := 0#10, busy := false, todo := [], waited := 0, raced := [] }

/-- R231: the duration and the event count of CLEAR. -/
def Obligations.ClearSize : Prop :=
  ∀ (dmask : Byte) (h len c : Nat) (cr : BitVec 8),
    duration (clearEvents dmask h len c cr) = c * 2 * (1038 + 62 * h + 20000) ∧
    (clearEvents dmask h len c cr).length = c * 2 * (180 + h * (60 + len * (popcount dmask + 2)) + 1)

/-! ## Grayscale engine (spec/45_grayscale_engine.md) -/

/-- R257: the LUT after resetLUT and carve, entry by entry, whatever it held before. -/
def Obligations.LutClosedForm : Prop :=
  ∀ (s : State) (m : BitVec 2) (level i : Nat), i < 4096 →
    entry (carve level (resetLut m s)).lut i =
      lutBase m &&& ~~~(if i % 16 = level then 0x03#8 else 0x00#8)
        &&& ~~~(if i / 16 % 16 = level then 0x0C#8 else 0x00#8)

/-- R265: the bytes Lookup makes of a composed row, in closed form over the pixels. -/
def Obligations.OutputByteClosedForm : Prop :=
  ∀ (s t : State) (R : Rect) (p r j : Nat), s.width.toNat ≤ Config.maxWidth →
    compose4 R r (carve (carveLevel p s.opl.mode) (resetLut s.opl.mode s)) = .ok t → j < s.rowLenOut →
    entry (lookup t).outbuf j = s.grayByte R p r j

/-- R259: of the four columns an output byte consumes, 4j+2 and 4j+3 never affect it. -/
def Obligations.UpperColumnsNeverMatter : Prop :=
  ∀ (s s' : State) (m : BitVec 2) (level j : Nat), s.width.toNat ≤ Config.maxWidth → s'.width = s.width →
    s.lut = (carve level (resetLut m s)).lut → s'.lut = s.lut → j < s.rowLenOut →
    entry s.rowbuf4 (2 * j) = entry s'.rowbuf4 (2 * j) →
    entry (lookup s).outbuf j = entry (lookup s').outbuf j

/-- R269: which pass carves a pixel of value v: in the non-inverted modes 0 and 3, 0 in none and v ≥ 1 in pass 15 − v
only; in the inverted modes 1 and 2, 15 in none and v ≤ 14 in pass v only. R102: the LUT's base of each mode. -/
def Obligations.PassThatCarves : Prop :=
  ∀ (m : BitVec 2) (v p : Nat), v < 16 → p < 15 →
    ((m = 0#2 ∨ m = 3#2) → inverted m = false ∧ lutBase m = 0x55#8 ∧ (carveLevel p m = v ↔ 1 ≤ v ∧ p = 15 - v)) ∧
    ((m = 1#2 ∨ m = 2#2) → inverted m = true ∧ lutBase m = 0xAA#8 ∧ (carveLevel p m = v ↔ v ≤ 14 ∧ p = v))

/-- R253, R267, R294: a DRAW_GRAY whose rectangle is EMPTY is over at once, with no event and no error. -/
def Obligations.EmptyDrawGrayIsNoOp : Prop :=
  ∀ (s : State) (x y w h src mode : Word),
    grayRect s.grayPolicy s.width.toNat s.height.toNat x.toInt y.toInt w.toInt h.toInt = none →
    exec (.drawGray x y w h src mode) s = .next { s with
      opl := { s.opl with x := x, y := y, w := w, h := h, src := src, mode := mode.setWidth 2 },
      busy := false, todo := [], waited := 0, raced := [] }

/-- R264, R266, R267: a DRAW_GRAY of a non-EMPTY rectangle whose bytes are all admitted, left alone, emits its 15
passes, each a frame whose data rows are the bytes of R265 at the pass's contrast time, and a 5 ms settle, in one step
for each event and for each data row's reads. That ROWBUF4 then holds the last row in all its bytes is the model's
choice of an OUTBUF of its own (log 28): R45 lets an implementation place OUTBUF over ROWBUF4. -/
def Obligations.DrawGrayCompletes : Prop :=
  ∀ (s : State) (x y w h src mode : Word) (R : Rect),
    let o : OperandLatch := { s.opl with x := x, y := y, w := w, h := h, src := src, mode := mode.setWidth 2 }
    let s₁ : State := { s with opl := o, raced := [] }
    let es := grayEvents s₁ R 15 0 s.cr
    let last := R.ye.toNat - 1
    s.Inv → s.Quiet → s.fstate = .idle → s₁.rect4 = some R →
    (∀ r, R.hasRow r = true → s₁.rowAdmitted4 R r = true) →
    ∃ t, exec (.drawGray x y w h src mode) s = .next t ∧
      t.RunsTo (es.length + 15 * (R.ye - R.ys).toNat) { s₁.emitAll es with
        cr := crAfterFrame s.cr
        rowbuf4 := overwrite s.rowLen4 (s₁.rowByte4 R last) s.rowbuf4
        outbuf := overwrite s.rowLenOut (s₁.grayByte R 14 last) s.outbuf
        lut := (carve (carveLevel 14 o.mode) (resetLut o.mode s₁)).lut
        raceTick := s.raceTick + 15 * (R.ye - R.ys).toNat
        row := 0#10, busy := false, todo := [], waited := 0 }

/-- R321, R323: if the bytes of the first data row that is not admitted are those of row r, and the platform's answers
stay as they are, DRAW_GRAY stops before row r of pass 0, as DRAW_1BPP does, with the pass's LUT made: that SRC_ADMIT, a
parameter of R8, stays until the schedule changes it, and so pass 0, is the model's choice (log 5). In whatever pass a
data row is about to be read, if the platform then stops admitting its bytes, the core's next move takes the fault, with
ROWBUF4 as the row's reads leave it (R262; log 16) and everything else, OUTBUF among it (log 28), as the event before
left it. -/
def Obligations.DrawGraySourceFault : Prop :=
  (∀ (s : State) (x y w h src mode : Word) (R : Rect) (r : Nat),
    let o : OperandLatch := { s.opl with x := x, y := y, w := w, h := h, src := src, mode := mode.setWidth 2 }
    let s₁ : State := { s with opl := o, raced := [] }
    let row := fun q => if R.hasRow q then
        outputRowEvents s.dmask (crInFrame s.cr) (s₁.sentBytes4 R 0 q) (contrastTime o.mode 0)
      else skipRowEvents
    let es := startFrameEvents s.cr ++ (List.range r).flatMap row
    s.Inv → s.Quiet → s.fstate = .idle → s.latchEnable = false → s₁.rect4 = some R →
    R.hasRow r = true → s₁.rowAdmitted4 R r = false →
    (∀ q < r, R.hasRow q = true → s₁.rowAdmitted4 R q = true) →
    ∃ t u, exec (.drawGray x y w h src mode) s = .next t ∧ t.RunsTo (es.length + ((List.range r).filter R.hasRow).length + 1) u ∧
      u.trace = s.trace ++ es ∧ u.pins = s.pins.afterAll es ∧ u.cr = crInFrame s.cr ∧ u.fstate = .active ∧
      u.row = BitVec.ofNat 10 r ∧ u.todo = [] ∧ u.err = true ∧ u.halted = true ∧
      u.errCode = (if s.errCode = .none then .srcFault else s.errCode) ∧ u.src = s.src ∧ u.rsp = s.rsp ∧
      u.lut = (carve (carveLevel 0 o.mode) (resetLut o.mode s₁)).lut) ∧
  (∀ (s : State) (R : Rect) (r : Nat) (regions : List Region) (rest : List MicroOp) (acts : List PortAct),
    s.busy = true → s.stopReq = false → s.pending = none → s.inbox = .memOk regions :: .core :: acts →
    s.todo = .silent (.compose4 R r) :: rest → State.rowAdmitted4 { s with srcAdmit := regions } R r = false →
    let t := halfCompose (.compose4 R r) { s with srcAdmit := regions, inbox := acts, raceTick := s.raceTick + 1 }
    Host.Core.run core 2 s = .next { t with
      err := true, errCode := (if s.errCode = .none then .srcFault else s.errCode), halted := true
      busy := false, todo := [], waited := 0 })

/-- R268: the duration and the event count of DRAW_GRAY; the contrast tables sum to 1020, or 550 in mode 2.
R47, R252: the table of each mode, pass by pass. -/
def Obligations.DrawGraySize : Prop :=
  ∀ (s : State) (R : Rect) (cr : BitVec 8),
    let h := s.height.toNat
    let d := ((List.range h).filter R.hasRow).length
    (∀ m : BitVec 2, (List.range 15).map (contrastTime m) =
      if m = 2#2 then [10, 10, 8, 8, 8, 8, 8, 10, 10, 15, 15, 20, 20, 100, 300]
      else [30, 30, 20, 20, 30, 30, 30, 40, 40, 50, 50, 50, 100, 200, 300]) ∧
    duration (grayEvents s R 15 0 cr) =
      90570 + 750 * (h - d) + 780 * d + d * (if s.opl.mode = 2#2 then 550 else 1020) ∧
    (grayEvents s R 15 0 cr).length =
      15 * (180 + 4 * (h - d) + d * (60 + s.rowLenOut * (popcount s.dmask + 2)) + 1)

/-! ## Host interface (spec/46_host_interface.md) -/

/-- R291: a step that takes the last word of a packet runs the decoded command. -/
def Obligations.StepRunsDecodedPacket : Prop :=
  ∀ (s : State) (w : Word) (rest : List PortAct) (i : Instr) (more : List Word),
    s.Listening → s.halted = false → s.inbox = .word w :: rest → decode (s.packet ++ [w]) = .accept i more →
    s.cmdReady = true ∧ step s = exec i { s with inbox := rest, packet := more }

/-- R96: a word that does not yet complete a packet is kept with the decoder, and nothing else happens. -/
def Obligations.PartialPacketIsKept : Prop :=
  ∀ (s : State) (w : Word) (rest : List PortAct),
    s.Listening → s.inbox = .word w :: rest → decode (s.packet ++ [w]) = .incomplete →
    step s = .next { s with inbox := rest, packet := s.packet ++ [w] }

/-- R292, R293: while a command runs and PENDING is empty, POWER_OFF_ALL's word asks for preemption and any other word,
POWER_OFF_ALL's opcode with reserved bits set among them, is held in PENDING; while PENDING holds a word no other is
taken. That the request is kept until its point is the model's choice (log 3), and so is that a halted core which runs
POWER_OFF_ALL follows R292 here and not the CMD_READY of R326 (log 27). -/
def Obligations.BusyPortHoldsOneWord : Prop :=
  ∀ (s : State) (w : Word) (rest : List PortAct), s.busy = true → s.rst = false → s.inbox = .word w :: rest →
    (s.pending = none → s.cmdReady = true ∧ step s = .next (if w = 0x00000003#32
      then { s with inbox := rest, stopReq := true } else { s with inbox := rest, pending := some w })) ∧
    (s.pending ≠ none → s.cmdReady = false ∧ ∀ t, step s = .next t → t.inbox = s.inbox)

/-- R292, R321, R326: when BUSY falls, a held word is decoded as word 0 of the next packet, and dropped by a halted core
unless it is POWER_OFF_ALL. BUSY falls with the last event of the running command and the silent positions after it, and
with a fault of a row's reads. It is said for an empty schedule: nothing else waits at the port, and the core moves.
The fault leaves the row buffer as the row's reads do (R223, R262; log 16), and OUTBUF alone (log 28). That the word is
decoded in the same step is the model's choice (log 23). -/
def Obligations.HeldWordDecodedWhenBusyFalls : Prop :=
  ∀ (s t : State) (w : Word), s.busy = true → s.rst = false → s.stopReq = false → s.inbox = [] → s.packet = [] →
    s.pending = some w →
    ((∃ d silents, s.todo = .drive d :: silents ∧ (∀ op ∈ silents, ∃ i : Silent, op = .silent i ∧ i.reads = false) ∧
        t = { settle silents { s.emit (d.event s) with waited := 0 } with busy := false, pending := none }) ∨
      (∃ i rest, s.todo = .silent i :: rest ∧ i.reads = true ∧ s.readsAdmitted = false ∧
        t = { halfCompose i { s with raceTick := s.raceTick + 1 } with
          err := true, errCode := (if s.errCode = .none then .srcFault else s.errCode), halted := true
          busy := false, todo := [], waited := 0, pending := none })) →
    (decode [w] = .incomplete → step s = .next { t with packet := [w] }) ∧
    (∀ i, decode [w] = .accept i [] → step s = if t.halted = true ∧ i ≠ .powerOffAll then .next t else exec i t) ∧
    (∀ e, decode [w] = .refuse e [] → step s = .next (if t.halted then t else takeRefusal (refusalCode e) t))

/-- R296, R297, R292, R322, R326: a preemption that is taken cuts the running command short, records a Wait in progress
truncated, and runs POWER_OFF_ALL to its end; the lines keep the levels the cut left but for the Push of 0x00, no error
is recorded, and a held word is decoded at the end. With nothing scheduled the point is the first one after the
transfer, the model's default (log 3); the act stopPoint takes it at any later one. That the held word is decoded in the
very step in which BUSY falls is the model's choice (log 23). -/
def Obligations.PreemptionRunsPowerOffAll : Prop :=
  ∀ (s : State) (acts : List PortAct), s.rst = false → s.busy = true → s.stopReq = true → headMoves s.todo = true →
    s.readsAdmitted = true → (s.inbox = [] ∧ acts = [] ∨ s.inbox = .stopPoint :: acts) →
    let cut := if 0 < s.waited then [Event.wait s.waited] else []
    let u : State := { s.emitAll (cut ++ pushEvents 0x00#8) with
      cr := 0x00#8, fstate := .idle, row := 0#10, busy := false, todo := [], waited := 0, stopReq := false,
      raced := [], pending := none, inbox := [] }
    ∃ t, step s = .next t ∧ t.trace = s.trace ++ cut ∧ t.cr = 0x00#8 ∧ t.busy = true ∧ t.pending = s.pending ∧
      t.inbox = acts ∧
      (acts = [] → s.pending = none → t.RunsTo 26 u) ∧
      (∀ w, acts = [] → s.pending = some w → s.packet = [] →
        (∀ k < 26, ∃ v, Host.Core.run core k t = .next v ∧ v.busy = true) ∧
        (decode [w] = .incomplete → Host.Core.run core 26 t = .next { u with packet := [w] }) ∧
        (∀ i, decode [w] = .accept i [] →
          Host.Core.run core 26 t = if u.halted = true ∧ i ≠ .powerOffAll then .next u else exec i u) ∧
        (∀ e, decode [w] = .refuse e [] →
          Host.Core.run core 26 t = .next (if u.halted then u else takeRefusal (refusalCode e) u)))

/-- R325 (d): when a preemption and a SRC_FAULT fall at the same point, in DRAW_1BPP or in DRAW_GRAY, the fault is taken
first, with the row buffer as the row's reads leave it (R223, R262; log 16) and OUTBUF as it was (log 28), and
POWER_OFF_ALL then runs on the halted core. That it starts in the same step is the model's choice (log 22). -/
def Obligations.SourceFaultBeforePreemption : Prop :=
  ∀ (s : State) (i : Silent) (rest : List MicroOp) (acts : List PortAct),
    s.busy = true → s.stopReq = true → s.todo = .silent i :: rest → i.reads = true → s.readsAdmitted = false →
    (s.inbox = .core :: acts ∨ s.inbox = .stopPoint :: acts ∨ s.inbox = [] ∧ acts = []) →
    step s = .next { halfCompose i { s with inbox := acts, raceTick := s.raceTick + 1 } with
      err := true, errCode := (if s.errCode = .none then .srcFault else s.errCode), halted := true
      cr := 0x00#8, fstate := .idle, row := 0#10, busy := true, todo := push, waited := 0, stopReq := false, raced := [] }

/-- R36, R296 (b): microseconds that do not reach the end of the Wait in progress only move the position inside it;
those that do perform it, once, whole. -/
def Obligations.TimePassesInsideWait : Prop :=
  ∀ (s : State) (n us : Nat) (rest : List MicroOp) (acts : List PortAct),
    s.busy = true → s.stopReq = false → s.pending = none → s.inbox = .time us :: acts →
    s.todo = .drive (.wait n) :: rest →
    (s.waited + us < n → step s = .next { s with inbox := acts, waited := s.waited + us }) ∧
    (n ≤ s.waited + us → ∃ t, step s = .next t ∧ t.trace = s.trace ++ [.wait n] ∧ t.pins = s.pins)

/-- R116, R298, R299: GET_WIDTH and GET_HEIGHT put the zero-extended dimension into RSP, set RSP_VALID and change
nothing else; bits [31:10] of the response are 0. -/
def Obligations.GetDimensionResponds : Prop :=
  ∀ s : State,
    exec .getWidth s = .next { s with rsp := s.width.setWidth 32, rspValid := true } ∧
    exec .getHeight s = .next { s with rsp := s.height.setWidth 32, rspValid := true } ∧
    (s.width.setWidth 32 : Word) >>> 10 = 0#32 ∧ (s.height.setWidth 32 : Word) >>> 10 = 0#32

/-- R300: RSP_ACK clears RSP_VALID and keeps RSP; no step loses a valid response but RSP_ACK and reset. Reset is RST's
release (R350): that a response stays, and can still be acknowledged, while RST is asserted is the model's choice
(log 13). -/
def Obligations.ResponseKeptUntilAcknowledged : Prop :=
  ∀ (s t : State), step s = .next t →
    (∀ rest, s.inbox = .ack :: rest → t = { s with inbox := rest, rspValid := false }) ∧
    (s.rspValid = true → (∀ rest, s.inbox ≠ .ack :: rest) →
      (∀ rw rh dm rest, s.inbox ≠ .releaseRst rw rh dm :: rest) → t.rspValid = true)

/-- R48: the fields of the status word. R320: the numbers of the error codes. -/
def Obligations.StatusWordFields : Prop :=
  ∀ s : State,
    s.statusWord.extractLsb' 0 8 = s.cr ∧ s.statusWord.getLsbD 8 = s.busy ∧
    s.statusWord.getLsbD 9 = (s.fstate == .active) ∧ s.statusWord.getLsbD 10 = s.err ∧
    s.statusWord.getLsbD 11 = s.halted ∧ s.statusWord.extractLsb' 12 4 = s.errCode.bits ∧
    s.statusWord.extractLsb' 16 10 = s.row ∧ s.statusWord.extractLsb' 26 6 = 0#6 ∧
    ErrCode.none.bits = 0#4 ∧ ErrCode.illegalOpcode.bits = 1#4 ∧ ErrCode.reservedBits.bits = 2#4 ∧
    ErrCode.srcFault.bits = 3#4 ∧ ErrCode.fsmFault.bits = 4#4

/-! ## Errors (spec/60_exceptions.md) -/

/-- R322: a refused packet is consumed and records its code; OPL, the trace, the memory, BUSY and HALTED stay, and the
port is ready for the next packet. -/
def Obligations.RefusalRecordsErrorOnly : Prop :=
  ∀ (s : State) (w : Word) (rest : List PortAct) (e : DecodeError) (more : List Word),
    s.Listening → s.halted = false → s.inbox = .word w :: rest → decode (s.packet ++ [w]) = .refuse e more →
    ∃ t, step s = .next t ∧ t.cmdReady = true ∧
      t = { s with
        inbox := rest, packet := more, err := true,
        errCode := if s.errCode = .none then refusalCode e else s.errCode }

/-- R326: while HALTED = 1, packets are still framed; POWER_OFF_ALL runs, and any other packet, accepted or refused, is
dropped with no other effect. -/
def Obligations.HaltedCoreDropsOthers : Prop :=
  ∀ (s : State) (w : Word) (rest : List PortAct),
    s.Listening → s.halted = true → s.inbox = .word w :: rest →
    s.cmdReady = true ∧
    (∀ more, decode (s.packet ++ [w]) = .accept .powerOffAll more →
      step s = exec .powerOffAll { s with inbox := rest, packet := more }) ∧
    (∀ i more, decode (s.packet ++ [w]) = .accept i more → i ≠ .powerOffAll →
      step s = .next { s with inbox := rest, packet := more }) ∧
    (∀ e more, decode (s.packet ++ [w]) = .refuse e more → step s = .next { s with inbox := rest, packet := more })

/-- R49: ERR, ERR_CODE and HALTED are sticky: no step but reset clears them or changes the first code. R40, R41: no
other step changes DMASK, WIDTH or HEIGHT either. Reset is RST's release, at which R350 writes these registers: that
they keep their values in the step that asserts RST and while it is asserted is the model's choice (log 13), for STATUS
is not fixed then. -/
def Obligations.ErrorsAreSticky : Prop :=
  ∀ (s t : State), step s = .next t → (∀ rw rh dm rest, s.inbox ≠ .releaseRst rw rh dm :: rest) →
    (s.err = true → t.err = true) ∧ (s.errCode ≠ .none → t.errCode = s.errCode) ∧ (s.halted = true → t.halted = true) ∧
    t.width = s.width ∧ t.height = s.height ∧ t.dmask = s.dmask

/-- R96, R98-R100, R320, R326, R327: nothing stops the machine: every state has a next one, whatever is presented. -/
def Obligations.EveryStepAnswersNext : Prop := ∀ s : State, ∃ t, step s = .next t

/-! ## Reset and the state as a whole (spec/10_state.md, spec/70_reset_and_hazards.md) -/

/-- R41: a requested dimension that is at most 0 or over the maximum gives the maximum; any other is kept. -/
def Obligations.DimensionsClamped : Prop :=
  ∀ req : Word,
    ((clampDim 960 req).toNat : Int) = (if req.toInt ≤ 0 ∨ 960 < req.toInt then 960 else req.toInt) ∧
    ((clampDim 540 req).toNat : Int) = (if req.toInt ≤ 0 ∨ 540 < req.toInt then 540 else req.toInt)

/-- R350, R55: releasing RST leaves the values the spec gives for reset, whatever the core was doing. -/
def Obligations.ResetValues : Prop :=
  ∀ (s : State) (reqW reqH : Word) (dmaskIn : Byte) (rest : List PortAct), s.rst = true →
    s.inbox = .releaseRst reqW reqH dmaskIn :: rest →
    ∃ t, step s = .next t ∧ t.dmask = dmaskIn ∧ t.width = clampDim 960 reqW ∧ t.height = clampDim 540 reqH ∧
      t.cr = 0x00#8 ∧ t.fstate = .idle ∧ t.row = 0#10 ∧ t.busy = false ∧ t.err = false ∧ t.halted = false ∧
      t.errCode = .none ∧ t.rspValid = false ∧ t.pending = none ∧ t.packet = [] ∧ t.todo = [] ∧
      (∀ p, t.pins.get p = .x) ∧ t.cmdReady = true ∧ t.statusWord = 0#32

/-- R350: while RST is asserted the core emits nothing, takes no word and is not busy; asserting it stops a running
command at once with no further event. That the lines keep their levels until the release is the model's choice
(log 13). -/
def Obligations.ResetAssertedIsSilent : Prop :=
  ∀ (s t : State), s.Inv → step s = .next t →
    (∀ rest, s.inbox = .assertRst :: rest → t.rst = true ∧ t.busy = false ∧ t.trace = s.trace ∧ t.pins = s.pins) ∧
    (s.rst = true → s.cmdReady = false ∧ s.busy = false ∧ t.busy = false ∧ t.packet.length ≤ s.packet.length ∧
      ((∀ rw rh dm rest, s.inbox ≠ .releaseRst rw rh dm :: rest) →
        t.rst = true ∧ t.trace = s.trace ∧ t.pins = s.pins))

/-- R12, R36, R39: a step appends at most one event to the trace, and the lines change by that event only; RST's release
begins a new trace. The step size is the model's choice (log 1). -/
def Obligations.StepEmitsAtMostOneEvent : Prop :=
  ∀ (s t : State), step s = .next t → (∀ rw rh dm rest, s.inbox ≠ .releaseRst rw rh dm :: rest) →
    ∃ es, es.length ≤ 1 ∧ t.trace = s.trace ++ es ∧ t.pins = s.pins.afterAll es

/-- R39: the lines always stand where the events since reset have left them. -/
def Obligations.StepKeepsLinesReplay : Prop :=
  ∀ (s t : State), s.LinesReplay → step s = .next t → t.LinesReplay

/-- The state after reset has the invariant, is safe for frames and for LE, and its lines stand as its empty trace
says. It rests on the values named in log 4 to 9. -/
def Obligations.ResetIsSafe : Prop :=
  State.reset.Inv ∧ State.reset.FrameSafe ∧ State.reset.LatchSafe ∧ State.reset.LinesReplay

/-- R37-R42, R49, R89, R152, R292: every step keeps the invariant of the state. -/
def Obligations.StepKeepsInvariant : Prop :=
  ∀ (s t : State), s.Inv → step s = .next t → t.Inv
end

