-- ==== Sys2Proof/Laws/State.lean ====
section
/-! SUPPORT. One lemma per field per named update of State, all by rfl, so that no proof unfolds an update. -/

namespace Sys2Proof.Machine

section
variable (e : Event) (s : State)

@[simp] theorem emit_cr : (s.emit e).cr = s.cr := rfl
@[simp] theorem emit_opl : (s.emit e).opl = s.opl := rfl
@[simp] theorem emit_pins : (s.emit e).pins = s.pins.after e := rfl
@[simp] theorem emit_dmask : (s.emit e).dmask = s.dmask := rfl
@[simp] theorem emit_width : (s.emit e).width = s.width := rfl
@[simp] theorem emit_height : (s.emit e).height = s.height := rfl
@[simp] theorem emit_fstate : (s.emit e).fstate = s.fstate := rfl
@[simp] theorem emit_row : (s.emit e).row = s.row := rfl
@[simp] theorem emit_rowbuf1 : (s.emit e).rowbuf1 = s.rowbuf1 := rfl
@[simp] theorem emit_rowbuf4 : (s.emit e).rowbuf4 = s.rowbuf4 := rfl
@[simp] theorem emit_outbuf : (s.emit e).outbuf = s.outbuf := rfl
@[simp] theorem emit_lut : (s.emit e).lut = s.lut := rfl
@[simp] theorem emit_busy : (s.emit e).busy = s.busy := rfl
@[simp] theorem emit_err : (s.emit e).err = s.err := rfl
@[simp] theorem emit_errCode : (s.emit e).errCode = s.errCode := rfl
@[simp] theorem emit_halted : (s.emit e).halted = s.halted := rfl
@[simp] theorem emit_rsp : (s.emit e).rsp = s.rsp := rfl
@[simp] theorem emit_rspValid : (s.emit e).rspValid = s.rspValid := rfl
@[simp] theorem emit_pending : (s.emit e).pending = s.pending := rfl
@[simp] theorem emit_packet : (s.emit e).packet = s.packet := rfl
@[simp] theorem emit_todo : (s.emit e).todo = s.todo := rfl
@[simp] theorem emit_waited : (s.emit e).waited = s.waited := rfl
@[simp] theorem emit_rst : (s.emit e).rst = s.rst := rfl
@[simp] theorem emit_src : (s.emit e).src = s.src := rfl
@[simp] theorem emit_admit : (s.emit e).srcAdmit = s.srcAdmit := rfl
@[simp] theorem emit_grayPolicy : (s.emit e).grayPolicy = s.grayPolicy := rfl
@[simp] theorem emit_log : (s.emit e).log = e :: s.log := rfl
@[simp] theorem emit_stopReq : (s.emit e).stopReq = s.stopReq := rfl
@[simp] theorem emit_raced : (s.emit e).raced = s.raced := rfl
@[simp] theorem emit_raceTick : (s.emit e).raceTick = s.raceTick := rfl
@[simp] theorem emit_inbox : (s.emit e).inbox = s.inbox := rfl

end

section
variable (c : ErrCode) (s : State)

@[simp] theorem recordError_cr : (s.recordError c).cr = s.cr := rfl
@[simp] theorem recordError_opl : (s.recordError c).opl = s.opl := rfl
@[simp] theorem recordError_pins : (s.recordError c).pins = s.pins := rfl
@[simp] theorem recordError_dmask : (s.recordError c).dmask = s.dmask := rfl
@[simp] theorem recordError_width : (s.recordError c).width = s.width := rfl
@[simp] theorem recordError_height : (s.recordError c).height = s.height := rfl
@[simp] theorem recordError_fstate : (s.recordError c).fstate = s.fstate := rfl
@[simp] theorem recordError_row : (s.recordError c).row = s.row := rfl
@[simp] theorem recordError_rowbuf1 : (s.recordError c).rowbuf1 = s.rowbuf1 := rfl
@[simp] theorem recordError_rowbuf4 : (s.recordError c).rowbuf4 = s.rowbuf4 := rfl
@[simp] theorem recordError_outbuf : (s.recordError c).outbuf = s.outbuf := rfl
@[simp] theorem recordError_lut : (s.recordError c).lut = s.lut := rfl
@[simp] theorem recordError_busy : (s.recordError c).busy = s.busy := rfl
@[simp] theorem recordError_err : (s.recordError c).err = true := rfl
@[simp] theorem recordError_halted : (s.recordError c).halted = s.halted := rfl
@[simp] theorem recordError_rsp : (s.recordError c).rsp = s.rsp := rfl
@[simp] theorem recordError_rspValid : (s.recordError c).rspValid = s.rspValid := rfl
@[simp] theorem recordError_pending : (s.recordError c).pending = s.pending := rfl
@[simp] theorem recordError_packet : (s.recordError c).packet = s.packet := rfl
@[simp] theorem recordError_todo : (s.recordError c).todo = s.todo := rfl
@[simp] theorem recordError_waited : (s.recordError c).waited = s.waited := rfl
@[simp] theorem recordError_rst : (s.recordError c).rst = s.rst := rfl
@[simp] theorem recordError_src : (s.recordError c).src = s.src := rfl
@[simp] theorem recordError_admit : (s.recordError c).srcAdmit = s.srcAdmit := rfl
@[simp] theorem recordError_grayPolicy : (s.recordError c).grayPolicy = s.grayPolicy := rfl
@[simp] theorem recordError_log : (s.recordError c).log = s.log := rfl
@[simp] theorem recordError_stopReq : (s.recordError c).stopReq = s.stopReq := rfl
@[simp] theorem recordError_raced : (s.recordError c).raced = s.raced := rfl
@[simp] theorem recordError_raceTick : (s.recordError c).raceTick = s.raceTick := rfl
@[simp] theorem recordError_inbox : (s.recordError c).inbox = s.inbox := rfl

end

section
variable (c : ErrCode) (s : State)

@[simp] theorem takeHaltingFault_cr : (takeHaltingFault c s).cr = s.cr := rfl
@[simp] theorem takeHaltingFault_opl : (takeHaltingFault c s).opl = s.opl := rfl
@[simp] theorem takeHaltingFault_pins : (takeHaltingFault c s).pins = s.pins := rfl
@[simp] theorem takeHaltingFault_dmask : (takeHaltingFault c s).dmask = s.dmask := rfl
@[simp] theorem takeHaltingFault_width : (takeHaltingFault c s).width = s.width := rfl
@[simp] theorem takeHaltingFault_height : (takeHaltingFault c s).height = s.height := rfl
@[simp] theorem takeHaltingFault_fstate : (takeHaltingFault c s).fstate = s.fstate := rfl
@[simp] theorem takeHaltingFault_row : (takeHaltingFault c s).row = s.row := rfl
@[simp] theorem takeHaltingFault_rowbuf1 : (takeHaltingFault c s).rowbuf1 = s.rowbuf1 := rfl
@[simp] theorem takeHaltingFault_rowbuf4 : (takeHaltingFault c s).rowbuf4 = s.rowbuf4 := rfl
@[simp] theorem takeHaltingFault_outbuf : (takeHaltingFault c s).outbuf = s.outbuf := rfl
@[simp] theorem takeHaltingFault_lut : (takeHaltingFault c s).lut = s.lut := rfl
@[simp] theorem takeHaltingFault_busy : (takeHaltingFault c s).busy = false := rfl
@[simp] theorem takeHaltingFault_err : (takeHaltingFault c s).err = true := rfl
@[simp] theorem takeHaltingFault_halted : (takeHaltingFault c s).halted = true := rfl
@[simp] theorem takeHaltingFault_rsp : (takeHaltingFault c s).rsp = s.rsp := rfl
@[simp] theorem takeHaltingFault_rspValid : (takeHaltingFault c s).rspValid = s.rspValid := rfl
@[simp] theorem takeHaltingFault_pending : (takeHaltingFault c s).pending = s.pending := rfl
@[simp] theorem takeHaltingFault_packet : (takeHaltingFault c s).packet = s.packet := rfl
@[simp] theorem takeHaltingFault_todo : (takeHaltingFault c s).todo = [] := rfl
@[simp] theorem takeHaltingFault_waited : (takeHaltingFault c s).waited = 0 := rfl
@[simp] theorem takeHaltingFault_rst : (takeHaltingFault c s).rst = s.rst := rfl
@[simp] theorem takeHaltingFault_src : (takeHaltingFault c s).src = s.src := rfl
@[simp] theorem takeHaltingFault_admit : (takeHaltingFault c s).srcAdmit = s.srcAdmit := rfl
@[simp] theorem takeHaltingFault_grayPolicy : (takeHaltingFault c s).grayPolicy = s.grayPolicy := rfl
@[simp] theorem takeHaltingFault_log : (takeHaltingFault c s).log = s.log := rfl
@[simp] theorem takeHaltingFault_stopReq : (takeHaltingFault c s).stopReq = s.stopReq := rfl
@[simp] theorem takeHaltingFault_raced : (takeHaltingFault c s).raced = s.raced := rfl
@[simp] theorem takeHaltingFault_raceTick : (takeHaltingFault c s).raceTick = s.raceTick := rfl
@[simp] theorem takeHaltingFault_inbox : (takeHaltingFault c s).inbox = s.inbox := rfl

end

section
variable (i : Silent) (R : Rect) (r : Nat) (s : State)

@[simp] theorem halfCompose_cr : (halfCompose i s).cr = s.cr := by cases i <;> rfl
@[simp] theorem halfCompose_opl : (halfCompose i s).opl = s.opl := by cases i <;> rfl
@[simp] theorem halfCompose_pins : (halfCompose i s).pins = s.pins := by cases i <;> rfl
@[simp] theorem halfCompose_dmask : (halfCompose i s).dmask = s.dmask := by cases i <;> rfl
@[simp] theorem halfCompose_width : (halfCompose i s).width = s.width := by cases i <;> rfl
@[simp] theorem halfCompose_height : (halfCompose i s).height = s.height := by cases i <;> rfl
@[simp] theorem halfCompose_fstate : (halfCompose i s).fstate = s.fstate := by cases i <;> rfl
@[simp] theorem halfCompose_row : (halfCompose i s).row = s.row := by cases i <;> rfl
@[simp] theorem halfCompose_outbuf : (halfCompose i s).outbuf = s.outbuf := by cases i <;> rfl
@[simp] theorem halfCompose_lut : (halfCompose i s).lut = s.lut := by cases i <;> rfl
@[simp] theorem halfCompose_busy : (halfCompose i s).busy = s.busy := by cases i <;> rfl
@[simp] theorem halfCompose_err : (halfCompose i s).err = s.err := by cases i <;> rfl
@[simp] theorem halfCompose_errCode : (halfCompose i s).errCode = s.errCode := by cases i <;> rfl
@[simp] theorem halfCompose_halted : (halfCompose i s).halted = s.halted := by cases i <;> rfl
@[simp] theorem halfCompose_rsp : (halfCompose i s).rsp = s.rsp := by cases i <;> rfl
@[simp] theorem halfCompose_rspValid : (halfCompose i s).rspValid = s.rspValid := by cases i <;> rfl
@[simp] theorem halfCompose_pending : (halfCompose i s).pending = s.pending := by cases i <;> rfl
@[simp] theorem halfCompose_packet : (halfCompose i s).packet = s.packet := by cases i <;> rfl
@[simp] theorem halfCompose_todo : (halfCompose i s).todo = s.todo := by cases i <;> rfl
@[simp] theorem halfCompose_waited : (halfCompose i s).waited = s.waited := by cases i <;> rfl
@[simp] theorem halfCompose_rst : (halfCompose i s).rst = s.rst := by cases i <;> rfl
@[simp] theorem halfCompose_src : (halfCompose i s).src = s.src := by cases i <;> rfl
@[simp] theorem halfCompose_admit : (halfCompose i s).srcAdmit = s.srcAdmit := by cases i <;> rfl
@[simp] theorem halfCompose_grayPolicy : (halfCompose i s).grayPolicy = s.grayPolicy := by cases i <;> rfl
@[simp] theorem halfCompose_log : (halfCompose i s).log = s.log := by cases i <;> rfl
@[simp] theorem halfCompose_stopReq : (halfCompose i s).stopReq = s.stopReq := by cases i <;> rfl
@[simp] theorem halfCompose_raced : (halfCompose i s).raced = s.raced := by cases i <;> rfl
@[simp] theorem halfCompose_raceTick : (halfCompose i s).raceTick = s.raceTick := by cases i <;> rfl
@[simp] theorem halfCompose_inbox : (halfCompose i s).inbox = s.inbox := by cases i <;> rfl
@[simp] theorem halfCompose_compose1_rowbuf1 : (halfCompose (.compose1 R r) s).rowbuf1 =
    overwrite s.rowLen1 (s.faultByte1 R r) s.rowbuf1 := rfl
@[simp] theorem halfCompose_compose1_rowbuf4 : (halfCompose (.compose1 R r) s).rowbuf4 = s.rowbuf4 := rfl
@[simp] theorem halfCompose_compose4_rowbuf4 : (halfCompose (.compose4 R r) s).rowbuf4 =
    overwrite s.rowLen4 (s.faultByte4 R r) s.rowbuf4 := rfl
@[simp] theorem halfCompose_compose4_rowbuf1 : (halfCompose (.compose4 R r) s).rowbuf1 = s.rowbuf1 := rfl

end

section
variable (s : State)

@[simp] theorem dropFrame_cr : (dropFrame s).cr = s.cr := rfl
@[simp] theorem dropFrame_opl : (dropFrame s).opl = s.opl := rfl
@[simp] theorem dropFrame_pins : (dropFrame s).pins = s.pins := rfl
@[simp] theorem dropFrame_dmask : (dropFrame s).dmask = s.dmask := rfl
@[simp] theorem dropFrame_width : (dropFrame s).width = s.width := rfl
@[simp] theorem dropFrame_height : (dropFrame s).height = s.height := rfl
@[simp] theorem dropFrame_fstate : (dropFrame s).fstate = .idle := rfl
@[simp] theorem dropFrame_row : (dropFrame s).row = 0#10 := rfl
@[simp] theorem dropFrame_rowbuf1 : (dropFrame s).rowbuf1 = s.rowbuf1 := rfl
@[simp] theorem dropFrame_rowbuf4 : (dropFrame s).rowbuf4 = s.rowbuf4 := rfl
@[simp] theorem dropFrame_outbuf : (dropFrame s).outbuf = s.outbuf := rfl
@[simp] theorem dropFrame_lut : (dropFrame s).lut = s.lut := rfl
@[simp] theorem dropFrame_busy : (dropFrame s).busy = s.busy := rfl
@[simp] theorem dropFrame_err : (dropFrame s).err = s.err := rfl
@[simp] theorem dropFrame_errCode : (dropFrame s).errCode = s.errCode := rfl
@[simp] theorem dropFrame_halted : (dropFrame s).halted = s.halted := rfl
@[simp] theorem dropFrame_rsp : (dropFrame s).rsp = s.rsp := rfl
@[simp] theorem dropFrame_rspValid : (dropFrame s).rspValid = s.rspValid := rfl
@[simp] theorem dropFrame_pending : (dropFrame s).pending = s.pending := rfl
@[simp] theorem dropFrame_packet : (dropFrame s).packet = s.packet := rfl
@[simp] theorem dropFrame_todo : (dropFrame s).todo = s.todo := rfl
@[simp] theorem dropFrame_waited : (dropFrame s).waited = s.waited := rfl
@[simp] theorem dropFrame_rst : (dropFrame s).rst = s.rst := rfl
@[simp] theorem dropFrame_src : (dropFrame s).src = s.src := rfl
@[simp] theorem dropFrame_admit : (dropFrame s).srcAdmit = s.srcAdmit := rfl
@[simp] theorem dropFrame_grayPolicy : (dropFrame s).grayPolicy = s.grayPolicy := rfl
@[simp] theorem dropFrame_log : (dropFrame s).log = s.log := rfl
@[simp] theorem dropFrame_stopReq : (dropFrame s).stopReq = s.stopReq := rfl
@[simp] theorem dropFrame_raced : (dropFrame s).raced = s.raced := rfl
@[simp] theorem dropFrame_raceTick : (dropFrame s).raceTick = s.raceTick := rfl
@[simp] theorem dropFrame_inbox : (dropFrame s).inbox = s.inbox := rfl

end

section
variable (m : BitVec 2) (s : State)

@[simp] theorem resetLut_cr : (resetLut m s).cr = s.cr := rfl
@[simp] theorem resetLut_opl : (resetLut m s).opl = s.opl := rfl
@[simp] theorem resetLut_pins : (resetLut m s).pins = s.pins := rfl
@[simp] theorem resetLut_dmask : (resetLut m s).dmask = s.dmask := rfl
@[simp] theorem resetLut_width : (resetLut m s).width = s.width := rfl
@[simp] theorem resetLut_height : (resetLut m s).height = s.height := rfl
@[simp] theorem resetLut_fstate : (resetLut m s).fstate = s.fstate := rfl
@[simp] theorem resetLut_row : (resetLut m s).row = s.row := rfl
@[simp] theorem resetLut_rowbuf1 : (resetLut m s).rowbuf1 = s.rowbuf1 := rfl
@[simp] theorem resetLut_rowbuf4 : (resetLut m s).rowbuf4 = s.rowbuf4 := rfl
@[simp] theorem resetLut_outbuf : (resetLut m s).outbuf = s.outbuf := rfl
@[simp] theorem resetLut_busy : (resetLut m s).busy = s.busy := rfl
@[simp] theorem resetLut_err : (resetLut m s).err = s.err := rfl
@[simp] theorem resetLut_errCode : (resetLut m s).errCode = s.errCode := rfl
@[simp] theorem resetLut_halted : (resetLut m s).halted = s.halted := rfl
@[simp] theorem resetLut_rsp : (resetLut m s).rsp = s.rsp := rfl
@[simp] theorem resetLut_rspValid : (resetLut m s).rspValid = s.rspValid := rfl
@[simp] theorem resetLut_pending : (resetLut m s).pending = s.pending := rfl
@[simp] theorem resetLut_packet : (resetLut m s).packet = s.packet := rfl
@[simp] theorem resetLut_todo : (resetLut m s).todo = s.todo := rfl
@[simp] theorem resetLut_waited : (resetLut m s).waited = s.waited := rfl
@[simp] theorem resetLut_rst : (resetLut m s).rst = s.rst := rfl
@[simp] theorem resetLut_src : (resetLut m s).src = s.src := rfl
@[simp] theorem resetLut_admit : (resetLut m s).srcAdmit = s.srcAdmit := rfl
@[simp] theorem resetLut_grayPolicy : (resetLut m s).grayPolicy = s.grayPolicy := rfl
@[simp] theorem resetLut_log : (resetLut m s).log = s.log := rfl
@[simp] theorem resetLut_stopReq : (resetLut m s).stopReq = s.stopReq := rfl
@[simp] theorem resetLut_raced : (resetLut m s).raced = s.raced := rfl
@[simp] theorem resetLut_raceTick : (resetLut m s).raceTick = s.raceTick := rfl
@[simp] theorem resetLut_inbox : (resetLut m s).inbox = s.inbox := rfl

end

section
variable (l : Nat) (s : State)

@[simp] theorem carve_cr : (carve l s).cr = s.cr := rfl
@[simp] theorem carve_opl : (carve l s).opl = s.opl := rfl
@[simp] theorem carve_pins : (carve l s).pins = s.pins := rfl
@[simp] theorem carve_dmask : (carve l s).dmask = s.dmask := rfl
@[simp] theorem carve_width : (carve l s).width = s.width := rfl
@[simp] theorem carve_height : (carve l s).height = s.height := rfl
@[simp] theorem carve_fstate : (carve l s).fstate = s.fstate := rfl
@[simp] theorem carve_row : (carve l s).row = s.row := rfl
@[simp] theorem carve_rowbuf1 : (carve l s).rowbuf1 = s.rowbuf1 := rfl
@[simp] theorem carve_rowbuf4 : (carve l s).rowbuf4 = s.rowbuf4 := rfl
@[simp] theorem carve_outbuf : (carve l s).outbuf = s.outbuf := rfl
@[simp] theorem carve_busy : (carve l s).busy = s.busy := rfl
@[simp] theorem carve_err : (carve l s).err = s.err := rfl
@[simp] theorem carve_errCode : (carve l s).errCode = s.errCode := rfl
@[simp] theorem carve_halted : (carve l s).halted = s.halted := rfl
@[simp] theorem carve_rsp : (carve l s).rsp = s.rsp := rfl
@[simp] theorem carve_rspValid : (carve l s).rspValid = s.rspValid := rfl
@[simp] theorem carve_pending : (carve l s).pending = s.pending := rfl
@[simp] theorem carve_packet : (carve l s).packet = s.packet := rfl
@[simp] theorem carve_todo : (carve l s).todo = s.todo := rfl
@[simp] theorem carve_waited : (carve l s).waited = s.waited := rfl
@[simp] theorem carve_rst : (carve l s).rst = s.rst := rfl
@[simp] theorem carve_src : (carve l s).src = s.src := rfl
@[simp] theorem carve_admit : (carve l s).srcAdmit = s.srcAdmit := rfl
@[simp] theorem carve_grayPolicy : (carve l s).grayPolicy = s.grayPolicy := rfl
@[simp] theorem carve_log : (carve l s).log = s.log := rfl
@[simp] theorem carve_stopReq : (carve l s).stopReq = s.stopReq := rfl
@[simp] theorem carve_raced : (carve l s).raced = s.raced := rfl
@[simp] theorem carve_raceTick : (carve l s).raceTick = s.raceTick := rfl
@[simp] theorem carve_inbox : (carve l s).inbox = s.inbox := rfl

end

section
variable (s : State)

@[simp] theorem lookup_cr : (lookup s).cr = s.cr := rfl
@[simp] theorem lookup_opl : (lookup s).opl = s.opl := rfl
@[simp] theorem lookup_pins : (lookup s).pins = s.pins := rfl
@[simp] theorem lookup_dmask : (lookup s).dmask = s.dmask := rfl
@[simp] theorem lookup_width : (lookup s).width = s.width := rfl
@[simp] theorem lookup_height : (lookup s).height = s.height := rfl
@[simp] theorem lookup_fstate : (lookup s).fstate = s.fstate := rfl
@[simp] theorem lookup_row : (lookup s).row = s.row := rfl
@[simp] theorem lookup_rowbuf1 : (lookup s).rowbuf1 = s.rowbuf1 := rfl
@[simp] theorem lookup_rowbuf4 : (lookup s).rowbuf4 = s.rowbuf4 := rfl
@[simp] theorem lookup_lut : (lookup s).lut = s.lut := rfl
@[simp] theorem lookup_busy : (lookup s).busy = s.busy := rfl
@[simp] theorem lookup_err : (lookup s).err = s.err := rfl
@[simp] theorem lookup_errCode : (lookup s).errCode = s.errCode := rfl
@[simp] theorem lookup_halted : (lookup s).halted = s.halted := rfl
@[simp] theorem lookup_rsp : (lookup s).rsp = s.rsp := rfl
@[simp] theorem lookup_rspValid : (lookup s).rspValid = s.rspValid := rfl
@[simp] theorem lookup_pending : (lookup s).pending = s.pending := rfl
@[simp] theorem lookup_packet : (lookup s).packet = s.packet := rfl
@[simp] theorem lookup_todo : (lookup s).todo = s.todo := rfl
@[simp] theorem lookup_waited : (lookup s).waited = s.waited := rfl
@[simp] theorem lookup_rst : (lookup s).rst = s.rst := rfl
@[simp] theorem lookup_src : (lookup s).src = s.src := rfl
@[simp] theorem lookup_admit : (lookup s).srcAdmit = s.srcAdmit := rfl
@[simp] theorem lookup_grayPolicy : (lookup s).grayPolicy = s.grayPolicy := rfl
@[simp] theorem lookup_log : (lookup s).log = s.log := rfl
@[simp] theorem lookup_stopReq : (lookup s).stopReq = s.stopReq := rfl
@[simp] theorem lookup_raced : (lookup s).raced = s.raced := rfl
@[simp] theorem lookup_raceTick : (lookup s).raceTick = s.raceTick := rfl
@[simp] theorem lookup_inbox : (lookup s).inbox = s.inbox := rfl

end

section
variable (b : Byte) (s : State)

@[simp] theorem fillRow_cr : (fillRow b s).cr = s.cr := rfl
@[simp] theorem fillRow_opl : (fillRow b s).opl = s.opl := rfl
@[simp] theorem fillRow_pins : (fillRow b s).pins = s.pins := rfl
@[simp] theorem fillRow_dmask : (fillRow b s).dmask = s.dmask := rfl
@[simp] theorem fillRow_width : (fillRow b s).width = s.width := rfl
@[simp] theorem fillRow_height : (fillRow b s).height = s.height := rfl
@[simp] theorem fillRow_fstate : (fillRow b s).fstate = s.fstate := rfl
@[simp] theorem fillRow_row : (fillRow b s).row = s.row := rfl
@[simp] theorem fillRow_rowbuf4 : (fillRow b s).rowbuf4 = s.rowbuf4 := rfl
@[simp] theorem fillRow_outbuf : (fillRow b s).outbuf = s.outbuf := rfl
@[simp] theorem fillRow_lut : (fillRow b s).lut = s.lut := rfl
@[simp] theorem fillRow_busy : (fillRow b s).busy = s.busy := rfl
@[simp] theorem fillRow_err : (fillRow b s).err = s.err := rfl
@[simp] theorem fillRow_errCode : (fillRow b s).errCode = s.errCode := rfl
@[simp] theorem fillRow_halted : (fillRow b s).halted = s.halted := rfl
@[simp] theorem fillRow_rsp : (fillRow b s).rsp = s.rsp := rfl
@[simp] theorem fillRow_rspValid : (fillRow b s).rspValid = s.rspValid := rfl
@[simp] theorem fillRow_pending : (fillRow b s).pending = s.pending := rfl
@[simp] theorem fillRow_packet : (fillRow b s).packet = s.packet := rfl
@[simp] theorem fillRow_todo : (fillRow b s).todo = s.todo := rfl
@[simp] theorem fillRow_waited : (fillRow b s).waited = s.waited := rfl
@[simp] theorem fillRow_rst : (fillRow b s).rst = s.rst := rfl
@[simp] theorem fillRow_src : (fillRow b s).src = s.src := rfl
@[simp] theorem fillRow_admit : (fillRow b s).srcAdmit = s.srcAdmit := rfl
@[simp] theorem fillRow_grayPolicy : (fillRow b s).grayPolicy = s.grayPolicy := rfl
@[simp] theorem fillRow_log : (fillRow b s).log = s.log := rfl
@[simp] theorem fillRow_stopReq : (fillRow b s).stopReq = s.stopReq := rfl
@[simp] theorem fillRow_raced : (fillRow b s).raced = s.raced := rfl
@[simp] theorem fillRow_raceTick : (fillRow b s).raceTick = s.raceTick := rfl
@[simp] theorem fillRow_inbox : (fillRow b s).inbox = s.inbox := rfl

end

section
variable (v : BitVec 10) (s : State)

@[simp] theorem respond_cr : (respond v s).cr = s.cr := rfl
@[simp] theorem respond_opl : (respond v s).opl = s.opl := rfl
@[simp] theorem respond_pins : (respond v s).pins = s.pins := rfl
@[simp] theorem respond_dmask : (respond v s).dmask = s.dmask := rfl
@[simp] theorem respond_width : (respond v s).width = s.width := rfl
@[simp] theorem respond_height : (respond v s).height = s.height := rfl
@[simp] theorem respond_fstate : (respond v s).fstate = s.fstate := rfl
@[simp] theorem respond_row : (respond v s).row = s.row := rfl
@[simp] theorem respond_rowbuf1 : (respond v s).rowbuf1 = s.rowbuf1 := rfl
@[simp] theorem respond_rowbuf4 : (respond v s).rowbuf4 = s.rowbuf4 := rfl
@[simp] theorem respond_outbuf : (respond v s).outbuf = s.outbuf := rfl
@[simp] theorem respond_lut : (respond v s).lut = s.lut := rfl
@[simp] theorem respond_busy : (respond v s).busy = s.busy := rfl
@[simp] theorem respond_err : (respond v s).err = s.err := rfl
@[simp] theorem respond_errCode : (respond v s).errCode = s.errCode := rfl
@[simp] theorem respond_halted : (respond v s).halted = s.halted := rfl
@[simp] theorem respond_rsp : (respond v s).rsp = v.setWidth 32 := rfl
@[simp] theorem respond_rspValid : (respond v s).rspValid = true := rfl
@[simp] theorem respond_pending : (respond v s).pending = s.pending := rfl
@[simp] theorem respond_packet : (respond v s).packet = s.packet := rfl
@[simp] theorem respond_todo : (respond v s).todo = s.todo := rfl
@[simp] theorem respond_waited : (respond v s).waited = s.waited := rfl
@[simp] theorem respond_rst : (respond v s).rst = s.rst := rfl
@[simp] theorem respond_src : (respond v s).src = s.src := rfl
@[simp] theorem respond_admit : (respond v s).srcAdmit = s.srcAdmit := rfl
@[simp] theorem respond_grayPolicy : (respond v s).grayPolicy = s.grayPolicy := rfl
@[simp] theorem respond_log : (respond v s).log = s.log := rfl
@[simp] theorem respond_stopReq : (respond v s).stopReq = s.stopReq := rfl
@[simp] theorem respond_raced : (respond v s).raced = s.raced := rfl
@[simp] theorem respond_raceTick : (respond v s).raceTick = s.raceTick := rfl
@[simp] theorem respond_inbox : (respond v s).inbox = s.inbox := rfl

end

section
variable (s : State)

@[simp] theorem acknowledge_cr : (acknowledge s).cr = s.cr := rfl
@[simp] theorem acknowledge_opl : (acknowledge s).opl = s.opl := rfl
@[simp] theorem acknowledge_pins : (acknowledge s).pins = s.pins := rfl
@[simp] theorem acknowledge_dmask : (acknowledge s).dmask = s.dmask := rfl
@[simp] theorem acknowledge_width : (acknowledge s).width = s.width := rfl
@[simp] theorem acknowledge_height : (acknowledge s).height = s.height := rfl
@[simp] theorem acknowledge_fstate : (acknowledge s).fstate = s.fstate := rfl
@[simp] theorem acknowledge_row : (acknowledge s).row = s.row := rfl
@[simp] theorem acknowledge_rowbuf1 : (acknowledge s).rowbuf1 = s.rowbuf1 := rfl
@[simp] theorem acknowledge_rowbuf4 : (acknowledge s).rowbuf4 = s.rowbuf4 := rfl
@[simp] theorem acknowledge_outbuf : (acknowledge s).outbuf = s.outbuf := rfl
@[simp] theorem acknowledge_lut : (acknowledge s).lut = s.lut := rfl
@[simp] theorem acknowledge_busy : (acknowledge s).busy = s.busy := rfl
@[simp] theorem acknowledge_err : (acknowledge s).err = s.err := rfl
@[simp] theorem acknowledge_errCode : (acknowledge s).errCode = s.errCode := rfl
@[simp] theorem acknowledge_halted : (acknowledge s).halted = s.halted := rfl
@[simp] theorem acknowledge_rsp : (acknowledge s).rsp = s.rsp := rfl
@[simp] theorem acknowledge_rspValid : (acknowledge s).rspValid = false := rfl
@[simp] theorem acknowledge_pending : (acknowledge s).pending = s.pending := rfl
@[simp] theorem acknowledge_packet : (acknowledge s).packet = s.packet := rfl
@[simp] theorem acknowledge_todo : (acknowledge s).todo = s.todo := rfl
@[simp] theorem acknowledge_waited : (acknowledge s).waited = s.waited := rfl
@[simp] theorem acknowledge_rst : (acknowledge s).rst = s.rst := rfl
@[simp] theorem acknowledge_src : (acknowledge s).src = s.src := rfl
@[simp] theorem acknowledge_admit : (acknowledge s).srcAdmit = s.srcAdmit := rfl
@[simp] theorem acknowledge_grayPolicy : (acknowledge s).grayPolicy = s.grayPolicy := rfl
@[simp] theorem acknowledge_log : (acknowledge s).log = s.log := rfl
@[simp] theorem acknowledge_stopReq : (acknowledge s).stopReq = s.stopReq := rfl
@[simp] theorem acknowledge_raced : (acknowledge s).raced = s.raced := rfl
@[simp] theorem acknowledge_raceTick : (acknowledge s).raceTick = s.raceTick := rfl
@[simp] theorem acknowledge_inbox : (acknowledge s).inbox = s.inbox := rfl

end

section
variable (regions : List Region) (s : State)

@[simp] theorem setAdmit_cr : (setAdmit regions s).cr = s.cr := rfl
@[simp] theorem setAdmit_opl : (setAdmit regions s).opl = s.opl := rfl
@[simp] theorem setAdmit_pins : (setAdmit regions s).pins = s.pins := rfl
@[simp] theorem setAdmit_dmask : (setAdmit regions s).dmask = s.dmask := rfl
@[simp] theorem setAdmit_width : (setAdmit regions s).width = s.width := rfl
@[simp] theorem setAdmit_height : (setAdmit regions s).height = s.height := rfl
@[simp] theorem setAdmit_fstate : (setAdmit regions s).fstate = s.fstate := rfl
@[simp] theorem setAdmit_row : (setAdmit regions s).row = s.row := rfl
@[simp] theorem setAdmit_rowbuf1 : (setAdmit regions s).rowbuf1 = s.rowbuf1 := rfl
@[simp] theorem setAdmit_rowbuf4 : (setAdmit regions s).rowbuf4 = s.rowbuf4 := rfl
@[simp] theorem setAdmit_outbuf : (setAdmit regions s).outbuf = s.outbuf := rfl
@[simp] theorem setAdmit_lut : (setAdmit regions s).lut = s.lut := rfl
@[simp] theorem setAdmit_busy : (setAdmit regions s).busy = s.busy := rfl
@[simp] theorem setAdmit_err : (setAdmit regions s).err = s.err := rfl
@[simp] theorem setAdmit_errCode : (setAdmit regions s).errCode = s.errCode := rfl
@[simp] theorem setAdmit_halted : (setAdmit regions s).halted = s.halted := rfl
@[simp] theorem setAdmit_rsp : (setAdmit regions s).rsp = s.rsp := rfl
@[simp] theorem setAdmit_rspValid : (setAdmit regions s).rspValid = s.rspValid := rfl
@[simp] theorem setAdmit_pending : (setAdmit regions s).pending = s.pending := rfl
@[simp] theorem setAdmit_packet : (setAdmit regions s).packet = s.packet := rfl
@[simp] theorem setAdmit_todo : (setAdmit regions s).todo = s.todo := rfl
@[simp] theorem setAdmit_waited : (setAdmit regions s).waited = s.waited := rfl
@[simp] theorem setAdmit_rst : (setAdmit regions s).rst = s.rst := rfl
@[simp] theorem setAdmit_src : (setAdmit regions s).src = s.src := rfl
@[simp] theorem setAdmit_admit : (setAdmit regions s).srcAdmit = regions := rfl
@[simp] theorem setAdmit_grayPolicy : (setAdmit regions s).grayPolicy = s.grayPolicy := rfl
@[simp] theorem setAdmit_log : (setAdmit regions s).log = s.log := rfl
@[simp] theorem setAdmit_stopReq : (setAdmit regions s).stopReq = s.stopReq := rfl
@[simp] theorem setAdmit_raced : (setAdmit regions s).raced = s.raced := rfl
@[simp] theorem setAdmit_raceTick : (setAdmit regions s).raceTick = s.raceTick := rfl
@[simp] theorem setAdmit_inbox : (setAdmit regions s).inbox = s.inbox := rfl

end

section
variable (a : Word) (b : Byte) (s : State)

@[simp] theorem hostWrite_cr : (hostWrite a b s).cr = s.cr := rfl
@[simp] theorem hostWrite_opl : (hostWrite a b s).opl = s.opl := rfl
@[simp] theorem hostWrite_pins : (hostWrite a b s).pins = s.pins := rfl
@[simp] theorem hostWrite_dmask : (hostWrite a b s).dmask = s.dmask := rfl
@[simp] theorem hostWrite_width : (hostWrite a b s).width = s.width := rfl
@[simp] theorem hostWrite_height : (hostWrite a b s).height = s.height := rfl
@[simp] theorem hostWrite_fstate : (hostWrite a b s).fstate = s.fstate := rfl
@[simp] theorem hostWrite_row : (hostWrite a b s).row = s.row := rfl
@[simp] theorem hostWrite_rowbuf1 : (hostWrite a b s).rowbuf1 = s.rowbuf1 := rfl
@[simp] theorem hostWrite_rowbuf4 : (hostWrite a b s).rowbuf4 = s.rowbuf4 := rfl
@[simp] theorem hostWrite_outbuf : (hostWrite a b s).outbuf = s.outbuf := rfl
@[simp] theorem hostWrite_lut : (hostWrite a b s).lut = s.lut := rfl
@[simp] theorem hostWrite_busy : (hostWrite a b s).busy = s.busy := rfl
@[simp] theorem hostWrite_err : (hostWrite a b s).err = s.err := rfl
@[simp] theorem hostWrite_errCode : (hostWrite a b s).errCode = s.errCode := rfl
@[simp] theorem hostWrite_halted : (hostWrite a b s).halted = s.halted := rfl
@[simp] theorem hostWrite_rsp : (hostWrite a b s).rsp = s.rsp := rfl
@[simp] theorem hostWrite_rspValid : (hostWrite a b s).rspValid = s.rspValid := rfl
@[simp] theorem hostWrite_pending : (hostWrite a b s).pending = s.pending := rfl
@[simp] theorem hostWrite_packet : (hostWrite a b s).packet = s.packet := rfl
@[simp] theorem hostWrite_todo : (hostWrite a b s).todo = s.todo := rfl
@[simp] theorem hostWrite_waited : (hostWrite a b s).waited = s.waited := rfl
@[simp] theorem hostWrite_rst : (hostWrite a b s).rst = s.rst := rfl
@[simp] theorem hostWrite_admit : (hostWrite a b s).srcAdmit = s.srcAdmit := rfl
@[simp] theorem hostWrite_grayPolicy : (hostWrite a b s).grayPolicy = s.grayPolicy := rfl
@[simp] theorem hostWrite_log : (hostWrite a b s).log = s.log := rfl
@[simp] theorem hostWrite_stopReq : (hostWrite a b s).stopReq = s.stopReq := rfl
@[simp] theorem hostWrite_raceTick : (hostWrite a b s).raceTick = s.raceTick := rfl
@[simp] theorem hostWrite_inbox : (hostWrite a b s).inbox = s.inbox := rfl

end

section
variable (s : State)

@[simp] theorem assertRst_cr : (assertRst s).cr = s.cr := rfl
@[simp] theorem assertRst_opl : (assertRst s).opl = s.opl := rfl
@[simp] theorem assertRst_pins : (assertRst s).pins = s.pins := rfl
@[simp] theorem assertRst_dmask : (assertRst s).dmask = s.dmask := rfl
@[simp] theorem assertRst_width : (assertRst s).width = s.width := rfl
@[simp] theorem assertRst_height : (assertRst s).height = s.height := rfl
@[simp] theorem assertRst_fstate : (assertRst s).fstate = s.fstate := rfl
@[simp] theorem assertRst_row : (assertRst s).row = s.row := rfl
@[simp] theorem assertRst_rowbuf1 : (assertRst s).rowbuf1 = s.rowbuf1 := rfl
@[simp] theorem assertRst_rowbuf4 : (assertRst s).rowbuf4 = s.rowbuf4 := rfl
@[simp] theorem assertRst_outbuf : (assertRst s).outbuf = s.outbuf := rfl
@[simp] theorem assertRst_lut : (assertRst s).lut = s.lut := rfl
@[simp] theorem assertRst_busy : (assertRst s).busy = false := rfl
@[simp] theorem assertRst_err : (assertRst s).err = s.err := rfl
@[simp] theorem assertRst_errCode : (assertRst s).errCode = s.errCode := rfl
@[simp] theorem assertRst_halted : (assertRst s).halted = s.halted := rfl
@[simp] theorem assertRst_rsp : (assertRst s).rsp = s.rsp := rfl
@[simp] theorem assertRst_rspValid : (assertRst s).rspValid = s.rspValid := rfl
@[simp] theorem assertRst_pending : (assertRst s).pending = none := rfl
@[simp] theorem assertRst_packet : (assertRst s).packet = s.packet := rfl
@[simp] theorem assertRst_todo : (assertRst s).todo = [] := rfl
@[simp] theorem assertRst_waited : (assertRst s).waited = 0 := rfl
@[simp] theorem assertRst_rst : (assertRst s).rst = true := rfl
@[simp] theorem assertRst_src : (assertRst s).src = s.src := rfl
@[simp] theorem assertRst_admit : (assertRst s).srcAdmit = s.srcAdmit := rfl
@[simp] theorem assertRst_grayPolicy : (assertRst s).grayPolicy = s.grayPolicy := rfl
@[simp] theorem assertRst_log : (assertRst s).log = s.log := rfl
@[simp] theorem assertRst_stopReq : (assertRst s).stopReq = false := rfl
@[simp] theorem assertRst_raced : (assertRst s).raced = s.raced := rfl
@[simp] theorem assertRst_raceTick : (assertRst s).raceTick = s.raceTick := rfl
@[simp] theorem assertRst_inbox : (assertRst s).inbox = s.inbox := rfl

end

/-! `emitAll` changes the trace and the lines only. -/

section
variable (e : Event) (es fs : List Event) (s : State)

@[simp] theorem emitAll_nil : s.emitAll [] = s := rfl
@[simp] theorem emitAll_cons : s.emitAll (e :: es) = (s.emit e).emitAll es := by
  simp [State.emitAll, State.emit, Pins.afterAll]

/-- Emitting a list is emitting its events one by one. -/
theorem emitAll_eq_foldl : s.emitAll es = es.foldl (fun s e => s.emit e) s := by
  induction es generalizing s with
  | nil => rfl
  | cons e es ih => rw [emitAll_cons, ih, List.foldl_cons]

theorem emitAll_append : s.emitAll (es ++ fs) = (s.emitAll es).emitAll fs := by
  simp [State.emitAll, Pins.afterAll]

theorem emitAll_eq : s.emitAll es = { s with log := es.reverse ++ s.log, pins := s.pins.afterAll es } := rfl

@[simp] theorem emitAll_log : (s.emitAll es).log = es.reverse ++ s.log := rfl
@[simp] theorem emitAll_pins : (s.emitAll es).pins = s.pins.afterAll es := rfl
@[simp] theorem emitAll_trace : (s.emitAll es).trace = s.trace ++ es := by simp [State.trace]
@[simp] theorem emitAll_cr : (s.emitAll es).cr = s.cr := rfl
@[simp] theorem emitAll_opl : (s.emitAll es).opl = s.opl := rfl
@[simp] theorem emitAll_dmask : (s.emitAll es).dmask = s.dmask := rfl
@[simp] theorem emitAll_width : (s.emitAll es).width = s.width := rfl
@[simp] theorem emitAll_height : (s.emitAll es).height = s.height := rfl
@[simp] theorem emitAll_fstate : (s.emitAll es).fstate = s.fstate := rfl
@[simp] theorem emitAll_row : (s.emitAll es).row = s.row := rfl
@[simp] theorem emitAll_rowbuf1 : (s.emitAll es).rowbuf1 = s.rowbuf1 := rfl
@[simp] theorem emitAll_rowbuf4 : (s.emitAll es).rowbuf4 = s.rowbuf4 := rfl
@[simp] theorem emitAll_outbuf : (s.emitAll es).outbuf = s.outbuf := rfl
@[simp] theorem emitAll_lut : (s.emitAll es).lut = s.lut := rfl
@[simp] theorem emitAll_busy : (s.emitAll es).busy = s.busy := rfl
@[simp] theorem emitAll_err : (s.emitAll es).err = s.err := rfl
@[simp] theorem emitAll_errCode : (s.emitAll es).errCode = s.errCode := rfl
@[simp] theorem emitAll_halted : (s.emitAll es).halted = s.halted := rfl
@[simp] theorem emitAll_rsp : (s.emitAll es).rsp = s.rsp := rfl
@[simp] theorem emitAll_rspValid : (s.emitAll es).rspValid = s.rspValid := rfl
@[simp] theorem emitAll_pending : (s.emitAll es).pending = s.pending := rfl
@[simp] theorem emitAll_packet : (s.emitAll es).packet = s.packet := rfl
@[simp] theorem emitAll_todo : (s.emitAll es).todo = s.todo := rfl
@[simp] theorem emitAll_waited : (s.emitAll es).waited = s.waited := rfl
@[simp] theorem emitAll_rst : (s.emitAll es).rst = s.rst := rfl
@[simp] theorem emitAll_src : (s.emitAll es).src = s.src := rfl
@[simp] theorem emitAll_admit : (s.emitAll es).srcAdmit = s.srcAdmit := rfl
@[simp] theorem emitAll_grayPolicy : (s.emitAll es).grayPolicy = s.grayPolicy := rfl
@[simp] theorem emitAll_stopReq : (s.emitAll es).stopReq = s.stopReq := rfl
@[simp] theorem emitAll_raced : (s.emitAll es).raced = s.raced := rfl
@[simp] theorem emitAll_raceTick : (s.emitAll es).raceTick = s.raceTick := rfl
@[simp] theorem emitAll_inbox : (s.emitAll es).inbox = s.inbox := rfl

end

end Sys2Proof.Machine
end

