-- ==== Sys2Proof/Laws/Run.lean ====
section
/-! SUPPORT. What the shared operations can do, said once, and the run of a command's list to its end: the machine,
left alone, reaches the state that `runOps` computes. -/

namespace Sys2Proof.Machine

/-! ## What running a list cannot touch -/

/-- The part of the state that running a command's list without emitting leaves alone; the rest is blanked out, so that
one equation between two such parts says that all of it is unchanged. -/
def State.untouched (s : State) : State :=
  { State.reset with
    opl := s.opl, pins := s.pins, dmask := s.dmask, width := s.width, height := s.height, rsp := s.rsp,
    rspValid := s.rspValid, pending := s.pending, packet := s.packet, rst := s.rst, src := s.src, srcAdmit := s.srcAdmit,
    grayPolicy := s.grayPolicy, log := s.log, stopReq := s.stopReq, raced := s.raced, inbox := s.inbox }

/-- A silent position that raises no fault leaves the untouched part, and the error and command state, alone. -/
theorem runSilent_ok {i : Silent} {s t : State} (h : runSilent i s = .ok t) :
    t.untouched = s.untouched ∧ t.busy = s.busy ∧ t.waited = s.waited ∧ t.todo = s.todo ∧ t.err = s.err ∧
      t.errCode = s.errCode ∧ t.halted = s.halted := by
  cases i <;> simp only [runSilent, openFrame, requireRow, requireFull, compose1, compose4] at h <;>
    (try split at h) <;> cases h <;> exact ⟨rfl, rfl, rfl, rfl, rfl, rfl, rfl⟩

/-- Counting a read changes the counter only. -/
theorem countRead_shape (i : Silent) (s : State) : ∃ raceTick, countRead i s = { s with raceTick } := by
  unfold countRead; split
  · exact ⟨_, rfl⟩
  · exact ⟨s.raceTick, rfl⟩

theorem countRead_of_silent {i : Silent} (h : i.reads = false) (s : State) : countRead i s = s := by simp [countRead, h]

theorem countRead_of_reads {i : Silent} (h : i.reads = true) (s : State) :
    countRead i s = { s with raceTick := s.raceTick + 1 } := by simp [countRead, h]

theorem countRead_todo (i : Silent) (s : State) (todo : List MicroOp) :
    countRead i { s with todo } = { countRead i s with todo } := by unfold countRead; split <;> rfl

/-- A row whose reads fault leaves its mark in the row buffers only. -/
theorem halfCompose_shape (i : Silent) (s : State) :
    ∃ rowbuf1 rowbuf4, halfCompose i s = { s with rowbuf1, rowbuf4 } := by
  cases i <;> exact ⟨_, _, rfl⟩

theorem halfCompose_of_silent {i : Silent} (h : i.reads = false) (s : State) : halfCompose i s = s := by
  cases i <;> first | rfl | cases h

/-- A fault of a position is a halting fault; only the read counter and the row buffers can differ. -/
theorem takeFaultAt_shape (c : ErrCode) (i : Silent) (s : State) :
    ∃ raceTick rowbuf1 rowbuf4, takeFaultAt c i s = takeHaltingFault c { s with raceTick, rowbuf1, rowbuf4 } := by
  obtain ⟨n, hn⟩ := countRead_shape i s
  obtain ⟨b1, b4, h⟩ := halfCompose_shape i (countRead i s)
  exact ⟨n, b1, b4, by rw [takeFaultAt, h, hn]⟩

theorem takeFaultAt_of_silent {i : Silent} (h : i.reads = false) (c : ErrCode) (s : State) :
    takeFaultAt c i s = takeHaltingFault c s := by
  rw [takeFaultAt, countRead_of_silent h, halfCompose_of_silent h]

theorem takeFaultAt_of_reads {i : Silent} (h : i.reads = true) (c : ErrCode) (s : State) :
    takeFaultAt c i s = takeHaltingFault c (halfCompose i { s with raceTick := s.raceTick + 1 }) := by
  rw [takeFaultAt, countRead_of_reads h]

theorem takeFaultAt_raceTick {i : Silent} (h : i.reads = true) (c : ErrCode) (s : State) :
    (takeFaultAt c i s).raceTick = s.raceTick + 1 := by
  obtain ⟨_, _, e⟩ := halfCompose_shape i { s with raceTick := s.raceTick + 1 }
  rw [takeFaultAt_of_reads h, e, takeHaltingFault_raceTick]

/-- A fault does not look at the sequence position. -/
theorem takeFaultAt_todo (c : ErrCode) (i : Silent) (s : State) (todo : List MicroOp) :
    takeFaultAt c i { s with todo } = takeFaultAt c i s := by
  rw [takeFaultAt, countRead_todo]
  cases i <;> rfl

/-- Only a read takes a fault of the source memory, and it takes no other (spec/60_exceptions.md R323). -/
theorem runSilent_error {i : Silent} {s : State} {c : ErrCode} (h : runSilent i s = .error c) :
    c = if i.reads then .srcFault else .fsmFault := by
  cases i <;> simp only [runSilent, openFrame, requireRow, requireFull, compose1, compose4] at h <;> (try split at h) <;>
    cases h <;> rfl

/-- A silent position leaves the count of reads alone. -/
theorem runSilent_raceTick {i : Silent} {s t : State} (h : runSilent i s = .ok t) : t.raceTick = s.raceTick := by
  cases i <;> simp only [runSilent, openFrame, requireRow, requireFull, compose1, compose4] at h <;>
    (try split at h) <;> cases h <;> rfl

/-- A silent position does not look at the sequence position. -/
theorem runSilent_todo (i : Silent) (s : State) (todo : List MicroOp) :
    runSilent i { s with todo } = (runSilent i s).map fun t => { t with todo } := by
  have h1 (R : Rect) (r : Nat) : State.rowAdmitted1 { s with todo } R r = s.rowAdmitted1 R r := rfl
  have h4 (R : Rect) (r : Nat) : State.rowAdmitted4 { s with todo } R r = s.rowAdmitted4 R r := rfl
  cases i <;> simp only [runSilent, openFrame, requireRow, requireFull, compose1, compose4, h1, h4] <;>
    (try split) <;> rfl

/-! ## Running a list to its end -/

/-- Run a whole list with nobody at the ports: every event is emitted, and a fault ends the run. -/
def runOps : List MicroOp → State → State
  | [], s => s
  | .drive d :: rest, s => runOps rest (s.emit (d.event s))
  | .silent i :: rest, s =>
    match runSilent i (countRead i s) with
    | .ok t => runOps rest t
    | .error c => takeFaultAt c i s

@[simp] theorem runOps_nil (s : State) : runOps [] s = s := rfl

@[simp] theorem runOps_drive (d : Drive) (rest : List MicroOp) (s : State) :
    runOps (.drive d :: rest) s = runOps rest (s.emit (d.event s)) := rfl

theorem runOps_counted_ok {i : Silent} {s t : State} (h : runSilent i (countRead i s) = .ok t) (rest : List MicroOp) :
    runOps (.silent i :: rest) s = runOps rest t := by simp [runOps, h]

theorem runOps_counted_error {i : Silent} {s : State} {c : ErrCode} (h : runSilent i (countRead i s) = .error c)
    (rest : List MicroOp) : runOps (.silent i :: rest) s = takeFaultAt c i s := by simp [runOps, h]

theorem runOps_silent_ok {i : Silent} {s t : State} (h : runSilent i s = .ok t) (rest : List MicroOp)
    (hr : i.reads = false := by rfl) : runOps (.silent i :: rest) s = runOps rest t :=
  runOps_counted_ok (by rw [countRead_of_silent hr, h]) rest

theorem runOps_read_ok {i : Silent} {s t : State} (h : runSilent i { s with raceTick := s.raceTick + 1 } = .ok t)
    (rest : List MicroOp) (hr : i.reads = true := by rfl) : runOps (.silent i :: rest) s = runOps rest t :=
  runOps_counted_ok (by rw [countRead_of_reads hr, h]) rest

theorem runOps_read_error {i : Silent} {s : State} {c : ErrCode}
    (h : runSilent i { s with raceTick := s.raceTick + 1 } = .error c) (rest : List MicroOp)
    (hr : i.reads = true := by rfl) :
    runOps (.silent i :: rest) s = takeHaltingFault c (halfCompose i { s with raceTick := s.raceTick + 1 }) := by
  rw [runOps_counted_error (c := c) (by rw [countRead_of_reads hr, h]), takeFaultAt_of_reads hr]

@[simp] theorem settle_nil (s : State) : settle [] s = { s with todo := [] } := rfl

@[simp] theorem settle_drive (d : Drive) (rest : List MicroOp) (s : State) :
    settle (.drive d :: rest) s = { s with todo := .drive d :: rest } := rfl

theorem settle_silent_ok {i : Silent} {s t : State} (h : runSilent i s = .ok t) (rest : List MicroOp)
    (hr : i.reads = false := by rfl) : settle (.silent i :: rest) s = settle rest t := by simp [settle, h, hr]

theorem settle_silent_error {i : Silent} {s : State} {c : ErrCode} (h : runSilent i s = .error c)
    (rest : List MicroOp) (hr : i.reads = false := by rfl) :
    settle (.silent i :: rest) s = takeHaltingFault c s := by simp [settle, h, hr]

theorem settle_read (i : Silent) (rest : List MicroOp) (s : State) (hr : i.reads = true := by rfl) :
    settle (.silent i :: rest) s = { s with todo := .silent i :: rest } := by simp [settle, hr]

/-- A command is over: nothing is left of its list and BUSY = 0. -/
def State.over (s : State) : State := { s with todo := [], waited := 0, busy := false }

/-- How a run ends does not depend on the sequence position it started with. -/
theorem over_runOps_todo (ops todo : List MicroOp) (s : State) :
    (runOps ops { s with todo }).over = (runOps ops s).over := by
  induction ops generalizing s with
  | nil => rfl
  | cons op rest ih =>
    cases op with
    | drive d => exact ih (s.emit (d.event s))
    | silent i =>
      cases h : runSilent i (countRead i s) with
      | ok t =>
        rw [runOps_counted_ok h,
          runOps_counted_ok (t := { t with todo }) (by rw [countRead_todo, runSilent_todo, h]; rfl)]
        exact ih t
      | error c =>
        rw [runOps_counted_error h, runOps_counted_error (c := c) (by rw [countRead_todo, runSilent_todo, h]; rfl),
          takeFaultAt_todo]

/-- Settling a list leaves the untouched part alone. -/
theorem settle_untouched (ops : List MicroOp) (s : State) : (settle ops s).untouched = s.untouched := by
  induction ops generalizing s with
  | nil => rfl
  | cons op rest ih =>
    cases op with
    | drive d => rfl
    | silent i =>
      cases hr : i.reads with
      | true => rw [settle_read i rest s hr]; rfl
      | false =>
        cases h : runSilent i s with
        | error c => rw [settle_silent_error h _ hr]; rfl
        | ok t => rw [settle_silent_ok h _ hr, ih t, (runSilent_ok h).1]

/-- What settling a list can do: stop before an event, before a row's reads or at the end, with what is left as the sequence position, or take a
halting fault. -/
theorem settle_cases (ops : List MicroOp) (s : State) :
    (∃ (t : State) (rest : List MicroOp), settle ops s = { t with todo := rest } ∧ t.untouched = s.untouched ∧
      t.busy = s.busy ∧ t.waited = s.waited ∧ t.err = s.err ∧ t.errCode = s.errCode ∧ t.halted = s.halted ∧
      rest <:+ ops ∧ (rest = [] ∨ headMoves rest = true)) ∨
    (∃ (t : State) (c : ErrCode), c = .fsmFault ∧ settle ops s = takeHaltingFault c t ∧ t.untouched = s.untouched ∧
      t.err = s.err ∧ t.errCode = s.errCode ∧ t.halted = s.halted) := by
  induction ops generalizing s with
  | nil => exact .inl ⟨s, [], rfl, rfl, rfl, rfl, rfl, rfl, rfl, List.suffix_refl _, .inl rfl⟩
  | cons op ops ih =>
    cases op with
    | drive d => exact .inl ⟨s, _, rfl, rfl, rfl, rfl, rfl, rfl, rfl, List.suffix_refl _, .inr rfl⟩
    | silent i =>
      cases hr : i.reads with
      | true =>
        exact .inl ⟨s, _, settle_read i ops s hr, rfl, rfl, rfl, rfl, rfl, rfl, List.suffix_refl _, .inr hr⟩
      | false =>
      cases h : runSilent i s with
      | error c =>
        exact .inr ⟨s, c, by simpa [hr] using runSilent_error h, settle_silent_error h _ hr, rfl, rfl, rfl, rfl⟩
      | ok t =>
        obtain ⟨h1, h2, h3, h4, h5, h6, h7⟩ := runSilent_ok h
        rcases ih t with ⟨u, rest, e, g1, g2, g3, g4, g5, g6, g7, g8⟩ | ⟨u, c, e0, e, g1, g2, g3, g4⟩
        · exact .inl ⟨u, rest, by rw [settle_silent_ok h _ hr, e], g1.trans h1, g2.trans h2, g3.trans h3, g4.trans h5,
            g5.trans h6, g6.trans h7, g7.trans (List.suffix_cons _ _), g8⟩
        · exact .inr ⟨u, c, e0, by rw [settle_silent_ok h _ hr, e], g1.trans h1, g2.trans h5, g3.trans h6, g4.trans h7⟩

/-- Settling a list does not look at the position it replaces. -/
theorem settle_todo (ops todo : List MicroOp) (s : State) : settle ops { s with todo } = settle ops s := by
  induction ops generalizing s with
  | nil => rfl
  | cons op rest ih =>
    cases op with
    | drive d => rfl
    | silent i =>
      cases hr : i.reads with
      | true => rw [settle_read i rest _ hr, settle_read i rest _ hr]
      | false =>
        cases h : runSilent i s with
        | error c =>
          rw [settle_silent_error h _ hr, settle_silent_error (c := c) (by rw [runSilent_todo, h]; rfl) _ hr]; rfl
        | ok t =>
          rw [settle_silent_ok h _ hr, settle_silent_ok (t := { t with todo }) (by rw [runSilent_todo, h]; rfl) _ hr]
          exact ih t

/-- What `finish` does: BUSY falls when nothing is left. -/
theorem finish_shape (s : State) : ∃ busy, finish s = { s with busy } := by
  unfold finish; split
  · exact ⟨_, rfl⟩
  · exact ⟨s.busy, rfl⟩

section
variable (ops : List MicroOp) (s : State)

@[simp] theorem settle_opl : (settle ops s).opl = s.opl := (congrArg State.opl (settle_untouched ops s) :)
@[simp] theorem settle_pins : (settle ops s).pins = s.pins := (congrArg State.pins (settle_untouched ops s) :)
@[simp] theorem settle_dmask : (settle ops s).dmask = s.dmask := (congrArg State.dmask (settle_untouched ops s) :)
@[simp] theorem settle_width : (settle ops s).width = s.width := (congrArg State.width (settle_untouched ops s) :)
@[simp] theorem settle_height : (settle ops s).height = s.height := (congrArg State.height (settle_untouched ops s) :)
@[simp] theorem settle_rsp : (settle ops s).rsp = s.rsp := (congrArg State.rsp (settle_untouched ops s) :)
@[simp] theorem settle_rspValid : (settle ops s).rspValid = s.rspValid := (congrArg State.rspValid (settle_untouched ops s) :)
@[simp] theorem settle_pending : (settle ops s).pending = s.pending := (congrArg State.pending (settle_untouched ops s) :)
@[simp] theorem settle_packet : (settle ops s).packet = s.packet := (congrArg State.packet (settle_untouched ops s) :)
@[simp] theorem settle_rst : (settle ops s).rst = s.rst := (congrArg State.rst (settle_untouched ops s) :)
@[simp] theorem settle_src : (settle ops s).src = s.src := (congrArg State.src (settle_untouched ops s) :)
@[simp] theorem settle_admit : (settle ops s).srcAdmit = s.srcAdmit := (congrArg State.srcAdmit (settle_untouched ops s) :)
@[simp] theorem settle_grayPolicy : (settle ops s).grayPolicy = s.grayPolicy := (congrArg State.grayPolicy (settle_untouched ops s) :)
@[simp] theorem settle_log : (settle ops s).log = s.log := (congrArg State.log (settle_untouched ops s) :)
@[simp] theorem settle_stopReq : (settle ops s).stopReq = s.stopReq := (congrArg State.stopReq (settle_untouched ops s) :)
@[simp] theorem settle_raced : (settle ops s).raced = s.raced := (congrArg State.raced (settle_untouched ops s) :)
@[simp] theorem settle_inbox : (settle ops s).inbox = s.inbox := (congrArg State.inbox (settle_untouched ops s) :)
@[simp] theorem finish_cr : (finish s).cr = s.cr := by obtain ⟨_, h⟩ := finish_shape s; rw [h]
@[simp] theorem finish_opl : (finish s).opl = s.opl := by obtain ⟨_, h⟩ := finish_shape s; rw [h]
@[simp] theorem finish_pins : (finish s).pins = s.pins := by obtain ⟨_, h⟩ := finish_shape s; rw [h]
@[simp] theorem finish_dmask : (finish s).dmask = s.dmask := by obtain ⟨_, h⟩ := finish_shape s; rw [h]
@[simp] theorem finish_width : (finish s).width = s.width := by obtain ⟨_, h⟩ := finish_shape s; rw [h]
@[simp] theorem finish_height : (finish s).height = s.height := by obtain ⟨_, h⟩ := finish_shape s; rw [h]
@[simp] theorem finish_fstate : (finish s).fstate = s.fstate := by obtain ⟨_, h⟩ := finish_shape s; rw [h]
@[simp] theorem finish_row : (finish s).row = s.row := by obtain ⟨_, h⟩ := finish_shape s; rw [h]
@[simp] theorem finish_rowbuf1 : (finish s).rowbuf1 = s.rowbuf1 := by obtain ⟨_, h⟩ := finish_shape s; rw [h]
@[simp] theorem finish_rowbuf4 : (finish s).rowbuf4 = s.rowbuf4 := by obtain ⟨_, h⟩ := finish_shape s; rw [h]
@[simp] theorem finish_outbuf : (finish s).outbuf = s.outbuf := by obtain ⟨_, h⟩ := finish_shape s; rw [h]
@[simp] theorem finish_lut : (finish s).lut = s.lut := by obtain ⟨_, h⟩ := finish_shape s; rw [h]
@[simp] theorem finish_err : (finish s).err = s.err := by obtain ⟨_, h⟩ := finish_shape s; rw [h]
@[simp] theorem finish_errCode : (finish s).errCode = s.errCode := by obtain ⟨_, h⟩ := finish_shape s; rw [h]
@[simp] theorem finish_halted : (finish s).halted = s.halted := by obtain ⟨_, h⟩ := finish_shape s; rw [h]
@[simp] theorem finish_rsp : (finish s).rsp = s.rsp := by obtain ⟨_, h⟩ := finish_shape s; rw [h]
@[simp] theorem finish_rspValid : (finish s).rspValid = s.rspValid := by obtain ⟨_, h⟩ := finish_shape s; rw [h]
@[simp] theorem finish_pending : (finish s).pending = s.pending := by obtain ⟨_, h⟩ := finish_shape s; rw [h]
@[simp] theorem finish_packet : (finish s).packet = s.packet := by obtain ⟨_, h⟩ := finish_shape s; rw [h]
@[simp] theorem finish_todo : (finish s).todo = s.todo := by obtain ⟨_, h⟩ := finish_shape s; rw [h]
@[simp] theorem finish_waited : (finish s).waited = s.waited := by obtain ⟨_, h⟩ := finish_shape s; rw [h]
@[simp] theorem finish_rst : (finish s).rst = s.rst := by obtain ⟨_, h⟩ := finish_shape s; rw [h]
@[simp] theorem finish_src : (finish s).src = s.src := by obtain ⟨_, h⟩ := finish_shape s; rw [h]
@[simp] theorem finish_admit : (finish s).srcAdmit = s.srcAdmit := by obtain ⟨_, h⟩ := finish_shape s; rw [h]
@[simp] theorem finish_grayPolicy : (finish s).grayPolicy = s.grayPolicy := by obtain ⟨_, h⟩ := finish_shape s; rw [h]
@[simp] theorem finish_log : (finish s).log = s.log := by obtain ⟨_, h⟩ := finish_shape s; rw [h]
@[simp] theorem finish_stopReq : (finish s).stopReq = s.stopReq := by obtain ⟨_, h⟩ := finish_shape s; rw [h]
@[simp] theorem finish_raced : (finish s).raced = s.raced := by obtain ⟨_, h⟩ := finish_shape s; rw [h]
@[simp] theorem finish_raceTick : (finish s).raceTick = s.raceTick := by obtain ⟨_, h⟩ := finish_shape s; rw [h]
@[simp] theorem finish_inbox : (finish s).inbox = s.inbox := by obtain ⟨_, h⟩ := finish_shape s; rw [h]

end

theorem finish_of_nil {s : State} (h : s.todo = []) : finish s = { s with busy := false } := by simp [finish, h]

theorem finish_of_cons {s : State} {op : MicroOp} {rest : List MicroOp} (h : s.todo = op :: rest) :
    finish s = s := by simp [finish, h]

theorem finish_of_drive {s : State} {d : Drive} {rest : List MicroOp} (h : s.todo = .drive d :: rest) :
    finish s = s := finish_of_cons h

/-- The core's own move of a running command that nobody disturbs. -/
theorem step_moves_on {s : State} (hq : s.Quiet) (hb : s.busy = true) : step s = afterMove (performNext s) := by
  simp only [step, move, hq.inbox, moveOrStop, hq.stopReq, moveCore, hb, if_true, Bool.false_eq_true, if_false]

/-- With nothing held and no preemption asked for, a move of the command is all that happens. -/
theorem afterMove_quiet {s : State} (hs : s.stopReq = false) (hp : s.pending = none) : afterMove s = .next s := by
  unfold afterMove
  split
  · rfl
  · simp [hs, hp]

/-- What the core's own move can do: emit an event, read a row, take a fault of the position it stands at, or find
nothing left; what is silent after it follows. -/
theorem performNext_cases (s : State) :
    (∃ d rest, s.todo = .drive d :: rest ∧
      performNext s = finish (settle rest { s.emit (d.event s) with waited := 0 })) ∨
    (∃ i rest t, s.todo = .silent i :: rest ∧ runSilent i (countRead i s) = .ok t ∧
      performNext s = finish (settle rest t)) ∨
    (∃ i rest c, s.todo = .silent i :: rest ∧ runSilent i (countRead i s) = .error c ∧
      performNext s = takeFaultAt c i s) ∨
    (s.todo = [] ∧ performNext s = finish s) := by
  unfold performNext
  split
  · rename_i d rest h; exact .inl ⟨d, rest, h, rfl⟩
  · rename_i i rest h
    split
    · rename_i t ht; exact .inr (.inl ⟨i, rest, t, h, ht, rfl⟩)
    · rename_i c hc; exact .inr (.inr (.inl ⟨i, rest, c, h, hc, rfl⟩))
  · rename_i h; exact .inr (.inr (.inr ⟨h, rfl⟩))

theorem emit_waited_zero {s : State} (e : Event) (hw : s.waited = 0) : { s.emit e with waited := 0 } = s.emit e := by
  cases s; cases hw; rfl

/-- One move of a running command that nobody disturbs. -/
theorem step_undisturbed {s : State} {d : Drive} {rest : List MicroOp} (hq : s.Quiet) (hb : s.busy = true)
    (hw : s.waited = 0) (ht : s.todo = .drive d :: rest) :
    step s = .next (finish (settle rest (s.emit (d.event s)))) := by
  have hpe : performNext s = finish (settle rest (s.emit (d.event s))) := by
    unfold performNext; rw [ht]; simp only [emit_waited_zero _ hw]
  rw [step_moves_on hq hb, hpe]
  exact afterMove_quiet (by simp [hq.stopReq]) (by simp [hq.pending])

theorem Drive.event_todo (d : Drive) (todo : List MicroOp) (s : State) : d.event { s with todo } = d.event s := by
  cases d <;> rfl

theorem State.Quiet.countRead {s : State} (hq : s.Quiet) (i : Silent) : (countRead i s).Quiet := by
  obtain ⟨_, h⟩ := countRead_shape i s
  rw [h]; exact ⟨hq.inbox, hq.pending, hq.stopReq, hq.rst⟩

/-- A silent position leaves a quiet host quiet. -/
theorem State.Quiet.runSilent {i : Silent} {s t : State} (hq : s.Quiet) (h : runSilent i s = .ok t) : t.Quiet := by
  have hu := (runSilent_ok h).1
  exact ⟨(congrArg State.inbox hu :).trans hq.inbox, (congrArg State.pending hu).trans hq.pending,
    (congrArg State.stopReq hu :).trans hq.stopReq, (congrArg State.rst hu).trans hq.rst⟩

/-- One undisturbed step in front of a run. -/
theorem State.RunsTo.cons {s t u : State} {n : Nat} (hs : step s = .next t) (hb : s.busy = true)
    (h : t.RunsTo n u) : s.RunsTo (n + 1) u := by
  refine ⟨fun k hk => ?_, ?_, h.idle⟩
  · cases k with
    | zero => exact ⟨s, rfl, hb⟩
    | succ k =>
      obtain ⟨v, hv, hvb⟩ := h.busy_until k (by omega)
      exact ⟨v, by simp only [Host.Core.run, core, hs]; exact hv, hvb⟩
  · simp only [Host.Core.run, core, hs]
    exact h.reached

/-- The machine, left alone with a running command, runs its list to the end: one step for each event that `runOps`
emits and for each row it reads, with BUSY = 1 until then, and it reaches the state that `runOps` computes. -/
theorem run_to_end (ops : List MicroOp) (s : State) (hq : s.Quiet) (hb : s.busy = true) (hw : s.waited = 0) :
    ∃ n, (runOps ops s).log.length + (runOps ops s).raceTick = s.log.length + s.raceTick + n ∧ (finish (settle ops s)).RunsTo n (runOps ops s).over := by
  induction ops generalizing s with
  | nil =>
    refine ⟨0, rfl, fun k hk => absurd hk (Nat.not_lt_zero k), ?_, rfl⟩
    simp [Host.Core.run, finish_of_nil, State.over, hw]
  | cons op rest ih =>
    cases op with
    | silent i =>
      cases hr : i.reads with
      | false =>
        cases h : runSilent i s with
        | ok t =>
          obtain ⟨hu, hb', hw', -⟩ := runSilent_ok h
          obtain ⟨n, hl, hn⟩ := ih t (hq.runSilent h) (hb'.trans hb) (hw'.trans hw)
          have hlog : t.log = s.log := (congrArg State.log hu :)
          exact ⟨n, by rw [runOps_silent_ok h _ hr, hl, hlog, runSilent_raceTick h],
            by rw [settle_silent_ok h _ hr, runOps_silent_ok h _ hr]; exact hn⟩
        | error c =>
          rw [settle_silent_error h _ hr, runOps_counted_error (c := c) (by rw [countRead_of_silent hr, h]),
            takeFaultAt_of_silent hr, finish_of_nil rfl]
          exact ⟨0, rfl, fun k hk => absurd hk (Nat.not_lt_zero k), rfl, rfl⟩
      | true =>
        rw [settle_read i rest s hr, finish_of_cons rfl]
        have hq' : State.Quiet { s with todo := .silent i :: rest } := ⟨hq.inbox, hq.pending, hq.stopReq, hq.rst⟩
        have hc := countRead_of_reads hr s
        cases h : runSilent i (countRead i s) with
        | ok t =>
          obtain ⟨hu, hb', hw', -⟩ := runSilent_ok h
          have hqt := (hq.countRead i).runSilent h
          obtain ⟨n, hl, hn⟩ := ih t hqt (hb'.trans (by rw [hc]; exact hb)) (hw'.trans (by rw [hc]; exact hw))
          have hlog : t.log = s.log := (congrArg State.log hu :).trans (by rw [hc]; rfl)
          refine ⟨n + 1, ?_, ?_⟩
          · rw [runOps_counted_ok h, hl, hlog, runSilent_raceTick h, hc]; simp only; omega
          · rw [runOps_counted_ok h]
            refine State.RunsTo.cons ?_ hb hn
            rw [step_moves_on hq' hb]
            have : performNext { s with todo := .silent i :: rest } = finish (settle rest t) := by
              unfold performNext
              simp only
              rw [countRead_todo, runSilent_todo, h]
              exact congrArg finish (settle_todo rest _ t)
            rw [this]
            exact afterMove_quiet (by simp [hqt.stopReq]) (by simp [hqt.pending])
        | error c =>
          refine ⟨1, ?_, ?_⟩
          · rw [runOps_counted_error h, takeFaultAt_raceTick hr]
            obtain ⟨_, _, _, e⟩ := takeFaultAt_shape c i s
            rw [e, takeHaltingFault_log]
            exact (Nat.add_assoc ..).symm
          · rw [runOps_counted_error h]
            refine State.RunsTo.cons (t := takeFaultAt c i s) ?_ hb
              ⟨fun k hk => absurd hk (Nat.not_lt_zero k), rfl, rfl⟩
            rw [step_moves_on hq' hb]
            have : performNext { s with todo := .silent i :: rest } = takeFaultAt c i s := by
              unfold performNext
              simp only
              rw [countRead_todo, runSilent_todo, h]
              exact takeFaultAt_todo c i s _
            rw [this]
            obtain ⟨_, _, _, e⟩ := takeFaultAt_shape c i s
            rw [e]
            exact afterMove_quiet hq.stopReq hq.pending
    | drive d =>
      obtain ⟨n, hl, hn⟩ := ih (s.emit (d.event s)) ⟨hq.inbox, hq.pending, hq.stopReq, hq.rst⟩ hb hw
      refine ⟨n + 1, by rw [runOps_drive, hl]; simp only [emit_log, emit_raceTick, List.length_cons]; omega, ?_⟩
      rw [settle_drive, finish_of_drive (d := d) (rest := rest) rfl, runOps_drive]
      refine State.RunsTo.cons (t := finish (settle rest (s.emit (d.event s)))) ?_ hb hn
      refine (step_undisturbed (s := { s with todo := .drive d :: rest })
        ⟨hq.inbox, hq.pending, hq.stopReq, hq.rst⟩ hb hw rfl).trans ?_
      rw [Drive.event_todo]
      exact congrArg _ (congrArg finish (settle_todo rest (.drive d :: rest) (s.emit (d.event s))))

/-- An accepted command, left alone, runs its list to the end. -/
theorem start_runs_to_end (ops : List MicroOp) (s : State) (hq : s.Quiet) :
    ∃ n, (runOps ops { s with busy := true, waited := 0, raced := [] }).log.length +
        (runOps ops { s with busy := true, waited := 0, raced := [] }).raceTick = s.log.length + s.raceTick + n ∧
      (start ops s).RunsTo n (runOps ops { s with busy := true, waited := 0, raced := [] }).over :=
  run_to_end ops _ ⟨hq.inbox, hq.pending, hq.stopReq, hq.rst⟩ rfl rfl

/-- The same, where the list is known to emit the events `es`, to read `rows` rows and to end in `u`. -/
theorem start_runs_reading {ops : List MicroOp} {s u : State} (hq : s.Quiet) (es : List Event) (rows : Nat)
    (h : runOps ops { s with busy := true, waited := 0, raced := [] } = u) (hlog : u.log = es.reverse ++ s.log)
    (ht : u.raceTick = s.raceTick + rows) : (start ops s).RunsTo (es.length + rows) u.over := by
  obtain ⟨n, hl, hn⟩ := start_runs_to_end ops s hq
  rw [h, hlog, ht, List.length_append, List.length_reverse] at hl
  have : n = es.length + rows := by omega
  rwa [h, this] at hn

/-- The same for a command that reads nothing. -/
theorem start_runs {ops : List MicroOp} {s u : State} (hq : s.Quiet) (es : List Event)
    (h : runOps ops { s with busy := true, waited := 0, raced := [] } = u) (hlog : u.log = es.reverse ++ s.log)
    (ht : u.raceTick = s.raceTick) : (start ops s).RunsTo es.length u.over :=
  start_runs_reading hq es 0 h hlog ht

end Sys2Proof.Machine
end

