-- ==== Sys2Proof/Laws/Lists.lean ====
section
/-! SUPPORT. What each micro-operation's list does when it runs: the events it emits, the CR it leaves and the frame
state it moves. -/

namespace Sys2Proof.Machine

/-- The state after events that leave CR at `c`. -/
def State.advance (c : BitVec 8) (es : List Event) (s : State) : State := { s.emitAll es with cr := c }

section
variable (c c' : BitVec 8) (es es' : List Event) (s : State)

@[simp] theorem advance_cr : (s.advance c es).cr = c := rfl
@[simp] theorem advance_log : (s.advance c es).log = es.reverse ++ s.log := rfl
@[simp] theorem advance_pins : (s.advance c es).pins = s.pins.afterAll es := rfl
@[simp] theorem advance_opl : (s.advance c es).opl = s.opl := rfl
@[simp] theorem advance_dmask : (s.advance c es).dmask = s.dmask := rfl
@[simp] theorem advance_width : (s.advance c es).width = s.width := rfl
@[simp] theorem advance_height : (s.advance c es).height = s.height := rfl
@[simp] theorem advance_fstate : (s.advance c es).fstate = s.fstate := rfl
@[simp] theorem advance_row : (s.advance c es).row = s.row := rfl
@[simp] theorem advance_rowbuf1 : (s.advance c es).rowbuf1 = s.rowbuf1 := rfl
@[simp] theorem advance_rowbuf4 : (s.advance c es).rowbuf4 = s.rowbuf4 := rfl
@[simp] theorem advance_outbuf : (s.advance c es).outbuf = s.outbuf := rfl
@[simp] theorem advance_lut : (s.advance c es).lut = s.lut := rfl
@[simp] theorem advance_busy : (s.advance c es).busy = s.busy := rfl
@[simp] theorem advance_err : (s.advance c es).err = s.err := rfl
@[simp] theorem advance_errCode : (s.advance c es).errCode = s.errCode := rfl
@[simp] theorem advance_halted : (s.advance c es).halted = s.halted := rfl
@[simp] theorem advance_rsp : (s.advance c es).rsp = s.rsp := rfl
@[simp] theorem advance_rspValid : (s.advance c es).rspValid = s.rspValid := rfl
@[simp] theorem advance_pending : (s.advance c es).pending = s.pending := rfl
@[simp] theorem advance_packet : (s.advance c es).packet = s.packet := rfl
@[simp] theorem advance_todo : (s.advance c es).todo = s.todo := rfl
@[simp] theorem advance_waited : (s.advance c es).waited = s.waited := rfl
@[simp] theorem advance_rst : (s.advance c es).rst = s.rst := rfl
@[simp] theorem advance_src : (s.advance c es).src = s.src := rfl
@[simp] theorem advance_admit : (s.advance c es).srcAdmit = s.srcAdmit := rfl
@[simp] theorem advance_grayPolicy : (s.advance c es).grayPolicy = s.grayPolicy := rfl
@[simp] theorem advance_stopReq : (s.advance c es).stopReq = s.stopReq := rfl
@[simp] theorem advance_raced : (s.advance c es).raced = s.raced := rfl
@[simp] theorem advance_raceTick : (s.advance c es).raceTick = s.raceTick := rfl
@[simp] theorem advance_inbox : (s.advance c es).inbox = s.inbox := rfl
@[simp] theorem advance_advance : (s.advance c es).advance c' es' = s.advance c' (es ++ es') := by
  simp [State.advance, emitAll_eq, Pins.afterAll]
theorem advance_nil : s.advance s.cr [] = s := rfl
theorem advance_eq : s.advance c es =
    { s with cr := c, log := es.reverse ++ s.log, pins := s.pins.afterAll es } := rfl

end

/-- An event appended to what has been emitted. -/
theorem advance_emit (c : BitVec 8) (es : List Event) (e : Event) (s : State) :
    (s.advance c es).emit e = s.advance c (es ++ [e]) := by
  simp [State.advance, emitAll_eq, State.emit, Pins.afterAll]

/-- Run positions that each emit an event which depends on CR and the row buffers only. -/
theorem runOps_drives (ds : List Drive) (rest : List MicroOp) (s : State) :
    runOps (ds.map .drive ++ rest) s = runOps rest (s.advance s.cr (ds.map fun d => d.event s)) := by
  have go (es : List Event) : runOps (ds.map .drive ++ rest) (s.advance s.cr es) =
      runOps rest (s.advance s.cr (es ++ ds.map fun d => d.event s)) := by
    induction ds generalizing es with
    | nil => simp
    | cons d ds ih =>
      have he : d.event (s.advance s.cr es) = d.event s := by
        cases d <;> simp [Drive.event]
        rename_i buf k i
        cases buf <;> simp [State.rowByte, advance_eq]
      rw [List.map_cons, List.cons_append, runOps_drive, advance_emit, ih, he]
      simp
  exact go []

/-- A Push sends CR and leaves it (spec/40_config_shift_register.md R132). -/
theorem runOps_push (rest : List MicroOp) (s : State) :
    runOps (push ++ rest) s = runOps rest (s.advance s.cr (pushEvents s.cr)) := by
  have h : push = (Drive.set .cfgStr false :: ([7, 6, 5, 4, 3, 2, 1, 0].flatMap (fun k =>
      [.set .cfgClk false, .sendBit k, .set .cfgClk true]) ++ [.set .cfgStr true])).map .drive := rfl
  rw [h, runOps_drives]
  rfl

/-- A SetPush writes one field and sends the new CR (R131). -/
theorem runOps_setPush (f : CrField) (v : Bool) (rest : List MicroOp) (s : State) :
    runOps (setPush f v ++ rest) s =
      runOps rest (s.advance (writeField f v s.cr) (pushEvents (writeField f v s.cr))) := by
  simp only [setPush, List.cons_append]
  rw [runOps_silent_ok (t := { s with cr := writeField f v s.cr }) rfl, runOps_push]
  simp [advance_eq]

theorem runOps_waitFor (n : Nat) (rest : List MicroOp) (s : State) :
    runOps (waitFor n ++ rest) s = runOps rest (s.advance s.cr (waitEvents n)) := by
  unfold waitFor waitEvents
  split
  · rfl
  · exact runOps_drives [.wait n] rest s

theorem runOps_setPin (p : Pin) (v : Bool) (rest : List MicroOp) (s : State) :
    runOps (setPin p v :: rest) s = runOps rest (s.advance s.cr [.set p v]) := runOps_drives [.set p v] rest s

/-- `Pulse(a, b)` (spec/43_frame_pipeline.md R191). -/
theorem runOps_pulse (a b : Nat) (rest : List MicroOp) (s : State) :
    runOps (pulse a b ++ rest) s = runOps rest (s.advance s.cr (pulseEvents a b)) := by
  simp only [pulse, List.cons_append, List.append_assoc, runOps_setPin, runOps_waitFor, advance_cr, advance_advance]
  simp [pulseEvents]

/-- `writeByte(buf[k])` (spec/41_bus_writer.md R150). -/
theorem runOps_writeByte (dmask : Byte) (buf : RowSource) (k : Nat) (rest : List MicroOp) (s : State) :
    runOps (writeByte dmask buf k ++ rest) s = runOps rest (s.advance s.cr (byteEvents dmask (s.rowByte buf k))) := by
  have h : writeByte dmask buf k =
      ((wiredLines dmask).map (Drive.busBit buf k) ++ [Drive.set .ws true, Drive.set .ws false]).map .drive := by
    simp [writeByte, setPin]
  rw [h, runOps_drives]
  simp [byteEvents, Drive.event, Function.comp_def]

theorem rowByte_advance (buf : RowSource) (c : BitVec 8) (es : List Event) (s : State) :
    (s.advance c es).rowByte buf = s.rowByte buf := by
  funext j; cases buf <;> simp [State.rowByte, advance_eq]

/-- `writeLineBytes(buf, n)` (R155). -/
theorem runOps_writeLineBytes (dmask : Byte) (buf : RowSource) (n : Nat) (rest : List MicroOp) (s : State) :
    runOps (writeLineBytes dmask buf n ++ rest) s =
      runOps rest (s.advance s.cr (lineEvents dmask ((List.range n).map (s.rowByte buf)))) := by
  have go (ks : List Nat) (rest : List MicroOp) (s : State) :
      runOps (ks.flatMap (writeByte dmask buf) ++ rest) s =
        runOps rest (s.advance s.cr (lineEvents dmask (ks.map (s.rowByte buf)))) := by
    induction ks generalizing s with
    | nil => rfl
    | cons k ks ih =>
      simp only [List.flatMap_cons, List.append_assoc, runOps_writeByte, ih, rowByte_advance, advance_cr,
        advance_advance, lineEvents, List.map_cons]
  exact go _ rest s

/-- The wired lines are as many as the bits of DMASK that are 1. -/
theorem length_wiredLines (dmask : Byte) : (wiredLines dmask).length = popcount dmask := by revert dmask; decide

/-! ## The frame pipeline -/

theorem writeField_mode_stv (cr : BitVec 8) :
    writeField .mode true cr = cr ||| 0x40#8 ∧ writeField .stv false (cr ||| 0x40#8) = (cr ||| 0x40#8) &&& ~~~0x10#8 ∧
      writeField .stv true ((cr ||| 0x40#8) &&& ~~~0x10#8) = cr ||| 0x50#8 ∧
      writeField .oe true (cr ||| 0x50#8) = cr ||| 0xD0#8 := by
  revert cr; decide

/-- StartFrame from IDLE (spec/43_frame_pipeline.md R193, R194). -/
theorem runOps_startFrame (rest : List MicroOp) (s : State) (hf : s.fstate = .idle) :
    runOps (startFrame ++ rest) s =
      runOps rest (State.advance (crInFrame s.cr) (startFrameEvents s.cr) { s with fstate := .active, row := 0#10 }) := by
  obtain ⟨h1, h2, h3, h4⟩ := writeField_mode_stv s.cr
  simp only [startFrame, List.cons_append, List.append_assoc]
  rw [runOps_silent_ok (t := { s with fstate := .active, row := 0#10 }) (by simp [runSilent, openFrame, hf])]
  simp only [runOps_setPush, runOps_pulse, runOps_waitFor, advance_cr, advance_advance, h1, h2, h3, h4]
  simp [startFrameEvents, crInFrame, waitEvents]

/-- SkipRow in a frame with rows left (R197). -/
theorem runOps_skipRow (rest : List MicroOp) (s : State) (hf : s.fstate = .active) (hr : s.row < s.height) :
    runOps (skipRow ++ rest) s = runOps rest (State.advance s.cr skipRowEvents { s with row := s.row + 1#10 }) := by
  simp only [skipRow, List.cons_append, List.append_assoc]
  rw [runOps_silent_ok (t := s) (by simp [runSilent, requireRow, hf, hr]), runOps_pulse]
  rw [List.nil_append, runOps_silent_ok (t := { s.advance s.cr (pulseEvents 45 5) with row := s.row + 1#10 })
    (by simp [runSilent, advance_eq])]
  simp [advance_eq, skipRowEvents]

theorem writeField_le (cr : BitVec 8) :
    writeField .le true cr = cr ||| 0x01#8 ∧ writeField .le false (cr ||| 0x01#8) = cr &&& ~~~0x01#8 := by
  revert cr; decide

/-- OutputRow in a frame with rows left (R198). -/
theorem runOps_outputRow (dmask : Byte) (buf : RowSource) (n p : Nat) (rest : List MicroOp) (s : State)
    (hf : s.fstate = .active) (hr : s.row < s.height) :
    runOps (outputRow dmask buf n p ++ rest) s =
      runOps rest (State.advance (s.cr &&& ~~~0x01#8)
        (outputRowEvents dmask s.cr ((List.range n).map (s.rowByte buf)) p) { s with row := s.row + 1#10 }) := by
  obtain ⟨h1, h2⟩ := writeField_le s.cr
  simp only [outputRow, latchRow, List.cons_append, List.append_assoc]
  rw [runOps_silent_ok (t := s) (by simp [runSilent, requireRow, hf, hr])]
  simp only [runOps_setPush, runOps_pulse, runOps_writeLineBytes, advance_cr, advance_advance, h1, h2, rowByte_advance]
  rw [List.nil_append]
  rw [runOps_silent_ok (t := State.advance (s.cr &&& ~~~0x01#8)
    (outputRowEvents dmask s.cr ((List.range n).map (s.rowByte buf)) p) { s with row := s.row + 1#10 })]
  simp [runSilent, advance_eq, outputRowEvents, latchRowEvents]

theorem writeField_oe_mode (cr : BitVec 8) :
    writeField .oe false cr = cr &&& ~~~0x80#8 ∧ writeField .mode false (cr &&& ~~~0x80#8) = cr &&& ~~~0xC0#8 := by
  revert cr; decide

/-- EndFrame after HEIGHT row operations (R195, R196). -/
theorem runOps_endFrame (rest : List MicroOp) (s : State) (hf : s.fstate = .active) (hr : s.row = s.height) :
    runOps (endFrame ++ rest) s =
      runOps rest (State.advance (s.cr &&& ~~~0xC0#8) (endFrameEvents s.cr) { s with fstate := .idle, row := 0#10 }) := by
  obtain ⟨h1, h2⟩ := writeField_oe_mode s.cr
  simp only [endFrame, List.cons_append, List.append_assoc]
  rw [runOps_silent_ok (t := s) (by simp [runSilent, requireFull, hf, hr])]
  simp only [runOps_setPush, runOps_pulse, advance_cr, advance_advance, h1, h2]
  rw [List.nil_append]
  rw [runOps_silent_ok (t := State.advance (s.cr &&& ~~~0xC0#8) (endFrameEvents s.cr)
    { s with fstate := .idle, row := 0#10 })]
  simp [runSilent, dropFrame, advance_eq, endFrameEvents]

/-- The row operations of a frame, where the k-th leads from the state `st k` to the state `st (k + 1)`
(spec/43_frame_pipeline.md R202). -/
theorem runOps_rows {h : Nat} {rowop : Nat → List MicroOp} {st : Nat → State} (rest : List MicroOp)
    (hk : ∀ k < h, ∀ rest, runOps (rowop k ++ rest) (st k) = runOps rest (st (k + 1))) :
    runOps ((List.range h).flatMap rowop ++ rest) (st 0) = runOps rest (st h) := by
  induction h generalizing rest with
  | zero => rfl
  | succ h ih =>
    rw [List.range_succ, List.flatMap_append, List.append_assoc, ih _ fun k hlt => hk k (by omega)]
    simpa using hk h (Nat.lt_succ_self h) rest

/-- A whole frame from IDLE, where its row operations lead from the state after StartFrame to `u` (R202). -/
theorem runOps_frame {height : Nat} {rowop : Nat → List MicroOp} {s u : State} (rest : List MicroOp)
    (hf : s.fstate = .idle) (hu : u.fstate = .active) (hr : u.row = u.height)
    (hrows : ∀ rest, runOps ((List.range height).flatMap rowop ++ rest)
      (State.advance (crInFrame s.cr) (startFrameEvents s.cr) { s with fstate := .active, row := 0#10 }) = runOps rest u) :
    runOps (frame height rowop ++ rest) s =
      runOps rest (State.advance (u.cr &&& ~~~0xC0#8) (endFrameEvents u.cr) { u with fstate := .idle, row := 0#10 }) := by
  simp only [frame, List.append_assoc]
  rw [runOps_startFrame _ _ hf, hrows, runOps_endFrame _ _ hu hr]

end Sys2Proof.Machine
end

