-- ==== Sys2Proof/Laws/Memory.lean ====
section
/-! SUPPORT. The source memory: a read after a write, and the canonical form kept by every operation; the internal
arrays: reading a tabulated or overwritten array. -/

namespace Sys2Proof.Machine

/-! ## The source memory -/

theorem wfFrom_mono {l l' : Nat} (h : l' ≤ l) : ∀ {m : Memory}, m.wfFrom l = true → m.wfFrom l' = true
  | [], _ => rfl
  | (a, v) :: rest, hm => by
    simp only [Memory.wfFrom, Bool.and_eq_true, decide_eq_true_eq] at hm ⊢
    exact ⟨⟨⟨h.trans hm.1.1.1, hm.1.1.2⟩, hm.1.2⟩, hm.2⟩

/-- Below its first entry a memory in canonical form reads as blank. -/
theorem read_below : ∀ {m : Memory} {l k : Nat}, m.wfFrom l = true → k < l → m.read k = blankByte
  | [], _, _, _, _ => rfl
  | (a, v) :: rest, l, k, hm, hk => by
    simp only [Memory.wfFrom, Bool.and_eq_true, decide_eq_true_eq] at hm
    have ha : a ≠ k := by omega
    simp only [Memory.read, ha, if_false]
    exact read_below hm.2 (by omega)

theorem wfFrom_write {m : Memory} {l k : Nat} (v : Byte) (hm : m.wfFrom l = true) (hl : l ≤ k) (hk : k < 2 ^ 32) :
    (m.write k v).wfFrom l = true := by
  induction m generalizing l with
  | nil =>
    unfold Memory.write
    split
    · rfl
    · rename_i h
      simp only [Memory.wfFrom, Bool.and_eq_true, decide_eq_true_eq]
      exact ⟨⟨⟨hl, hk⟩, h⟩, trivial⟩
  | cons c rest ih =>
    obtain ⟨a, x⟩ := c
    have hm' := hm
    simp only [Memory.wfFrom, Bool.and_eq_true, decide_eq_true_eq] at hm
    unfold Memory.write
    split
    · split
      · exact hm'
      · rename_i h hv
        have := wfFrom_mono (l := l) (l' := l) le_rfl hm'
        simp only [Memory.wfFrom, Bool.and_eq_true, decide_eq_true_eq]
        exact ⟨⟨⟨hl, hk⟩, hv⟩, ⟨⟨by omega, hm.1.1.2⟩, hm.1.2⟩, hm.2⟩
    · split
      · rename_i h1 h2
        split
        · exact wfFrom_mono (by omega) hm.2
        · rename_i hv
          subst h2
          simp only [Memory.wfFrom, Bool.and_eq_true, decide_eq_true_eq]
          exact ⟨⟨⟨hl, hk⟩, hv⟩, hm.2⟩
      · simp only [Memory.wfFrom, Bool.and_eq_true, decide_eq_true_eq]
        exact ⟨hm.1, ih hm.2 (by omega)⟩

/-- Every memory operation keeps the canonical form: the only one is a write. -/
theorem wf_write {m : Memory} {k : Nat} (v : Byte) (hm : m.wf = true) (hk : k < 2 ^ 32) : (m.write k v).wf = true :=
  wfFrom_write v hm (Nat.zero_le k) hk

/-- A read after a write: the byte written there, and any other byte as before. -/
theorem read_write {m : Memory} {l : Nat} (k k' : Nat) (v : Byte) (hm : m.wfFrom l = true) :
    (m.write k v).read k' = if k' = k then v else m.read k' := by
  induction m generalizing l with
  | nil =>
    unfold Memory.write
    split
    · rename_i h; subst h; simp [Memory.read]
    · simp only [Memory.read]; by_cases h : k = k' <;> simp [h, eq_comm]
  | cons c rest ih =>
    obtain ⟨a, x⟩ := c
    have hm' := hm
    simp only [Memory.wfFrom, Bool.and_eq_true, decide_eq_true_eq] at hm
    unfold Memory.write
    by_cases h1 : k < a
    · simp only [h1, if_true]
      by_cases hv : v = blankByte
      · simp only [hv, if_true]
        split
        · rename_i h2; subst h2
          have hne : a ≠ k' := by omega
          simp only [Memory.read, hne, if_false]
          exact read_below hm.2 (by omega)
        · rfl
      · simp only [hv, if_false, Memory.read]
        by_cases h2 : k = k' <;> simp [h2, eq_comm]
    · by_cases h2 : k = a
      · subst h2
        simp only [lt_irrefl, if_false, if_true]
        by_cases hv : v = blankByte
        · simp only [hv, if_true, Memory.read]
          by_cases h3 : k = k'
          · subst h3; simp only [if_true]; exact read_below hm.2 (by omega)
          · simp [h3, Ne.symm h3]
        · simp only [hv, if_false, Memory.read]
          by_cases h3 : k = k' <;> simp [h3, eq_comm]
      · simp only [h1, h2, if_false, Memory.read, ih hm.2]
        by_cases h3 : a = k'
        · subst h3; simp [Ne.symm h2]
        · simp [h3]

/-! ## The internal arrays -/

theorem getD_tabList (f : Nat → Byte) (i n k : Nat) :
    (tabList f i n).getD k 0#8 = if k < n then f (i + k) else 0#8 := by
  induction n generalizing i k with
  | zero => simp [tabList]
  | succ n ih =>
    cases k with
    | zero => simp [tabList]
    | succ k =>
      simp only [tabList, List.getD_cons_succ, ih, Nat.succ_lt_succ_iff]
      rw [Nat.add_right_comm, Nat.add_assoc]

/-- An entry of a tabulated array. -/
@[simp] theorem entry_tabulate (n : Nat) (f : Nat → Byte) (k : Nat) :
    entry (tabulate n f) k = if k < n then f k else 0#8 := by
  show (tabList f 0 n).getD k 0#8 = _
  rw [getD_tabList, Nat.zero_add]

theorem entry_of_le {n : Nat} (b : Vector Byte n) {k : Nat} (h : n ≤ k) : entry b k = 0#8 := by
  unfold entry
  exact List.getD_eq_default _ _ (by simpa using h)

/-- An entry of an overwritten array. -/
theorem entry_overwrite {n : Nat} (len : Nat) (f : Nat → Byte) (b : Vector Byte n) (k : Nat) :
    entry (overwrite len f b) k = if k < n then (if k < len then f k else entry b k) else 0#8 := by
  simp [overwrite]

/-- Two arrays with the same entries are equal. -/
theorem array_ext {n : Nat} {a b : Vector Byte n} (h : ∀ k < n, entry a k = entry b k) : a = b := by
  apply Vector.ext
  intro k hk
  have := h k hk
  simp only [entry] at this
  rw [List.getD_eq_getElem _ _ (by simpa using hk), List.getD_eq_getElem _ _ (by simpa using hk)] at this
  simpa using this

/-- Overwriting the same entries again leaves only the second values. -/
theorem overwrite_overwrite {n : Nat} (len : Nat) (f g : Nat → Byte) (b : Vector Byte n) :
    overwrite len f (overwrite len g b) = overwrite len f b := by
  apply array_ext
  intro k hk
  simp only [entry_overwrite, hk, if_true]
  split <;> rfl

/-- Only the overwritten entries' values matter. -/
theorem overwrite_congr {n len : Nat} {f g : Nat → Byte} (b : Vector Byte n) (h : ∀ k < len, f k = g k) :
    overwrite len f b = overwrite len g b := by
  apply array_ext
  intro k hk
  simp only [entry_overwrite, hk, if_true]
  split
  · rename_i hl; exact h k hl
  · rfl

end Sys2Proof.Machine
end

