-- ==== Sys2Proof/Laws/PerInstr.lean ====
section
/-! SUPPORT. The shape of every command's packet: what the decoder needs to know of it, one lemma per command. -/

namespace Sys2Proof.Laws.PacketShape

/-- The packet of a command is a word 0 without reserved bits and as many operand words as its opcode asks for, and the
command is built back from the opcode and the operand words (spec/30_encoding.md R91, R92, R94, R95). -/
def Statement (i : Instr) : Prop :=
  ∃ w0 args, encode i = w0 :: args ∧ operandWords (opcodeField w0) = some args.length ∧ reservedField w0 = 0#32 ∧
    buildInstr (opcodeField w0) args = some i

theorem powerOn : Statement .powerOn := ⟨0x00000001#32, [], rfl, rfl, rfl, rfl⟩

theorem powerOff : Statement .powerOff := ⟨0x00000002#32, [], rfl, rfl, rfl, rfl⟩

theorem powerOffAll : Statement .powerOffAll := ⟨0x00000003#32, [], rfl, rfl, rfl, rfl⟩

theorem clear (cycles : Word) : Statement (.clear cycles) := ⟨0x00000004#32, [cycles], rfl, rfl, rfl, rfl⟩

theorem draw1bpp (x y w h src pulse : Word) : Statement (.draw1bpp x y w h src pulse) :=
  ⟨0x00000005#32, [x, y, w, h, src, pulse], rfl, rfl, rfl, rfl⟩

theorem drawGray (x y w h src mode : Word) : Statement (.drawGray x y w h src mode) :=
  ⟨0x00000006#32, [x, y, w, h, src, mode], rfl, rfl, rfl, rfl⟩

theorem getWidth : Statement .getWidth := ⟨0x00000007#32, [], rfl, rfl, rfl, rfl⟩

theorem getHeight : Statement .getHeight := ⟨0x00000008#32, [], rfl, rfl, rfl, rfl⟩

end Sys2Proof.Laws.PacketShape
end

