-- ==== Sys2Proof/Laws/Rows.lean ====
section
/-! SUPPORT. What a composed row depends on: the operand latch, the source memory and what is admitted; and what is read
back from a row buffer that has just been composed. -/

namespace Sys2Proof.Machine

variable {s t : State}

/-- What is admitted depends on SRC_ADMIT alone (spec/20_memory.md R72). -/
theorem admits_congr (ha : t.srcAdmit = s.srcAdmit) : t.admits = s.admits := by funext a; unfold State.admits; rw [ha]

/-- A read of a byte that is in no race returns the stored byte (spec/20_memory.md R84 item 1). -/
theorem readByte_of_no_race (hr : s.raced = []) (a : Word) (col : Nat) : s.readByte a col = s.src.read a.toNat := by
  simp [State.readByte, State.oldValues, hr]

theorem memRead_of_no_race (hr : s.raced = []) (a : Word) (col : Nat) :
    s.memRead a col = if s.admits a then some (s.src.read a.toNat) else none := by
  unfold State.memRead; rw [readByte_of_no_race hr]

theorem memRead_congr (hs : t.src = s.src) (ha : t.srcAdmit = s.srcAdmit) (hr : s.raced = []) (hr' : t.raced = []) :
    t.memRead = s.memRead := by
  funext a col; rw [memRead_of_no_race hr, memRead_of_no_race hr', hs, admits_congr ha]

/-- A read answers exactly where the address is admitted. -/
@[simp] theorem isSome_memRead (a : Word) (col : Nat) : (s.memRead a col).isSome = s.admits a := by
  unfold State.memRead; split <;> simp_all

theorem rowAdmitted1_congr (ho : t.opl = s.opl) (ha : t.srcAdmit = s.srcAdmit) (hw : t.width = s.width) :
    t.rowAdmitted1 = s.rowAdmitted1 := by
  funext R r
  simp only [State.rowAdmitted1, isSome_memRead, State.columns1, State.rowLen1, State.pixelAddr1, ho, hw, admits_congr ha]

theorem rowAdmitted4_congr (ho : t.opl = s.opl) (ha : t.srcAdmit = s.srcAdmit) (hw : t.width = s.width) :
    t.rowAdmitted4 = s.rowAdmitted4 := by
  funext R r
  simp only [State.rowAdmitted4, isSome_memRead, State.columns4, State.rowLen4, State.pixelAddr4, ho, hw, admits_congr ha]

theorem pixel1_congr (ho : t.opl = s.opl) (hs : t.src = s.src) (ha : t.srcAdmit = s.srcAdmit) (hr : s.raced = [])
    (hr' : t.raced = []) : t.pixel1 = s.pixel1 := by
  funext R r c
  simp only [State.pixel1, State.admittedByte, State.pixelAddr1, ho, memRead_congr hs ha hr hr']

theorem pixel4_congr (ho : t.opl = s.opl) (hs : t.src = s.src) (ha : t.srcAdmit = s.srcAdmit) (hr : s.raced = [])
    (hr' : t.raced = []) : t.pixel4 = s.pixel4 := by
  funext R r c
  simp only [State.pixel4, State.admittedByte, State.pixelAddr4, ho, memRead_congr hs ha hr hr']

theorem rowByte1_congr (ho : t.opl = s.opl) (hs : t.src = s.src) (ha : t.srcAdmit = s.srcAdmit) (hr : s.raced = [])
    (hr' : t.raced = []) : t.rowByte1 = s.rowByte1 := by
  funext R r k
  simp only [State.rowByte1, pixel1_congr ho hs ha hr hr']

theorem rowByte4_congr (ho : t.opl = s.opl) (hs : t.src = s.src) (ha : t.srcAdmit = s.srcAdmit) (hr : s.raced = [])
    (hr' : t.raced = []) : t.rowByte4 = s.rowByte4 := by
  funext R r k
  simp only [State.rowByte4, pixel4_congr ho hs ha hr hr']

/-- A row fits its buffer on every panel (spec/20_memory.md R89). -/
theorem rowLen1_le (hw : s.width.toNat ≤ Config.maxWidth) : s.rowLen1 ≤ Config.rowbuf1Bytes := by
  simp only [State.rowLen1, Config.maxWidth, Config.rowbuf1Bytes] at *; omega

theorem rowLen4_le (hw : s.width.toNat ≤ Config.maxWidth) : s.rowLen4 ≤ Config.rowbuf4Bytes := by
  simp only [State.rowLen4, Config.maxWidth, Config.rowbuf4Bytes] at *; omega

theorem rowLenOut_le (hw : s.width.toNat ≤ Config.maxWidth) : s.rowLenOut ≤ Config.outbufBytes := by
  simp only [State.rowLenOut, State.rowLen4, Config.maxWidth, Config.outbufBytes] at *; omega

/-- The two scratch bytes of an output byte lie in the scratch row (spec/45_grayscale_engine.md R263). -/
theorem scratch_lt {j : Nat} (hj : j < s.rowLenOut) : 2 * j + 1 < s.rowLen4 := by
  simp only [State.rowLenOut] at hj; omega

/-- The bytes sent from a buffer whose first bytes have just been overwritten. -/
theorem map_entry_overwrite {n len : Nat} (f : Nat → Byte) (b : Vector Byte n) (h : len ≤ n) :
    (List.range len).map (entry (overwrite len f b)) = (List.range len).map f := by
  apply List.map_congr_left
  intro k hk
  have hk : k < len := by simpa using hk
  rw [entry_overwrite, if_pos (Nat.lt_of_lt_of_le hk h), if_pos hk]

/-- Bit 7 − i of a byte made of eight bits is bit number i, counted from the left (spec/30_encoding.md R107). -/
theorem getLsbD_byteOfBits (f : Nat → Bool) {i : Nat} (h : i < 8) :
    (byteOfBits (f 0) (f 1) (f 2) (f 3) (f 4) (f 5) (f 6) (f 7)).getLsbD (7 - i) = f i := by
  have all : ∀ b0 b1 b2 b3 b4 b5 b6 b7 : Bool, ∀ i : Fin 8,
      (byteOfBits b0 b1 b2 b3 b4 b5 b6 b7).getLsbD (7 - i) = [b0, b1, b2, b3, b4, b5, b6, b7].getD i false := by decide
  refine (all (f 0) (f 1) (f 2) (f 3) (f 4) (f 5) (f 6) (f 7) ⟨i, h⟩).trans ?_
  have h0 : i = 0 ∨ i = 1 ∨ i = 2 ∨ i = 3 ∨ i = 4 ∨ i = 5 ∨ i = 6 ∨ i = 7 := by omega
  obtain rfl | rfl | rfl | rfl | rfl | rfl | rfl | rfl := h0 <;> rfl

/-- Column c of a row of pixels is bit 7 − (c mod 8) of its byte c/8 (spec/30_encoding.md R107). -/
theorem getLsbD_packByte1 (px : Nat → Bool) (c : Nat) : (packByte1 px (c / 8)).getLsbD (7 - c % 8) = px c := by
  have h := getLsbD_byteOfBits (fun i => px (8 * (c / 8) + i)) (Nat.mod_lt c (by decide : 0 < 8))
  rwa [Nat.div_add_mod] at h

/-- Column c of a row of pixels is the high nibble of its byte c/2 for an even c, and the low one for an odd c
(spec/30_encoding.md R108). -/
theorem extractLsb'_packByte4 (px : Nat → BitVec 4) (c : Nat) :
    (packByte4 px (c / 2)).extractLsb' (if c % 2 = 0 then 4 else 0) 4 = px c := by
  have hi : ∀ a b : BitVec 4, (a ++ b).extractLsb' 4 4 = a := by decide
  have lo : ∀ a b : BitVec 4, (a ++ b).extractLsb' 0 4 = b := by decide
  unfold packByte4
  split
  · rw [hi, show 2 * (c / 2) = c by omega]
  · rw [lo, show 2 * (c / 2) + 1 = c by omega]

/-- The LUT index of an output byte, over the two scratch bytes: the low byte and the low nibble of the high one
(spec/30_encoding.md R110). -/
theorem lutIndex_toNat (s : State) (j : Nat) :
    (s.lutIndex j).toNat = (entry s.rowbuf4 (2 * j)).toNat + 256 * ((entry s.rowbuf4 (2 * j + 1)).toNat % 16) := by
  simp only [State.lutIndex, State.scratchWord, BitVec.toNat_setWidth, BitVec.toNat_append]
  have hl := (entry s.rowbuf4 (2 * j)).isLt
  rw [← Nat.shiftLeft_add_eq_or_of_lt hl, Nat.shiftLeft_eq]
  omega

end Sys2Proof.Machine
end

