-- ==== Sys2Proof/Laws/Port.lean ====
section
/-! SUPPORT. What the ports can do, said once: what a command is accepted as, what the decoder does with a word, what
follows a move of the running command, and what one step can be. -/

namespace Sys2Proof.Machine

/-! ## Commands -/

/-- The operand latch after a command's acceptance (spec/30_encoding.md R97). -/
def latchOperands (i : Instr) (o : OperandLatch) : OperandLatch :=
  match i with
  | .clear cycles => { o with cycles := cycles }
  | .draw1bpp x y w h src pulse => { o with x := x, y := y, w := w, h := h, src := src, pulse := pulse }
  | .drawGray x y w h src mode => { o with x := x, y := y, w := w, h := h, src := src, mode := mode.setWidth 2 }
  | .powerOn => o
  | .powerOff => o
  | .powerOffAll => o
  | .getWidth => o
  | .getHeight => o

/-- The state in which a command's list is computed. -/
def State.latched (s : State) (i : Instr) : State := { s with opl := latchOperands i s.opl }

/-- The list of a command that drives the lines; `none` for the commands that read a dimension back. -/
def commandList (i : Instr) (s : State) : Option (List MicroOp) :=
  match i with
  | .powerOn => some powerOnList
  | .powerOff => some powerOffList
  | .powerOffAll => some powerOffAllList
  | .clear _ => some (clearList (s.latched i))
  | .draw1bpp _ _ _ _ _ _ => some (draw1bppList (s.latched i))
  | .drawGray _ _ _ _ _ _ => some (drawGrayList (s.latched i))
  | .getWidth => none
  | .getHeight => none

/-- What exec can do: start a command's list with its operands latched, or respond with a dimension. -/
theorem exec_cases (i : Instr) (s : State) :
    (∃ ops, commandList i s = some ops ∧ exec i s = .next (start ops (s.latched i))) ∨
    (i = .getWidth ∧ exec i s = .next (respond s.width s)) ∨
    (i = .getHeight ∧ exec i s = .next (respond s.height s)) := by
  cases i
  case getWidth => exact .inr (.inl ⟨rfl, rfl⟩)
  case getHeight => exact .inr (.inr ⟨rfl, rfl⟩)
  all_goals exact .inl ⟨_, rfl, rfl⟩

/-- Every command has a next state. -/
theorem exec_next (i : Instr) (s : State) : ∃ t, exec i s = .next t := by
  obtain ⟨_, _, h⟩ | ⟨_, h⟩ | ⟨_, h⟩ := exec_cases i s <;> exact ⟨_, h⟩

/-- Preemption starts POWER_OFF_ALL's list on the cut state, after a fault that falls at the same point. -/
theorem preempt_eq (s : State) : preempt s = .next (start powerOffAllList (cutShort (readFault s))) := rfl

/-- What a preemption point finds: nothing to take first, or a halting fault of the row that is about to be read. -/
theorem readFault_cases (s : State) :
    readFault s = s ∨ ∃ i rest c, s.todo = .silent i :: rest ∧ runSilent i (countRead i s) = .error c ∧
      readFault s = takeFaultAt c i s := by
  unfold readFault
  split
  · rename_i i rest ht
    split
    · exact .inl rfl
    · rename_i c hc
      exact .inr ⟨i, rest, c, ht, hc, rfl⟩
  · exact .inl rfl

/-- Where the running command reads a row, an admitted row raises no fault, and one that is not raises SRC_FAULT. -/
theorem runSilent_reads {s : State} {i : Silent} {rest : List MicroOp} (ht : s.todo = .silent i :: rest)
    (hr : i.reads = true) :
    (s.readsAdmitted = true → ∃ t, runSilent i (countRead i s) = .ok t) ∧
      (s.readsAdmitted = false → runSilent i (countRead i s) = .error .srcFault) := by
  have hc := countRead_of_reads hr s
  have h1 : State.rowAdmitted1 { s with raceTick := s.raceTick + 1 } = s.rowAdmitted1 := rowAdmitted1_congr rfl rfl rfl
  have h4 : State.rowAdmitted4 { s with raceTick := s.raceTick + 1 } = s.rowAdmitted4 := rowAdmitted4_congr rfl rfl rfl
  rw [hc]
  cases i with
  | compose1 R r =>
    have ha : s.readsAdmitted = s.rowAdmitted1 R r := by simp [State.readsAdmitted, ht]
    rw [ha, ← h1]
    exact ⟨fun h => ⟨_, if_pos h⟩, fun h => if_neg (by simp [h])⟩
  | compose4 R r =>
    have ha : s.readsAdmitted = s.rowAdmitted4 R r := by simp [State.readsAdmitted, ht]
    rw [ha, ← h4]
    exact ⟨fun h => ⟨_, if_pos h⟩, fun h => if_neg (by simp [h])⟩
  | _ => cases hr

/-- Nothing is taken first where the running command is about to emit an event, or to read a row that is admitted. -/
theorem readFault_of_readsAdmitted {s : State} (hm : headMoves s.todo = true) (ha : s.readsAdmitted = true) :
    readFault s = s := by
  obtain h | ⟨i, rest, c, ht, hc, -⟩ := readFault_cases s
  · exact h
  · rw [ht] at hm
    obtain ⟨t, h⟩ := (runSilent_reads ht hm).1 ha
    rw [h] at hc; cases hc

/-- A row that is not admitted is a SRC_FAULT at the preemption point before it (spec/60_exceptions.md R325 (d)). -/
theorem readFault_of_reads {s : State} {i : Silent} {rest : List MicroOp} (ht : s.todo = .silent i :: rest)
    (hr : i.reads = true) (ha : s.readsAdmitted = false) :
    readFault s = takeHaltingFault .srcFault (halfCompose i { s with raceTick := s.raceTick + 1 }) := by
  have he := (runSilent_reads ht hr).2 ha
  rw [← takeFaultAt_of_reads hr]
  unfold readFault
  split
  · rename_i j rest' ht'
    cases ht.symm.trans ht'
    rw [he]
  · rename_i hn
    exact absurd ht (hn i rest)

/-- The running command's move is the same fault (spec/60_exceptions.md R323). -/
theorem performNext_of_reads {s : State} {i : Silent} {rest : List MicroOp} (ht : s.todo = .silent i :: rest)
    (hr : i.reads = true) (ha : s.readsAdmitted = false) :
    performNext s = takeHaltingFault .srcFault (halfCompose i { s with raceTick := s.raceTick + 1 }) := by
  have he := (runSilent_reads ht hr).2 ha
  rw [← takeFaultAt_of_reads hr]
  obtain ⟨d, rest', h, -⟩ | ⟨j, rest', t, h, hk, -⟩ | ⟨j, rest', c, h, hc, hp⟩ | ⟨h, -⟩ := performNext_cases s
  · rw [ht] at h; cases h
  · rw [ht] at h; cases h; rw [he] at hk; cases hk
  · rw [ht] at h; cases h; rw [he] at hc; cases hc; exact hp
  · rw [ht] at h; cases h

/-! ## The decoder's port -/

/-- What a word given to the decoder can lead to. -/
theorem feedDecoder_cases {w : Word} {s t : State} (h : feedDecoder w s = .next t) :
    (decode (s.packet ++ [w]) = .incomplete ∧ t = { s with packet := s.packet ++ [w] }) ∨
    (∃ i rest, decode (s.packet ++ [w]) = .accept i rest ∧ (s.halted = false ∨ i = .powerOffAll) ∧
      exec i { s with packet := rest } = .next t) ∨
    (∃ i rest, decode (s.packet ++ [w]) = .accept i rest ∧ s.halted = true ∧ i ≠ .powerOffAll ∧
      t = { s with packet := rest }) ∨
    (∃ e rest, decode (s.packet ++ [w]) = .refuse e rest ∧ s.halted = true ∧ t = { s with packet := rest }) ∨
    (∃ e rest, decode (s.packet ++ [w]) = .refuse e rest ∧ s.halted = false ∧
      t = { s with packet := rest }.recordError (refusalCode e)) := by
  unfold feedDecoder at h
  split at h
  · rename_i hd
    cases h; exact .inl ⟨hd, rfl⟩
  · rename_i i rest hd
    unfold runPacket at h
    split at h
    · rename_i hh
      cases h; exact .inr (.inr (.inl ⟨i, rest, hd, hh.1, hh.2, rfl⟩))
    · rename_i hh
      refine .inr (.inl ⟨i, rest, hd, ?_, h⟩)
      by_cases hi : i = .powerOffAll
      · exact .inr hi
      · exact .inl (by simpa [hi] using hh)
  · rename_i e rest hd
    unfold refusePacket at h
    split at h
    · rename_i hh
      cases h; exact .inr (.inr (.inr (.inl ⟨e, rest, hd, hh, rfl⟩)))
    · rename_i hh
      cases h; exact .inr (.inr (.inr (.inr ⟨e, rest, hd, by simpa using hh, rfl⟩)))

/-- The word that completes an unfinished packet is its last word: nothing is left over (spec/30_encoding.md R96). -/
theorem decode_rest_of_open {p : List Word} {w : Word} (h : decode p = .incomplete) :
    (∀ i rest, decode (p ++ [w]) = .accept i rest → rest = []) ∧
      (∀ e rest, decode (p ++ [w]) = .refuse e rest → rest = []) := by
  have key : ∀ ws rest, ((∃ i, decode (ws ++ [w]) = .accept i rest) ∨ (∃ e, decode (ws ++ [w]) = .refuse e rest)) →
      decode ws = .incomplete → rest = [] := by
    intro ws rest hd hi
    cases ws with
    | nil =>
      simp only [List.nil_append, decode] at hd
      split at hd
      · rcases hd with ⟨_, h⟩ | ⟨_, h⟩ <;> cases h; rfl
      · repeat' split at hd
        all_goals (rcases hd with ⟨_, h⟩ | ⟨_, h⟩ <;> cases h)
        all_goals simp
    | cons w0 ws =>
      simp only [List.cons_append, decode] at hd hi
      split at hi
      · cases hi
      · rename_i n hn
        rw [hn] at hd
        simp only at hd
        split at hi
        · rename_i hlt
          repeat' split at hd
          all_goals (rcases hd with ⟨_, h⟩ | ⟨_, h⟩ <;> cases h)
          all_goals (simp; omega)
        · repeat' split at hi
          all_goals cases hi
  exact ⟨fun i rest h' => key p rest (.inl ⟨i, h'⟩) h, fun e rest h' => key p rest (.inr ⟨e, h'⟩) h⟩

/-- A word given to the decoder always has a next state. -/
theorem feedDecoder_next (w : Word) (s : State) : ∃ t, feedDecoder w s = .next t := by
  unfold feedDecoder runPacket
  split
  · exact ⟨_, rfl⟩
  · split
    · exact ⟨_, rfl⟩
    · exact exec_next _ _
  · exact ⟨_, rfl⟩

/-! ## Moves -/

/-- What follows a move of the running command. -/
theorem afterMove_cases {s t : State} (h : afterMove s = .next t) :
    ((s.busy = true ∨ s.stopReq = false ∧ s.pending = none) ∧ t = s) ∨
    (s.busy = false ∧ s.stopReq = true ∧ t = start powerOffAllList (cutShort (readFault s))) ∨
    (s.busy = false ∧ s.stopReq = false ∧ ∃ w, s.pending = some w ∧ feedDecoder w { s with pending := none } = .next t) := by
  unfold afterMove at h
  split at h
  · rename_i hb
    cases h; exact .inl ⟨.inl hb, rfl⟩
  · rename_i hb
    have hb : s.busy = false := by simpa using hb
    split at h
    · rename_i hs
      rw [preempt_eq] at h
      cases h; exact .inr (.inl ⟨hb, hs, rfl⟩)
    · rename_i hs
      have hs : s.stopReq = false := by simpa using hs
      split at h
      · rename_i hp
        cases h; exact .inl ⟨.inr ⟨hs, hp⟩, rfl⟩
      · rename_i w hp
        exact .inr (.inr ⟨hb, hs, w, hp, h⟩)

theorem afterMove_next (s : State) : ∃ t, afterMove s = .next t := by
  unfold afterMove
  split
  · exact ⟨_, rfl⟩
  · split
    · exact ⟨_, rfl⟩
    · split
      · exact ⟨_, rfl⟩
      · exact feedDecoder_next _ _

/-- What a step can be, up to the schedule: `s` is the state with the schedule it has left, and `act` the act it has
taken off the schedule. -/
inductive Moves (act : Option PortAct) (s : State) : State → Prop where
  /-- nothing happens -/
  | rest : Moves act s s
  /-- the running command performs its next event, or reads its next row -/
  | event {t : State} (hb : s.busy = true) (h : afterMove (performNext s) = .next t) : Moves act s t
  /-- time passes inside the running command -/
  | time {t : State} (us : Nat) (hb : s.busy = true) (h : afterMove (passTime us s) = .next t) : Moves act s t
  /-- a preemption is taken -/
  | stop (h : s.stopReq = true) : Moves act s (start powerOffAllList (cutShort (readFault s)))
  /-- a word goes to the decoder -/
  | word {t : State} (w : Word) (hr : s.rst = false) (hb : s.busy = false) (h : feedDecoder w s = .next t)
    (ha : act = some (.word w)) : Moves act s t
  /-- POWER_OFF_ALL's word asks for preemption -/
  | ask (hr : s.rst = false) (hb : s.busy = true) (hp : s.pending = none) : Moves act s { s with stopReq := true }
  /-- a word is held -/
  | hold (w : Word) (hr : s.rst = false) (hb : s.busy = true) (hp : s.pending = none) (hw : w ≠ stopWord) :
    Moves act s { s with pending := some w }
  | acknowledge (ha : act = some .ack) : Moves act s (acknowledge s)
  | write (a : Word) (b : Byte) (ha : act = some (.write a b)) : Moves act s (hostWrite a b s)
  | memOk (regions : List Region) (ha : act = some (.memOk regions)) : Moves act s (setAdmit regions s)
  | assertRst (ha : act = some .assertRst) : Moves act s (assertRst s)
  | releaseRst (reqW reqH : Word) (dmaskIn : Byte) (hr : s.rst = true)
    (ha : act = some (.releaseRst reqW reqH dmaskIn)) : Moves act s (releaseRst reqW reqH dmaskIn s)

theorem moveCore_moves {act : Option PortAct} {s t : State} (h : moveCore s = .next t) : Moves act s t := by
  unfold moveCore at h
  split at h
  · rename_i hb; exact .event hb h
  · cases h; exact .rest

theorem moveOrStop_moves {act : Option PortAct} {s t : State} (h : moveOrStop s = .next t) : Moves act s t := by
  unfold moveOrStop at h
  split at h
  · rename_i hs
    rw [preempt_eq] at h
    cases h; exact .stop hs
  · exact moveCore_moves h

theorem transfer_moves {w : Word} {s t : State} (hc : s.cmdReady = true) (h : transfer w s = .next t) :
    Moves (some (.word w)) s t := by
  obtain ⟨hr, hc⟩ : s.rst = false ∧ (s.busy = false ∨ s.pending = none) := by simpa [State.cmdReady] using hc
  unfold transfer at h
  split at h
  · rename_i hb
    have hp : s.pending = none := by simpa [hb] using hc
    split at h
    · cases h; exact .ask hr hb hp
    · rename_i hw
      cases h; exact .hold w hr hb hp hw
  · rename_i hb
    exact .word w hr (by simpa using hb) h rfl

/-- What one step can be. -/
theorem step_moves {s t : State} (h : step s = .next t) :
    Moves none s t ∨ ∃ a rest, s.inbox = a :: rest ∧ Moves (some a) { s with inbox := rest } t := by
  unfold step move at h
  split at h
  · exact .inl (moveOrStop_moves h)
  · rename_i a rest hi
    cases a with
    | word w =>
      simp only [takeAct] at h
      split at h
      · rename_i hc
        exact .inr ⟨_, rest, hi, transfer_moves hc h⟩
      · split at h
        · cases h; exact .inr ⟨_, rest, hi, .rest⟩
        · exact .inl (moveOrStop_moves h)
    | ack => cases h; exact .inr ⟨_, rest, hi, .acknowledge rfl⟩
    | write addr b => cases h; exact .inr ⟨_, rest, hi, .write addr b rfl⟩
    | memOk regions => cases h; exact .inr ⟨_, rest, hi, .memOk regions rfl⟩
    | assertRst => cases h; exact .inr ⟨_, rest, hi, .assertRst rfl⟩
    | releaseRst reqW reqH dmaskIn =>
      simp only [takeAct] at h
      split at h
      · rename_i hr
        cases h; exact .inr ⟨_, rest, hi, .releaseRst reqW reqH dmaskIn hr rfl⟩
      · cases h; exact .inr ⟨_, rest, hi, .rest⟩
    | core => exact .inr ⟨_, rest, hi, moveCore_moves h⟩
    | time us =>
      simp only [takeAct] at h
      split at h
      · rename_i hb
        exact .inr ⟨_, rest, hi, .time us hb h⟩
      · cases h; exact .inr ⟨_, rest, hi, .rest⟩
    | waitIdle =>
      simp only [takeAct] at h
      split at h
      · exact .inl (moveOrStop_moves h)
      · cases h; exact .inr ⟨_, rest, hi, .rest⟩
    | stopPoint =>
      simp only [takeAct] at h
      split at h
      · rename_i hs
        rw [preempt_eq] at h
        cases h; exact .inr ⟨_, rest, hi, .stop hs⟩
      · cases h; exact .inr ⟨_, rest, hi, .rest⟩

end Sys2Proof.Machine
end

