-- ==== Sys2Proof/Laws/Walks.lean ====
section
/-! SUPPORT. What the micro-operations' lists may hold and how they walk the frame state machine and CR.LE: for each
list one lemma per property of Safety.lean, and one for every command. -/

namespace Sys2Proof.Machine

/-! ## Allowed positions -/

/-- Every position of the list is allowed. -/
def ListAllowed (d : Byte) (l : List MicroOp) : Prop := ∀ op ∈ l, opAllowed d op = true

theorem listAllowed_append {d a b} (ha : ListAllowed d a) (hb : ListAllowed d b) : ListAllowed d (a ++ b) :=
    fun op h => (List.mem_append.mp h).elim (ha op) (hb op)

theorem listAllowed_cons {d o b} (ha : opAllowed d o = true) (hb : ListAllowed d b) : ListAllowed d (o :: b) :=
    fun op h => (List.mem_cons.mp h).elim (fun e => e ▸ ha) (hb op)

theorem listAllowed_nil {d} : ListAllowed d [] := fun op h => by cases h

theorem listAllowed_push (d) : ListAllowed d push := by
  intro op h
  simp [push, sendBit, setPin] at h
  rcases h with rfl | h
  · rfl
  · rcases h with rfl | h
    · rfl
    · rcases op with op | op
      · cases op <;> simp_all [opAllowed]
        rename_i p v
        rcases p <;> simp_all
      · rfl

theorem listAllowed_setPush (d f v) : ListAllowed d (setPush f v) := listAllowed_cons rfl (listAllowed_push d)

theorem listAllowed_waitFor (d n) : ListAllowed d (waitFor n) := by
  unfold waitFor; split
  · exact listAllowed_nil
  · exact listAllowed_cons (by simp [opAllowed]; omega) listAllowed_nil

theorem listAllowed_pulse (d a b) : ListAllowed d (pulse a b) :=
    listAllowed_cons rfl (listAllowed_append (listAllowed_waitFor d a) (listAllowed_cons rfl
        (listAllowed_waitFor d b)))

theorem getLsbD_of_mem_wiredLines {d : Byte} {i : Fin 8} (h : i ∈ wiredLines d) : d.getLsbD i = true :=
    (List.mem_filter.mp h).2

theorem listAllowed_writeByte (d buf k) : ListAllowed d (writeByte d buf k) := by
  refine listAllowed_append ?_ (listAllowed_cons rfl (listAllowed_cons rfl listAllowed_nil))
  intro op h
  obtain ⟨i, hi, rfl⟩ := List.mem_map.mp h
  exact getLsbD_of_mem_wiredLines hi

theorem listAllowed_flatMap {d} {α} (l : List α) (f : α → List MicroOp) (h : ∀ a ∈ l, ListAllowed d (f a)) :
    ListAllowed d (l.flatMap f) := by
  intro op ho
  obtain ⟨a, ha, ho⟩ := List.mem_flatMap.mp ho
  exact h a ha op ho

theorem listAllowed_writeLineBytes (d buf n) : ListAllowed d (writeLineBytes d buf n) :=
    listAllowed_flatMap _ _ fun k _ => listAllowed_writeByte d buf k

theorem listAllowed_outputRow (d buf n p) : ListAllowed d (outputRow d buf n p) :=
  listAllowed_cons rfl (listAllowed_append (listAllowed_append (listAllowed_append (listAllowed_append
      (listAllowed_append (listAllowed_setPush _ _ _) (listAllowed_setPush _ _ _)) (listAllowed_pulse _ _ _))
          (listAllowed_writeLineBytes _ _ _)) (listAllowed_pulse _ _ _)) (listAllowed_cons rfl listAllowed_nil))

theorem listAllowed_skipRow (d) : ListAllowed d skipRow :=
    listAllowed_cons rfl (listAllowed_append (listAllowed_pulse _ _ _) (listAllowed_cons rfl listAllowed_nil))

theorem listAllowed_startFrame (d) : ListAllowed d startFrame := listAllowed_cons rfl (by
  repeat' apply listAllowed_append
  all_goals first | exact listAllowed_setPush _ _ _ | exact listAllowed_pulse _ _ _ | exact listAllowed_waitFor _ _)

theorem listAllowed_endFrame (d) : ListAllowed d endFrame := listAllowed_cons rfl (by
  repeat' apply listAllowed_append
  all_goals first | exact listAllowed_setPush _ _ _ | exact listAllowed_pulse _ _ _ | exact listAllowed_cons rfl listAllowed_nil)

theorem listAllowed_frame (d h f) (hf : ∀ r, ListAllowed d (f r)) : ListAllowed d (frame h f) :=
    listAllowed_append (listAllowed_append (listAllowed_startFrame d) (listAllowed_flatMap _ _ fun r _ => hf r))
        (listAllowed_endFrame d)

/-- Every command's list holds only what a list may hold. -/
theorem listAllowed_commandList (i : Instr) (s : State) (ops) (h : commandList i s = some ops) :
    ListAllowed s.dmask ops := by
  cases i <;> simp only [commandList] at h <;> cases h
  · simp only [powerOnList]; repeat' apply listAllowed_append
    all_goals first | exact listAllowed_setPush _ _ _ | exact listAllowed_pulse _ _ _ | exact listAllowed_waitFor _ _ | exact listAllowed_cons rfl listAllowed_nil
  · simp only [powerOffList]; repeat' apply listAllowed_append
    all_goals first | exact listAllowed_setPush _ _ _ | exact listAllowed_pulse _ _ _ | exact listAllowed_waitFor _ _
  · exact listAllowed_cons rfl (listAllowed_cons rfl (listAllowed_push _))
  · intro op ho
    obtain ⟨l, hl, ho⟩ := List.mem_flatten.mp ho
    rw [List.eq_of_mem_replicate hl] at ho
    have : ∀ b, ListAllowed s.dmask (clearFrame (s.latched (.clear ‹_›)) b) :=
        fun b => listAllowed_cons rfl (listAllowed_append
            (listAllowed_frame _ _ _ fun r => listAllowed_outputRow _ _ _ _) (listAllowed_waitFor _ _))
    exact listAllowed_append (this _) (this _) op ho
  · unfold draw1bppList; split
    · exact listAllowed_nil
    · refine listAllowed_frame _ _ _ fun r => ?_
      unfold drawRow1; split
      · exact listAllowed_cons rfl (listAllowed_outputRow _ _ _ _)
      · exact listAllowed_skipRow _
  · unfold drawGrayList; split
    · exact listAllowed_nil
    · refine listAllowed_flatMap _ _ fun p _ => listAllowed_cons rfl (listAllowed_cons rfl (listAllowed_append
          (listAllowed_frame _ _ _ fun r => ?_) (listAllowed_waitFor _ _)))
      unfold grayRow; split
      · exact listAllowed_cons rfl (listAllowed_cons rfl (listAllowed_outputRow _ _ _ _))
      · exact listAllowed_skipRow _

/-! ## The frame state machine -/

/-- A position that does not move the frame state machine and requires nothing of it. -/
def keepsFrame : MicroOp → Bool
  | .silent .dropFrame => false
  | .silent .openFrame => false
  | .silent .requireRow => false
  | .silent .countRow => false
  | .silent .requireFull => false
  | .silent .closeFrame => false
  | _ => true

/-- Positions that leave the frame state machine alone drop out of the walk. -/
theorem frameWalk_skip (H) (l r : List MicroOp) (hl : ∀ op ∈ l, keepsFrame op = true) (f n) :
    frameWalk H (l ++ r) f n = frameWalk H r f n := by
  induction l with
  | nil => rfl
  | cons op l ih =>
    have h := hl op (by simp)
    have ih := ih (fun o ho => hl o (by simp [ho]))
    rw [← ih]
    cases op with
    | drive d => rfl
    | silent i => cases i <;> first | rfl | cases h

theorem keepsFrame_append {a b : List MicroOp} (ha : ∀ op ∈ a, keepsFrame op = true) (hb : ∀ op ∈ b,
    keepsFrame op = true) : ∀ op ∈ a ++ b,
        keepsFrame op = true := fun op h => (List.mem_append.mp h).elim (ha op) (hb op)

theorem keepsFrame_push : ∀ op ∈ push, keepsFrame op = true := by decide

theorem keepsFrame_setPush (f v) : ∀ op ∈ setPush f v, keepsFrame op = true :=
    fun op h => (List.mem_cons.mp h).elim (fun e => e ▸ rfl) (keepsFrame_push op)

theorem keepsFrame_waitFor (n) : ∀ op ∈ waitFor n, keepsFrame op = true :=
    by unfold waitFor; split <;> simp [keepsFrame]

theorem keepsFrame_pulse (a b) : ∀ op ∈ pulse a b, keepsFrame op = true := by
  intro op h
  simp only [pulse, List.mem_cons, List.mem_append] at h
  rcases h with rfl | h | rfl | h
  · rfl
  · exact keepsFrame_waitFor _ _ h
  · rfl
  · exact keepsFrame_waitFor _ _ h

theorem keepsFrame_writeLineBytes (d buf n) : ∀ op ∈ writeLineBytes d buf n, keepsFrame op = true := by
  intro op h
  obtain ⟨k, _, h⟩ := List.mem_flatMap.mp h
  simp only [writeByte, List.mem_append, List.mem_map] at h
  rcases h with ⟨i, _, rfl⟩ | h
  · rfl
  · simp only [List.mem_cons, List.not_mem_nil, or_false] at h; rcases h with rfl | rfl <;> rfl

/-- StartFrame leads from IDLE to ACTIVE with ROW = 0 (spec/43_frame_pipeline.md R190). -/
theorem frameWalk_startFrame (H r n) : frameWalk H (startFrame ++ r) .idle n = frameWalk H r .active 0#10 := by
  simp only [startFrame, List.cons_append, frameWalk, beq_self_eq_true, Bool.true_and]
  apply frameWalk_skip
  repeat' apply keepsFrame_append
  all_goals first | exact keepsFrame_setPush _ _ | exact keepsFrame_pulse _ _ | exact keepsFrame_waitFor _

/-- EndFrame leads from ACTIVE with ROW = HEIGHT to IDLE (R190). -/
theorem frameWalk_endFrame (H r) : frameWalk H (endFrame ++ r) .active H = frameWalk H r .idle 0#10 := by
  simp only [endFrame, List.cons_append, frameWalk, beq_self_eq_true, Bool.true_and, List.append_assoc]
  repeat (rw [frameWalk_skip]; swap; first | exact keepsFrame_setPush _ _ | exact keepsFrame_pulse _ _)
  rfl

/-- SkipRow counts one row (R190). -/
theorem frameWalk_skipRow (H : BitVec 10) (r n) (h : n < H) :
    frameWalk H (skipRow ++ r) .active n = frameWalk H r .active (n+1#10) := by
  simp only [skipRow, List.cons_append, frameWalk, beq_self_eq_true, Bool.true_and, List.append_assoc, h,
      decide_true]
  rw [frameWalk_skip _ _ _ (keepsFrame_pulse _ _)]
  simp [frameWalk, h]

/-- OutputRow counts one row (R190). -/
theorem frameWalk_outputRow (H : BitVec 10) (d b k p r n) (h : n < H) :
    frameWalk H (outputRow d b k p ++ r) .active n = frameWalk H r .active (n+1#10) := by
  simp only [outputRow, latchRow, List.cons_append, frameWalk, beq_self_eq_true, Bool.true_and,
      List.append_assoc, h, decide_true]
  repeat (rw [frameWalk_skip]; swap; first | exact keepsFrame_setPush _ _ | exact keepsFrame_pulse _ _ | exact keepsFrame_writeLineBytes _ _ _)
  simp [frameWalk, h]

/-- Row operations that count one row each. -/
theorem frameWalk_rows (H : BitVec 10) (f : Nat → List MicroOp) (hf : ∀ k r (n : BitVec 10),
    n < H → frameWalk H (f k ++ r) .active n = frameWalk H r .active (n+1#10)) (m : Nat) (hm : m ≤ H.toNat) (r) :
   frameWalk H ((List.range m).flatMap f ++ r) .active 0#10 = frameWalk H r .active (BitVec.ofNat 10 m) := by
  induction m generalizing r with
  | zero => rfl
  | succ m ih =>
    rw [List.range_succ, List.flatMap_append, List.append_assoc, ih (by omega)]
    simp only [List.flatMap_cons, List.flatMap_nil, List.append_nil]
    rw [hf m r _ (by simp only [BitVec.lt_def, BitVec.toNat_ofNat]; have := H.isLt; omega)]
    simp [BitVec.ofNat_add]

/-- A frame of HEIGHT row operations leads from IDLE to IDLE (R202). -/
theorem frameWalk_frame (H : BitVec 10) (f : Nat → List MicroOp) (hf : ∀ k r (n : BitVec 10),
    n < H → frameWalk H (f k ++ r) .active n = frameWalk H r .active (n+1#10)) (r n) :
   frameWalk H (frame H.toNat f ++ r) .idle n = frameWalk H r .idle 0#10 := by
  simp only [frame, List.append_assoc]
  rw [frameWalk_startFrame, frameWalk_rows H f hf _ le_rfl]
  simp only [BitVec.ofNat_toNat, BitVec.setWidth_eq]
  exact frameWalk_endFrame _ _

theorem frameWalk_waitFor (H n r f k) : frameWalk H (waitFor n ++ r) f k = frameWalk H r f k :=
    frameWalk_skip _ _ _ (keepsFrame_waitFor n) _ _

/-- Every command's list walks from IDLE to IDLE; POWER_OFF_ALL's does so from anywhere. -/
theorem frameWalk_commandList (i : Instr) (s : State) (ops) (h : commandList i s = some ops)
    (hi : i = .powerOffAll ∨ (s.fstate = .idle ∧ s.row = 0#10)) : frameWalk s.height ops s.fstate s.row = true := by
  rcases hi with rfl | ⟨hf, hr⟩
  · cases h
    simp only [powerOffAllList, frameWalk]
    rw [← List.append_nil push, frameWalk_skip _ _ _ keepsFrame_push]; rfl
  · rw [hf, hr]
    cases i <;> simp only [commandList] at h <;> cases h
    · rw [← List.append_nil powerOnList, frameWalk_skip]; rfl
      unfold powerOnList
      repeat' apply keepsFrame_append
      all_goals first | exact keepsFrame_setPush _ _ | exact keepsFrame_waitFor _ | decide
    · rw [← List.append_nil powerOffList, frameWalk_skip]; rfl
      unfold powerOffList
      repeat' apply keepsFrame_append
      all_goals first | exact keepsFrame_setPush _ _ | exact keepsFrame_waitFor _
    · simp only [powerOffAllList, frameWalk]
      rw [← List.append_nil push, frameWalk_skip _ _ _ keepsFrame_push]; rfl
    · rename_i c
      have hc : ∀ b r,
          frameWalk s.height (clearFrame (s.latched
              (.clear c)) b ++ r) .idle 0#10 = frameWalk s.height r .idle 0#10 := by
        intro b r
        simp only [clearFrame, List.cons_append, frameWalk, List.append_assoc]
        rw [show (s.latched (.clear c)).height = s.height from rfl,
            frameWalk_frame _ _ (fun k r n h => frameWalk_outputRow _ _ _ _ _ _ _ h), frameWalk_waitFor]
      unfold clearList
      generalize BitVec.toNat _ = m
      generalize Int.toNat _ = m
      induction m with
      | zero => rfl
      | succ m ih => rw [List.replicate_succ, List.flatten_cons, List.append_assoc, hc, hc, ih]
    · unfold draw1bppList; split
      · rfl
      · rw [← List.append_nil (frame _ _), show (s.latched _).height = s.height from rfl, frameWalk_frame]; rfl
        intro k r n hn
        unfold drawRow1; split
        · exact frameWalk_outputRow _ _ _ _ _ _ _ hn
        · exact frameWalk_skipRow _ _ _ hn
    · unfold drawGrayList; split
      · rfl
      · rename_i R _
        generalize List.range Config.passes = ps
        induction ps with
        | nil => rfl
        | cons p ps ih =>
          rw [List.flatMap_cons]
          simp only [grayPass, List.cons_append, frameWalk, List.append_assoc]
          rw [show (s.latched _).height = s.height from rfl, frameWalk_frame, frameWalk_waitFor, ih]
          intro k r n hn
          unfold grayRow; split
          · exact frameWalk_outputRow _ _ _ _ _ _ _ hn
          · exact frameWalk_skipRow _ _ _ hn

/-! ## CR.LE -/

/-- A position that does not write CR.LE and cannot fault. -/
def keepsLatch : MicroOp → Bool
  | .silent (.setBit .le _) => false
  | .silent .clearCr => false
  | .silent .openFrame => false
  | .silent .requireRow => false
  | .silent .requireFull => false
  | .silent (.compose1 _ _) => false
  | .silent (.compose4 _ _) => false
  | _ => true

/-- Positions that leave CR.LE alone drop out of the walk. -/
theorem latchWalk_skip (l r : List MicroOp) (hl : ∀ op ∈ l, keepsLatch op = true) (e) :
    latchWalk (l ++ r) e = latchWalk r e := by
  induction l with
  | nil => rfl
  | cons op l ih =>
    have h := hl op (by simp)
    have ih := ih (fun o ho => hl o (by simp [ho]))
    rw [← ih]
    cases op with
    | drive d => rfl
    | silent i =>
      cases i with
      | setBit f v => cases f <;> first | rfl | cases h
      | _ => first | rfl | cases h

theorem keepsLatch_append {a b : List MicroOp} (ha : ∀ op ∈ a, keepsLatch op = true) (hb : ∀ op ∈ b,
    keepsLatch op = true) : ∀ op ∈ a ++ b,
        keepsLatch op = true := fun op h => (List.mem_append.mp h).elim (ha op) (hb op)

theorem keepsLatch_push : ∀ op ∈ push, keepsLatch op = true := by decide

theorem keepsLatch_setPush (f v) (hf : f ≠ .le) : ∀ op ∈ setPush f v, keepsLatch op = true := fun op h => (List.mem_cons.mp h).elim (fun e => by subst e; cases f <;> first | rfl | exact absurd rfl hf) (keepsLatch_push op)

theorem keepsLatch_waitFor (n) : ∀ op ∈ waitFor n, keepsLatch op = true :=
    by unfold waitFor; split <;> simp [keepsLatch]

theorem keepsLatch_pulse (a b) : ∀ op ∈ pulse a b, keepsLatch op = true := by
  intro op h
  simp only [pulse, List.mem_cons, List.mem_append] at h
  rcases h with rfl | h | rfl | h
  · rfl
  · exact keepsLatch_waitFor _ _ h
  · rfl
  · exact keepsLatch_waitFor _ _ h

theorem keepsLatch_writeLineBytes (d buf n) : ∀ op ∈ writeLineBytes d buf n, keepsLatch op = true := by
  intro op h
  obtain ⟨k, _, h⟩ := List.mem_flatMap.mp h
  simp only [writeByte, List.mem_append, List.mem_map] at h
  rcases h with ⟨i, _, rfl⟩ | h
  · rfl
  · simp only [List.mem_cons, List.not_mem_nil, or_false] at h; rcases h with rfl | rfl <;> rfl

theorem latchWalk_startFrame (r) : latchWalk (startFrame ++ r) false = latchWalk r false := by
  simp only [startFrame, List.cons_append, latchWalk, Bool.not_false, Bool.true_and]
  apply latchWalk_skip
  repeat' apply keepsLatch_append
  all_goals first | exact keepsLatch_setPush _ _ (by decide) | exact keepsLatch_pulse _ _ | exact keepsLatch_waitFor _

theorem latchWalk_endFrame (r) : latchWalk (endFrame ++ r) false = latchWalk r false := by
  simp only [endFrame, List.cons_append, latchWalk, Bool.not_false, Bool.true_and]
  apply latchWalk_skip
  repeat' apply keepsLatch_append
  all_goals first | exact keepsLatch_setPush _ _ (by decide) | exact keepsLatch_pulse _ _ | decide

theorem latchWalk_skipRow (r) : latchWalk (skipRow ++ r) false = latchWalk r false := by
  simp only [skipRow, List.cons_append, latchWalk, Bool.not_false, Bool.true_and]
  apply latchWalk_skip
  exact keepsLatch_append (keepsLatch_pulse _ _) (by decide)

/-- LatchRow leaves LE at 0 (spec/43_frame_pipeline.md R200). -/
theorem latchWalk_latchRow (r e) : latchWalk (latchRow ++ r) e = latchWalk r false := by
  simp only [latchRow, setPush, List.cons_append, latchWalk, List.append_assoc]
  rw [latchWalk_skip _ _ keepsLatch_push]
  simp only [latchWalk]
  rw [latchWalk_skip _ _ keepsLatch_push]

theorem latchWalk_outputRow (d b k p r) : latchWalk (outputRow d b k p ++ r) false = latchWalk r false := by
  simp only [outputRow, List.cons_append, latchWalk, Bool.not_false, Bool.true_and, List.append_assoc]
  rw [latchWalk_latchRow, latchWalk_skip _ _ (keepsLatch_pulse _ _),
      latchWalk_skip _ _ (keepsLatch_writeLineBytes _ _ _), latchWalk_skip _ _ (keepsLatch_pulse _ _)]
  rfl

theorem latchWalk_rows (f : Nat → List MicroOp) (hf : ∀ k r,
    latchWalk (f k ++ r) false = latchWalk r false) (l :
        List Nat) (r) : latchWalk (l.flatMap f ++ r) false = latchWalk r false := by
  induction l with
  | nil => rfl
  | cons k l ih => rw [List.flatMap_cons, List.append_assoc, hf, ih]

/-- A frame keeps LE at 0 wherever a fault can stop it. -/
theorem latchWalk_frame (m) (f : Nat → List MicroOp) (hf : ∀ k r,
    latchWalk (f k ++ r) false = latchWalk r false) (r) : latchWalk (frame m f ++ r) false = latchWalk r false := by
  simp only [frame, List.append_assoc]
  rw [latchWalk_startFrame, latchWalk_rows f hf, latchWalk_endFrame]

theorem latchWalk_waitFor (n r e) : latchWalk (waitFor n ++ r) e = latchWalk r e :=
    latchWalk_skip _ _ (keepsLatch_waitFor n) _

/-- Every command's list keeps LE at 0 wherever a fault can stop it; POWER_OFF_ALL's clears it. -/
theorem latchWalk_commandList (i : Instr) (s : State) (ops) (h : commandList i s = some ops) (e : Bool)
    (he : i = .powerOffAll ∨ e = false) : latchWalk ops e = true := by
  rcases he with rfl | rfl
  · cases h
    simp only [powerOffAllList, latchWalk]
    rw [← List.append_nil push, latchWalk_skip _ _ keepsLatch_push]; rfl
  · cases i <;> simp only [commandList] at h <;> cases h
    · rw [← List.append_nil powerOnList, latchWalk_skip]; rfl
      unfold powerOnList
      repeat' apply keepsLatch_append
      all_goals first | exact keepsLatch_setPush _ _ (by decide) | exact keepsLatch_waitFor _ | decide
    · rw [← List.append_nil powerOffList, latchWalk_skip]; rfl
      unfold powerOffList
      repeat' apply keepsLatch_append
      all_goals first | exact keepsLatch_setPush _ _ (by decide) | exact keepsLatch_waitFor _
    · simp only [powerOffAllList, latchWalk]
      rw [← List.append_nil push, latchWalk_skip _ _ keepsLatch_push]; rfl
    · rename_i c
      have hc : ∀ b r, latchWalk (clearFrame (s.latched (.clear c)) b ++ r) false = latchWalk r false := by
        intro b r
        simp only [clearFrame, List.cons_append, latchWalk, List.append_assoc]
        rw [latchWalk_frame _ _ (fun k r => latchWalk_outputRow _ _ _ _ _), latchWalk_waitFor]
      unfold clearList
      generalize Int.toNat _ = m
      induction m with
      | zero => rfl
      | succ m ih => rw [List.replicate_succ, List.flatten_cons, List.append_assoc, hc, hc, ih]
    · unfold draw1bppList; split
      · rfl
      · rw [← List.append_nil (frame _ _), latchWalk_frame]; rfl
        intro k r
        unfold drawRow1; split
        · simp only [List.cons_append, latchWalk, Bool.not_false,
              Bool.true_and]; exact latchWalk_outputRow _ _ _ _ _
        · exact latchWalk_skipRow _
    · unfold drawGrayList; split
      · rfl
      · rename_i R _
        generalize List.range Config.passes = ps
        induction ps with
        | nil => rfl
        | cons p ps ih =>
          rw [List.flatMap_cons]
          simp only [grayPass, List.cons_append, latchWalk, List.append_assoc]
          rw [latchWalk_frame, latchWalk_waitFor, ih]
          intro k r
          unfold grayRow; split
          · simp only [List.cons_append, latchWalk, Bool.not_false,
                Bool.true_and]; exact latchWalk_outputRow _ _ _ _ _
          · exact latchWalk_skipRow _

end Sys2Proof.Machine
end

