-- ==== Sys2Proof/Tests/Slice0.lean ====
section
/-! SUPPORT. The model's own tests: the decoder on words written out from the spec's tables, one step per command with
the values of spec/95_test_vectors.md, and for every statement with hypotheses a state that meets them. -/

namespace Sys2Proof.Tests

open Sys2Proof.Machine

/-! ## Well-formedness and decoding (spec/30_encoding.md R93-R100) -/

theorem test_wf_refuses_mode_bit_2 : (Instr.drawGray 0 0 1 1 0 0x00000004#32).wf = false := by decide
theorem test_wf_refuses_mode_bit_31 : (Instr.drawGray 0 0 1 1 0 0x80000003#32).wf = false := by decide
theorem test_wf_accepts_mode_3 : (Instr.drawGray 0 0 1 1 0 3#32).wf = true := by decide

/-- R95: opcode 0x01 in bits [7:0], zeros above. -/
theorem test_decode_power_on : decode [0b00000000000000000000000000000001#32] = .accept .powerOn [] := by decide
theorem test_decode_power_off : decode [0b00000000000000000000000000000010#32] = .accept .powerOff [] := by decide
theorem test_decode_power_off_all : decode [0b00000000000000000000000000000011#32] = .accept .powerOffAll [] := by decide
theorem test_decode_clear : decode [0b00000000000000000000000000000100#32, 2#32] = .accept (.clear 2#32) [] := by decide
theorem test_decode_draw_1bpp :
    decode [0b00000000000000000000000000000101#32, 1#32, 2#32, 3#32, 4#32, 5#32, 6#32, 7#32] =
      .accept (.draw1bpp 1#32 2#32 3#32 4#32 5#32 6#32) [7#32] := by decide
theorem test_decode_draw_gray :
    decode [0b00000000000000000000000000000110#32, 1#32, 2#32, 3#32, 4#32, 5#32, 2#32] =
      .accept (.drawGray 1#32 2#32 3#32 4#32 5#32 2#32) [] := by decide
theorem test_decode_get_width : decode [0b00000000000000000000000000000111#32] = .accept .getWidth [] := by decide
theorem test_decode_get_height : decode [0b00000000000000000000000000001000#32] = .accept .getHeight [] := by decide

/-- R98: 0x00 and 0x09 are reserved, and one word is consumed. -/
theorem test_decode_reserved_opcode :
    decode [0x00000009#32, 1#32] = .refuse .illegalOpcode [1#32] ∧ decode [0x00000000#32] = .refuse .illegalOpcode [] := by
  decide
/-- R99: a reserved bit of word 0 waits for the whole packet. -/
theorem test_decode_reserved_bits :
    decode [0x00000104#32] = .incomplete ∧ decode [0x00000104#32, 1#32] = .refuse .reservedBits [] := by decide
/-- R96, R101: word k of a table row is bits [32k+31 : 32k]. -/
theorem test_table_word : decodeTableWord 64 0xFFFFFFFF00000004 = some (.clear 0xFFFFFFFF#32) := by decide
theorem test_table_word_short : decodeTableWord 8 0x05 = some (.draw1bpp 0 0 0 0 0 0) := by decide

/-! ## A small panel -/

/-- What `f` reads in the next state. -/
def seen {α : Type} (o : Host.Outcome State Fault Refusal) (f : State → α) : Option α :=
  match o with
  | .next s => some (f s)
  | .fault _ => none
  | .refused _ => none

/-- A panel of 8 columns and 2 rows with lines D0 and D1 wired. -/
def panel : State := { State.reset with width := 8#10, height := 2#10, dmask := 0x03#8 }

/-- A panel whose source memory is nowhere admitted. -/
def barred : State := { panel with srcAdmit := [] }

/-- A panel running the list `todo`, with a schedule. -/
def running (todo : List MicroOp) (inbox : List PortAct) : State := { panel with busy := true, todo, inbox }

/-- The panel rows and columns that the draws of the witnesses cover. -/
def corner : Rect := { xs := 0, xe := 8, ys := 1, ye := 2 }

/-! ## One step (spec/95_test_vectors.md) -/

/-- R171: POWER_ON first sets SCAN_DIR, and its list begins with a Push. -/
theorem test_power_on_starts : seen (exec .powerOn panel) (fun t => (t.cr, t.busy, headMoves t.todo)) =
    some (0x20#8, true, true) := by decide
/-- R174: POWER_OFF first clears POS_EN. -/
theorem test_power_off_starts : seen (exec .powerOff { panel with cr := 0x3C#8 }) (fun t => (t.cr, t.busy)) =
    some (0x38#8, true) := by decide
/-- R176: POWER_OFF_ALL drops the frame and clears CR. -/
theorem test_power_off_all_starts :
    seen (exec .powerOffAll { panel with cr := 0xFC#8, fstate := .active, row := 1#10 })
      (fun t => (t.cr, t.fstate, t.row, t.todo.length)) = some (0x00#8, .idle, 0#10, 26) := by decide
/-- R230: CLEAR of a negative count does nothing but latch it. -/
theorem test_clear_negative : seen (exec (.clear 0xFFFFFFFF#32) panel) (fun t => (t.opl.cycles, t.busy, t.todo)) =
    some (0xFFFFFFFF#32, false, []) := by decide
/-- R230, R193: CLEAR's first frame opens and sends MODE. -/
theorem test_clear_starts : seen (exec (.clear 1#32) panel) (fun t => (t.cr, t.fstate, entry t.rowbuf1 0)) =
    some (0x40#8, .active, 0x00#8) := by decide
/-- R221: a rectangle off the panel is EMPTY. -/
theorem test_draw_1bpp_off_panel :
    seen (exec (.draw1bpp 8#32 0#32 1#32 1#32 0#32 10#32) panel) (fun t => (t.opl.x, t.busy)) = some (8#32, false) := by
  decide
/-- R323: the first row's source fault comes before its first event, after StartFrame's last. -/
theorem test_draw_1bpp_starts :
    seen (exec (.draw1bpp 0#32 0#32 8#32 1#32 0#32 10#32) barred) (fun t => (t.fstate, t.busy, t.halted)) =
      some (.active, true, false) := by decide
/-- R97, R255: the mode is bits [1:0], and the LUT is reset to 0xAA and carved for level 0 in pass 0 of mode 2. -/
theorem test_draw_gray_starts :
    seen (exec (.drawGray 0#32 0#32 8#32 1#32 0#32 2#32) panel)
      (fun t => (t.opl.mode, entry t.lut 0, entry t.lut 1, entry t.lut 0x11, t.fstate)) =
      some (2#2, 0xA0#8, 0xA2#8, 0xAA#8, .active) := by decide
/-- R298. -/
theorem test_get_width : seen (exec .getWidth panel) (fun t => (t.rsp, t.rspValid, t.busy)) = some (8#32, true, false) := by
  decide
/-- R299. -/
theorem test_get_height : seen (exec .getHeight State.reset) (fun t => (t.rsp, t.rspValid)) = some (540#32, true) := by
  decide
/-- The host's way to place a packet: the very next step runs it. -/
theorem test_with_fetch_word : seen (step (State.reset.withFetchWord 32 7)) (fun t => (t.rsp, t.inbox)) =
    some (960#32, []) := by decide

/-- R41: out of range, zero and negative requests give the maximum; one in range is kept. -/
theorem test_clamp : clampDim 960 961#32 = 960#10 ∧ clampDim 960 0#32 = 960#10 ∧ clampDim 540 0xFFFFFFFF#32 = 540#10 ∧
    clampDim 960 1#32 = 1#10 ∧ clampDim 540 540#32 = 540#10 := by decide
/-- R221. -/
theorem test_clip : clip 960 540 (-3) 1 12 2 = some { xs := 0, xe := 9, ys := 1, ye := 3 } := by decide
/-- R80, R81: the leftmost pixel is the high bit, and the high nibble. -/
theorem test_pixels : pixelOfByte1 0x80#8 0 = true ∧ pixelOfByte1 0x80#8 7 = false ∧ pixelOfByte4 0xA5#8 0 = 0xA#4 ∧
    pixelOfByte4 0xA5#8 1 = 0x5#4 := by decide
/-- R47: the first, a middle and the last entries of the two contrast tables. -/
theorem test_contrast : [0, 7, 12, 14].map (contrastTime 0#2) = [30, 40, 100, 300] ∧
    [0, 7, 12, 14].map (contrastTime 2#2) = [10, 10, 20, 300] := by decide
/-- R320. -/
theorem test_error_codes : [ErrCode.none, .illegalOpcode, .reservedBits, .srcFault, .fsmFault].map ErrCode.bits =
    [0#4, 1#4, 2#4, 3#4, 4#4] := by decide
/-- A write of the byte an unlisted address reads as removes the entry. -/
theorem test_memory_canonical : Memory.write [(4, 0x12#8), (9, 0x34#8)] 4 0x00#8 = [(9, 0x34#8)] := by decide

/-! ## The statements' hypotheses can be met -/

/-- The invariant of a running small panel. -/
theorem running_inv (todo : List MicroOp) (inbox : List PortAct) (h : headMoves todo = true)
    (ha : ∀ op ∈ todo, opAllowed 0x03#8 op = true) : (running todo inbox).Inv where
  width_range := (by decide : 1 ≤ (8#10).toNat ∧ (8#10).toNat ≤ Config.maxWidth)
  height_range := (by decide : 1 ≤ (2#10).toNat ∧ (2#10).toNat ≤ Config.maxHeight)
  memory_wf := rfl
  err_iff_code := (by decide : false = true ↔ ErrCode.none ≠ .none)
  halted_err := by intro hh; cases hh
  rst_not_busy := by intro hh; cases hh
  idle_clean := by intro hb; cases hb
  busy_moves := fun _ => h
  busy_packet := fun _ => rfl
  packet_open := rfl
  wait_open := .inl rfl
  list_allowed := ha
  unwired_undriven := (by decide : ∀ i : Fin 8, (0x03#8).getLsbD i = false → Pins.undriven.data[i] = .x)
  rsp_small := (by decide : (0#32).toNat < 1024)

/-- The invariant of an idle small panel, whatever is admitted and scheduled. -/
theorem idle_inv (srcAdmit : List Region) (inbox : List PortAct) : { panel with srcAdmit, inbox }.Inv where
  width_range := (by decide : 1 ≤ (8#10).toNat ∧ (8#10).toNat ≤ Config.maxWidth)
  height_range := (by decide : 1 ≤ (2#10).toNat ∧ (2#10).toNat ≤ Config.maxHeight)
  memory_wf := rfl
  err_iff_code := (by decide : false = true ↔ ErrCode.none ≠ .none)
  halted_err := by intro h; cases h
  rst_not_busy := fun _ => rfl
  idle_clean := fun _ => ⟨rfl, rfl, rfl, rfl⟩
  busy_moves := by intro h; cases h
  busy_packet := by intro h; cases h
  packet_open := rfl
  wait_open := .inl rfl
  list_allowed := by intro op h; cases h
  unwired_undriven := (by decide : ∀ i : Fin 8, (0x03#8).getLsbD i = false → Pins.undriven.data[i] = .x)
  rsp_small := (by decide : (0#32).toNat < 1024)

theorem witness_DecodeOfEncode : (Instr.drawGray 1 2 3 4 5 3#32).wf = true := by decide
theorem witness_AcceptedOnlyIfEncoded : decode [4#32, 1#32, 9#32] = .accept (.clear 1#32) [9#32] := by decide
theorem witness_ReservedOpcodeRefused :
    opcodeField 0x00000000#32 = 0x00#8 ∧ 0x09#8 ≤ opcodeField 0x00000009#32 ∧ 0x09#8 ≤ opcodeField 0x000000FF#32 ∧
      panel.busy = false ∧ panel.rst = false ∧ panel.halted = false ∧ panel.packet = [] ∧
      { panel with inbox := [.word 0x00000009#32] }.inbox = .word 0x00000009#32 :: [] := by decide
theorem witness_ReservedFieldRefused :
    operandWords (opcodeField 0x00000104#32) = some 1 ∧ reservedField 0x00000104#32 ≠ 0#32 ∧
      ([] : List Word).length < 1 ∧ ([1#32] : List Word).length = 1 := by decide
theorem witness_ReservedFieldRefused_mode :
    operandWords (opcodeField 0x00000006#32) = some 6 ∧ opcodeField 0x00000006#32 = 0x06#8 ∧
      ([0, 0, 0, 0, 0, 4#32] : List Word).getD 5 0#32 >>> 2 ≠ 0#32 ∧ ([0, 0, 0, 0, 0, 4#32] : List Word).length = 6 := by
  decide
theorem witness_ClipKeepsVisiblePixels :
    clip 8 2 (-1) 1 3 5 = some { xs := 0, xe := 2, ys := 1, ye := 2 } ∧ clip 8 2 8 0 1 1 = none := by decide
theorem witness_GrayPolicyDecidesRectangle :
    ((0 : Int) ≤ 7 ∧ (0 : Int) ≤ 1 ∧ (7 : Int) + 1 ≤ (8 : Nat) ∧ (1 : Int) + 1 ≤ (2 : Nat)) ∧
      ((8 : Nat) : Int) < 7 + 2 := by decide
theorem witness_HostWriteRacesWithRead :
    panel.src.wf = true ∧ panel.busy = false ∧ panel.raced = [] ∧ (running push []).src.wf = true ∧
      (running push []).busy = true ∧ (1#32 : Word) ≠ 0#32 ∧
      (running push [.write 0#32 1#8]).inbox = .write 0#32 1#8 :: [] := by decide
theorem witness_CoreNeverWritesSource :
    (∃ t, step (running push []) = .next t) ∧ (∀ a b rest, (running push []).inbox ≠ .write a b :: rest) ∧
      ∀ regions rest, (running push []).inbox ≠ .memOk regions :: rest :=
  ⟨⟨_, rfl⟩, (fun _ _ _ h => by cases h), (fun _ _ h => by cases h)⟩
theorem quiet_running (todo : List MicroOp) : (running todo []).Quiet := ⟨rfl, rfl, rfl, rfl⟩
theorem quiet_panel : panel.Quiet := ⟨rfl, rfl, rfl, rfl⟩
theorem witness_PushTakesTwentySixSteps :
    (running (push ++ setPin .ie true :: []) []).Quiet ∧ (running (push ++ setPin .ie true :: []) []).busy = true ∧
      (running (push ++ setPin .ie true :: []) []).waited = 0 ∧
      (running (push ++ setPin .ie true :: []) []).todo = push ++ setPin .ie true :: [] ∧
      headMoves (setPin .ie true :: []) = true ∧ headMoves [.silent (.compose4 corner 1)] = true :=
  ⟨quiet_running _, rfl, rfl, rfl, rfl, rfl⟩
theorem witness_PowerOnCompletes : panel.Quiet := quiet_panel
theorem witness_PowerOffCompletes : { panel with cr := 0x3C#8 }.Quiet := ⟨rfl, rfl, rfl, rfl⟩
theorem witness_PowerOffAllCompletes :
    { panel with cr := 0xFC#8, fstate := .active, row := 1#10, halted := true }.Quiet := ⟨rfl, rfl, rfl, rfl⟩

/-- A panel with IE raised that is about to raise it again. -/
def raised : State := { running [setPin .ie true] [] with pins := { Pins.undriven with ie := .hi } }
theorem raised_inv : raised.Inv :=
  { running_inv [setPin .ie true] [] rfl (by decide) with
    idle_clean := by intro hb; cases hb
    unwired_undriven := (by decide : ∀ i : Fin 8, (0x03#8).getLsbD i = false → Pins.undriven.data[i] = .x) }
theorem witness_InputEnableStaysHigh : raised.Inv ∧ (∃ t, step raised = .next t) ∧ raised.pins.ie = .hi ∧
    ∀ rw rh dm rest, raised.inbox ≠ .releaseRst rw rh dm :: rest :=
  ⟨raised_inv, ⟨_, rfl⟩, rfl, (fun _ _ _ _ h => by cases h)⟩
theorem witness_FrameSize : ∀ r : Nat, ((fun _ => [0x55#8, 0xAA#8]) r : List Byte).length = 2 := fun _ => rfl
theorem witness_StepKeepsFrameSafe :
    (running push []).Inv ∧ (running push []).FrameSafe ∧ ∃ t, step (running push []) = .next t :=
  ⟨running_inv push [] rfl (by decide), ⟨fun _ => by decide, by decide⟩, ⟨_, rfl⟩⟩
theorem witness_FsmFaultNeverRecorded :
    (running push []).Inv ∧ (running push []).FrameSafe ∧ (∃ t, step (running push []) = .next t) ∧
      (running push []).errCode ≠ .fsmFault :=
  ⟨running_inv push [] rfl (by decide), ⟨fun _ => by decide, by decide⟩, ⟨_, rfl⟩, by decide⟩
/-- What is left of a 1bpp draw before it reads the small panel's last row, in short. -/
def lastRow : List MicroOp :=
  [.silent (.compose1 corner 1), .silent .requireRow, setPin .ckv true, .silent .countRow, .silent .requireFull,
    setPin .ckv false, .silent .closeFrame]
/-- The small panel about to read its last row, whose bytes are not admitted. -/
def lastRowBarred : State := { running lastRow [] with fstate := .active, row := 1#10, srcAdmit := [] }
theorem lastRowBarred_inv : lastRowBarred.Inv :=
  { running_inv lastRow [] rfl (by decide) with idle_clean := by intro hb; cases hb }
theorem witness_FsmFaultNeverRecorded_halting :
    lastRowBarred.Inv ∧ lastRowBarred.FrameSafe ∧ lastRowBarred.halted = false ∧
      seen (step lastRowBarred) (fun t => (t.halted, t.errCode)) = some (true, .srcFault) :=
  ⟨lastRowBarred_inv, ⟨fun _ => by decide, by decide⟩, rfl, by decide⟩
theorem witness_StepKeepsLatchSafe :
    (running push []).Inv ∧ (running push []).LatchSafe ∧ ∃ t, step (running push []) = .next t :=
  ⟨running_inv push [] rfl (by decide), fun _ => by decide, ⟨_, rfl⟩⟩

/-- The small panel with the operands of a 1bpp draw of its lower row. -/
def drawing1 (s : State) : State :=
  { s with opl := { s.opl with x := 0#32, y := 1#32, w := 8#32, h := 1#32, src := 0#32, pulse := 10#32 }, raced := [] }
/-- The small panel with the operands of a 4bpp draw of its lower row. -/
def drawing4 (s : State) : State :=
  { s with opl := { s.opl with x := 0#32, y := 1#32, w := 8#32, h := 1#32, src := 0#32, mode := 2#2 }, raced := [] }

theorem witness_ComposedRowHoldsSourcePixels :
    panel.width.toNat ≤ Config.maxWidth ∧ panel.raced = [] ∧ (∃ t, compose1 corner 1 panel = .ok t) ∧
      0 < 8 * panel.rowLen1 ∧ 7 < 8 * panel.rowLen1 ∧ (∃ t, compose4 corner 1 panel = .ok t) ∧
      0 < 2 * panel.rowLen4 ∧ 7 < 2 * panel.rowLen4 :=
  ⟨by decide, rfl, ⟨_, rfl⟩, by decide, by decide, ⟨_, rfl⟩, by decide, by decide⟩
/-- The small panel's lower row with a full row buffer, and no byte admitted but the first. -/
def halfRow (size : Nat) : State :=
  { drawing4 panel with srcAdmit := [{ base := 0, size }], rowbuf4 := Vector.replicate _ 0xFF#8 }
theorem witness_ComposedRowHoldsSourcePixels_fault :
    (halfRow 1).width.toNat ≤ Config.maxWidth ∧ (halfRow 1).raced = [] ∧
      compose1 corner 1 { drawing1 panel with srcAdmit := [] } = .error .srcFault ∧
      compose4 corner 1 (halfRow 1) = .error .srcFault := ⟨by decide, rfl, rfl, rfl⟩
/-- R262: where no byte of the row is admitted, the fault leaves its used bytes zeroed and the others as they were. -/
theorem test_half_composed_row :
    let b := (halfCompose (.compose4 corner 1) (halfRow 0)).rowbuf4
    (entry b 0, entry b 3, entry b 4) = (0x00#8, 0x00#8, 0xFF#8) := by decide
/-- R262, R81: panel columns 0 and 1 of a 4bpp row are the high and the low nibble of its first source byte. -/
theorem test_compose4 :
    (compose4 corner 1 { drawing4 panel with src := [(0, 0xA5#8), (1, 0x3C#8)] }).map
      (fun t => (entry t.rowbuf4 0, entry t.rowbuf4 1)) = .ok (0xA5#8, 0x3C#8) := rfl
/-- R76, R84: a host write between the last event before a row and the row's reads leaves both bytes possible. -/
theorem test_write_before_reads :
    seen (step { running lastRow [.write 0#32 1#8] with src := [(0, 0x80#8)] })
      (fun t => (headMoves t.todo, t.oldValues 0#32, t.src.read 0)) = some (true, [0x80#8], 1#8) := by decide
theorem witness_EmptyDraw1bppIsNoOp :
    clip panel.width.toNat panel.height.toNat (8#32 : Word).toInt (0#32 : Word).toInt (1#32 : Word).toInt
      (1#32 : Word).toInt = none := by decide
theorem row_of_corner {r : Nat} (h : corner.hasRow r = true) : r = 1 := by
  simp [Rect.hasRow, corner] at h; omega
theorem witness_Draw1bppCompletes :
    panel.Inv ∧ panel.Quiet ∧ panel.fstate = .idle ∧ (drawing1 panel).rect1 = some corner ∧
      ∀ r, corner.hasRow r = true → (drawing1 panel).rowAdmitted1 corner r = true :=
  ⟨idle_inv _ _, quiet_panel, rfl, by decide, fun r h => by rw [row_of_corner h]; decide⟩
theorem witness_Draw1bppSourceFault :
    barred.Inv ∧ barred.Quiet ∧ barred.fstate = .idle ∧ barred.latchEnable = false ∧
      (drawing1 barred).rect1 = some corner ∧ corner.hasRow 1 = true ∧ (drawing1 barred).rowAdmitted1 corner 1 = false ∧
      ∀ q < 1, corner.hasRow q = true → (drawing1 barred).rowAdmitted1 corner q = true :=
  ⟨idle_inv _ _, ⟨rfl, rfl, rfl, rfl⟩, rfl, by decide, by decide, by decide, by decide,
    fun q hq h => absurd (row_of_corner h) (by omega)⟩
theorem witness_ClearOfNoCyclesIsNoOp : (0#32 : Word).toInt ≤ 0 ∧ (0x80000000#32 : Word).toInt ≤ 0 := by decide
theorem witness_ClearCompletes :
    panel.Inv ∧ panel.Quiet ∧ panel.fstate = .idle ∧ 1 ≤ (1#32 : Word).toInt := ⟨idle_inv _ _, quiet_panel, rfl, by decide⟩
theorem witness_LutClosedForm : 0 < 4096 ∧ 4095 < 4096 := by decide
theorem witness_OutputByteClosedForm :
    (drawing4 panel).width.toNat ≤ Config.maxWidth ∧
      (∃ t, compose4 corner 1 (carve (carveLevel 0 2#2) (resetLut 2#2 (drawing4 panel))) = .ok t) ∧
      1 < (drawing4 panel).rowLenOut := ⟨by decide, ⟨_, rfl⟩, by decide⟩
/-- The small panel with the LUT of a pass. -/
def carved : State := carve 3 (resetLut 1#2 panel)
theorem witness_UpperColumnsNeverMatter :
    carved.width.toNat ≤ Config.maxWidth ∧ { carved with dmask := 0x01#8 }.width = carved.width ∧
      carved.lut = (carve 3 (resetLut 1#2 carved)).lut ∧ { carved with dmask := 0x01#8 }.lut = carved.lut ∧
      1 < carved.rowLenOut ∧ entry carved.rowbuf4 2 = entry { carved with dmask := 0x01#8 }.rowbuf4 2 :=
  ⟨by decide, rfl, rfl, rfl, by decide, rfl⟩
theorem witness_PassThatCarves :
    15 < 16 ∧ 14 < 15 ∧ ((3#2 : BitVec 2) = 0#2 ∨ (3#2 : BitVec 2) = 3#2) ∧
      ((2#2 : BitVec 2) = 1#2 ∨ (2#2 : BitVec 2) = 2#2) := by decide
theorem witness_EmptyDrawGrayIsNoOp :
    grayRect panel.grayPolicy panel.width.toNat panel.height.toNat (0#32 : Word).toInt (0#32 : Word).toInt
      (0#32 : Word).toInt (1#32 : Word).toInt = none := by decide
theorem witness_DrawGrayCompletes :
    panel.Inv ∧ panel.Quiet ∧ panel.fstate = .idle ∧ (drawing4 panel).rect4 = some corner ∧
      ∀ r, corner.hasRow r = true → (drawing4 panel).rowAdmitted4 corner r = true :=
  ⟨idle_inv _ _, quiet_panel, rfl, by decide, fun r h => by rw [row_of_corner h]; decide⟩
theorem witness_DrawGraySourceFault :
    barred.Inv ∧ barred.Quiet ∧ barred.fstate = .idle ∧ barred.latchEnable = false ∧
      (drawing4 barred).rect4 = some corner ∧ corner.hasRow 1 = true ∧ (drawing4 barred).rowAdmitted4 corner 1 = false ∧
      ∀ q < 1, corner.hasRow q = true → (drawing4 barred).rowAdmitted4 corner q = true :=
  ⟨idle_inv _ _, ⟨rfl, rfl, rfl, rfl⟩, rfl, by decide, by decide, by decide, by decide,
    fun q hq h => absurd (row_of_corner h) (by omega)⟩

/-- The small panel in a pass's frame before it reads a row, with the platform about to stop admitting its bytes. -/
def withdrawn : State :=
  running [.silent (.compose4 corner 1), .silent .lookup, .silent .requireRow] [.memOk [], .core]
theorem witness_DrawGraySourceFault_anyPass :
    withdrawn.busy = true ∧ withdrawn.stopReq = false ∧ withdrawn.pending = none ∧
      withdrawn.inbox = .memOk [] :: .core :: [] ∧
      withdrawn.todo = .silent (.compose4 corner 1) :: [.silent .lookup, .silent .requireRow] ∧
      State.rowAdmitted4 { withdrawn with srcAdmit := [] } corner 1 = false := by decide

/-- The small panel with words presented to an idle core. -/
def presented (w : Word) : State := { panel with inbox := [.word w] }
theorem listening_presented (w : Word) : (presented w).Listening := ⟨rfl, rfl⟩
theorem witness_StepRunsDecodedPacket :
    (presented 1#32).Listening ∧ (presented 1#32).halted = false ∧ (presented 1#32).inbox = .word 1#32 :: [] ∧
      decode ((presented 1#32).packet ++ [1#32]) = .accept .powerOn [] := ⟨listening_presented _, rfl, rfl, by decide⟩
theorem witness_PartialPacketIsKept :
    (presented 5#32).Listening ∧ (presented 5#32).inbox = .word 5#32 :: [] ∧
      decode ((presented 5#32).packet ++ [5#32]) = .incomplete := ⟨listening_presented _, rfl, by decide⟩
theorem witness_BusyPortHoldsOneWord :
    (running push [.word 3#32]).busy = true ∧ (running push [.word 3#32]).rst = false ∧
      (running push [.word 3#32]).inbox = .word 3#32 :: [] ∧ (running push [.word 3#32]).pending = none ∧
      { running push [.word 3#32] with pending := some 1#32 }.pending ≠ none ∧
      (running push [.word 0x103#32]).inbox = .word 0x103#32 :: [] ∧ (0x103#32 : Word) ≠ 3#32 := by decide
/-- The small panel before its command's last event, with a word held. -/
def lastEvent (w : Word) : State :=
  { running [.drive (.set .ie true), .silent .closeFrame] [] with pending := some w }
theorem witness_HeldWordDecodedWhenBusyFalls :
    (lastEvent 4#32).busy = true ∧ (lastEvent 4#32).rst = false ∧ (lastEvent 4#32).stopReq = false ∧
      (lastEvent 4#32).inbox = [] ∧ (lastEvent 4#32).packet = [] ∧ (lastEvent 4#32).pending = some 4#32 ∧
      (lastEvent 4#32).todo = .drive (.set .ie true) :: [.silent .closeFrame] ∧
      (∀ op ∈ [MicroOp.silent .closeFrame], ∃ i : Silent, op = .silent i ∧ i.reads = false) ∧
      decode [4#32] = .incomplete ∧ decode [7#32] = .accept .getWidth [] ∧ decode [9#32] = .refuse .illegalOpcode [] :=
  ⟨rfl, rfl, rfl, rfl, rfl, rfl, rfl, (fun _ h => ⟨.closeFrame, by simpa using h, rfl⟩), by decide, by decide, by decide⟩
theorem witness_HeldWordDecodedWhenBusyFalls_fault :
    let s := { lastRowBarred with pending := some 3#32 }
    s.busy = true ∧ s.rst = false ∧ s.stopReq = false ∧ s.inbox = [] ∧ s.packet = [] ∧ s.pending = some 3#32 ∧
      s.todo = .silent (.compose1 corner 1) :: lastRow.tail ∧
      (Silent.compose1 corner 1).reads = true ∧ s.readsAdmitted = false ∧ decode [3#32] = .accept .powerOffAll [] ∧
      decode [9#32] = .refuse .illegalOpcode [] := by decide
/-- The small panel inside a Wait, with preemption asked for. -/
def stopping : State := { running [.drive (.wait 100)] [] with waited := 40, stopReq := true }
theorem witness_PreemptionRunsPowerOffAll :
    stopping.inbox = [] ∧ stopping.pending = none ∧ stopping.rst = false ∧ stopping.busy = true ∧
      stopping.stopReq = true ∧ headMoves stopping.todo = true ∧ stopping.readsAdmitted = true ∧ stopping.packet = [] ∧
      0 < stopping.waited ∧ ¬ 0 < { stopping with waited := 0 }.waited ∧
      { stopping with inbox := [.stopPoint] }.inbox = .stopPoint :: [] ∧
      { stopping with pending := some 9#32 }.pending = some 9#32 ∧ decode [4#32] = .incomplete ∧
      decode [7#32] = .accept .getWidth [] ∧ decode [9#32] = .refuse .illegalOpcode [] := by decide
/-- The small panel before the reads of a data row whose bytes are not admitted, with preemption asked for. -/
def faulting (i : Silent) (inbox : List PortAct) : State :=
  { running [.silent i] inbox with srcAdmit := [], stopReq := true }
theorem witness_SourceFaultBeforePreemption :
    (faulting (.compose1 corner 1) [.core]).busy = true ∧ (faulting (.compose1 corner 1) [.core]).stopReq = true ∧
      (faulting (.compose1 corner 1) [.core]).inbox = .core :: [] ∧
      (faulting (.compose1 corner 1) [.core]).todo = .silent (.compose1 corner 1) :: [] ∧
      (Silent.compose1 corner 1).reads = true ∧ (faulting (.compose1 corner 1) [.core]).readsAdmitted = false := by
  decide
theorem witness_SourceFaultBeforePreemption_gray :
    (faulting (.compose4 corner 1) [.stopPoint]).inbox = .stopPoint :: [] ∧
      (faulting (.compose4 corner 1) []).inbox = [] ∧ (Silent.compose4 corner 1).reads = true ∧
      (faulting (.compose4 corner 1) []).todo = .silent (.compose4 corner 1) :: [] ∧
      (faulting (.compose4 corner 1) [.stopPoint]).readsAdmitted = false ∧
      (faulting (.compose4 corner 1) []).readsAdmitted = false := by decide
/-- The small panel 40 µs into a Wait of 100. -/
def waiting (us : Nat) : State := { running [.drive (.wait 100)] [.time us] with waited := 40 }
theorem witness_TimePassesInsideWait :
    (waiting 59).busy = true ∧ (waiting 59).stopReq = false ∧ (waiting 59).pending = none ∧
      (waiting 59).inbox = .time 59 :: [] ∧ (waiting 59).todo = .drive (.wait 100) :: [] ∧
      (waiting 59).waited + 59 < 100 ∧ 100 ≤ (waiting 60).waited + 60 := by decide
theorem witness_ResponseKeptUntilAcknowledged :
    (∃ t, step { panel with rspValid := true, inbox := [.ack] } = .next t) ∧
      (∃ t, step { presented 1#32 with rspValid := true } = .next t) ∧
      (∀ rest, { presented 1#32 with rspValid := true }.inbox ≠ .ack :: rest) ∧
      ∀ rw rh dm rest, { presented 1#32 with rspValid := true }.inbox ≠ .releaseRst rw rh dm :: rest :=
  ⟨⟨_, rfl⟩, ⟨_, rfl⟩, (fun _ h => by cases h), (fun _ _ _ _ h => by cases h)⟩
theorem witness_RefusalRecordsErrorOnly :
    (presented 0xFFFFFF01#32).Listening ∧ (presented 0xFFFFFF01#32).halted = false ∧
      (presented 0xFFFFFF01#32).inbox = .word 0xFFFFFF01#32 :: [] ∧
      decode ((presented 0xFFFFFF01#32).packet ++ [0xFFFFFF01#32]) = .refuse .reservedBits [] :=
  ⟨listening_presented _, rfl, rfl, by decide⟩
/-- A halted small panel with a word presented. -/
def haltedPanel (w : Word) : State := { presented w with halted := true, err := true, errCode := .srcFault }
theorem witness_HaltedCoreDropsOthers :
    (haltedPanel 3#32).Listening ∧ (haltedPanel 3#32).halted = true ∧ (haltedPanel 3#32).inbox = .word 3#32 :: [] ∧
      decode ((haltedPanel 3#32).packet ++ [3#32]) = .accept .powerOffAll [] ∧
      decode ((haltedPanel 1#32).packet ++ [1#32]) = .accept .powerOn [] ∧ Instr.powerOn ≠ .powerOffAll ∧
      decode ((haltedPanel 9#32).packet ++ [9#32]) = .refuse .illegalOpcode [] :=
  ⟨⟨rfl, rfl⟩, rfl, rfl, by decide, by decide, by decide, by decide⟩
theorem witness_ErrorsAreSticky :
    (∃ t, step (haltedPanel 9#32) = .next t) ∧ (haltedPanel 9#32).err = true ∧ (haltedPanel 9#32).errCode ≠ .none ∧
      (haltedPanel 9#32).halted = true ∧ ∀ rw rh dm rest, (haltedPanel 9#32).inbox ≠ .releaseRst rw rh dm :: rest :=
  ⟨⟨_, rfl⟩, rfl, by decide, rfl, (fun _ _ _ _ h => by cases h)⟩
/-- The small panel in reset, with RST about to be released. -/
def inReset : State := { panel with rst := true, inbox := [.releaseRst 800#32 600#32 0x0F#8] }
theorem witness_ResetValues :
    inReset.rst = true ∧ inReset.inbox = .releaseRst 800#32 600#32 0x0F#8 :: [] := by decide
theorem inReset_inv : inReset.Inv :=
  { idle_inv panel.srcAdmit inReset.inbox with rst_not_busy := fun _ => rfl }
theorem witness_ResetAssertedIsSilent :
    inReset.Inv ∧ (∃ t, step inReset = .next t) ∧ inReset.rst = true ∧ (running push [.assertRst]).Inv ∧
      (running push [.assertRst]).inbox = .assertRst :: [] ∧ ∃ t, step (running push [.assertRst]) = .next t :=
  ⟨inReset_inv, ⟨_, rfl⟩, rfl, running_inv push _ rfl (by decide), rfl, ⟨_, rfl⟩⟩
theorem witness_StepEmitsAtMostOneEvent :
    (∃ t, step (running push []) = .next t) ∧ ∀ rw rh dm rest, (running push []).inbox ≠ .releaseRst rw rh dm :: rest :=
  ⟨⟨_, rfl⟩, (fun _ _ _ _ h => by cases h)⟩
theorem witness_StepKeepsLinesReplay : (running push []).LinesReplay ∧ ∃ t, step (running push []) = .next t :=
  ⟨rfl, ⟨_, rfl⟩⟩
theorem witness_StepKeepsInvariant : (running push []).Inv ∧ ∃ t, step (running push []) = .next t :=
  ⟨running_inv push [] rfl (by decide), ⟨_, rfl⟩⟩
end Sys2Proof.Tests
end

section
/-! PROOFS. The statements of spec/30_encoding.md: what the decoder makes of a packet, told apart by what it checks in
order (R96), and what the port does with the word that completes one. -/

namespace Sys2Proof

/-! ## The decoder, check by check (spec/30_encoding.md R96) -/

/-- The bytes with no command (spec/30_encoding.md R95, R98). -/
theorem operandWords_eq_none {opc : Byte} (h : opc = 0x00#8 ∨ 0x09#8 ≤ opc) : operandWords opc = none := by
  have ne_defined : ∀ k : Byte, 0x01#8 ≤ k → k ≤ 0x08#8 → opc ≠ k := by
    intro k hlo hhi
    bv_omega
  simp [operandWords, ne_defined]

variable {w0 : Word} {n : Nat} {args : List Word}

theorem decode_of_reserved_opcode (h : operandWords (opcodeField w0) = none) (ws : List Word) :
    decode (w0 :: ws) = .refuse .illegalOpcode ws := by
  simp [decode, h]

theorem decode_of_short (h : operandWords (opcodeField w0) = some n) (hlen : args.length < n) :
    decode (w0 :: args) = .incomplete := by
  simp [decode, h, hlen]

theorem decode_of_reservedField (h : operandWords (opcodeField w0) = some args.length)
    (hres : reservedField w0 ≠ 0#32) (rest : List Word) :
    decode (w0 :: (args ++ rest)) = .refuse .reservedBits rest := by
  simp [decode, h, hres]

/-- A whole packet without bits in RSV0 that stands for a command: what is left to check is the command's own
operands. -/
theorem decode_of_buildInstr {i : Instr} (h : operandWords (opcodeField w0) = some args.length)
    (hres : reservedField w0 = 0#32) (hi : buildInstr (opcodeField w0) args = some i) (rest : List Word) :
    decode (w0 :: (args ++ rest)) = if i.wf then .accept i rest else .refuse .reservedBits rest := by
  simp [decode, h, hres, hi]

/-- The operand words of a DRAW_GRAY, of which the mode word is the last (spec/30_encoding.md R94, format FDG). -/
theorem buildInstr_drawGray (hlen : args.length = 6) :
    ∃ x y w h src, buildInstr 0x06#8 args = some (.drawGray x y w h src (args.getD 5 0#32)) := by
  match args, hlen with
  | [x, y, w, h, src, _], _ => exact ⟨x, y, w, h, src, rfl⟩

theorem drawGray_not_wf {x y w h src mode : Word} (hm : mode >>> 2 ≠ 0#32) :
    (Instr.drawGray x y w h src mode).wf = false := by
  simpa [Instr.wf, legalModeWord] using hm

/-- R99 for the mode word: it is checked when RSV0 is clear, and the refusal is the same when RSV0 is not. -/
theorem decode_of_illegal_mode (hop : opcodeField w0 = 0x06#8) (hlen : args.length = 6)
    (hm : args.getD 5 0#32 >>> 2 ≠ 0#32) (rest : List Word) :
    decode (w0 :: (args ++ rest)) = .refuse .reservedBits rest := by
  have hn : operandWords (opcodeField w0) = some args.length := by rw [hop, hlen]; rfl
  by_cases hres : reservedField w0 = 0#32
  · obtain ⟨x, y, w, h, src, hi⟩ := buildInstr_drawGray hlen
    rw [decode_of_buildInstr hn hres (hop ▸ hi), drawGray_not_wf hm]
    rfl
  · exact decode_of_reservedField hn hres rest

end Sys2Proof

namespace Sys2Proof.Machine

/-! ## The word that reaches the decoder -/

/-- The port hands a presented word to the decoder of a core that is not busy (spec/46_host_interface.md R291). -/
theorem step_of_listening_word {s : State} {w : Word} {rest : List PortAct} (hl : s.Listening)
    (hin : s.inbox = .word w :: rest) : step s = feedDecoder w { s with inbox := rest } := by
  obtain ⟨hbusy, hrst⟩ := hl
  simp [step, move, hin, takeAct, State.cmdReady, transfer, hbusy, hrst]

/-- A refused packet on a core that is not halted (spec/60_exceptions.md R322). -/
theorem feedDecoder_of_refuse {s : State} {w : Word} {e : DecodeError} {rest : List Word} (hh : s.halted = false)
    (hd : decode (s.packet ++ [w]) = .refuse e rest) :
    feedDecoder w s = .next (takeRefusal (refusalCode e) { s with packet := rest }) := by
  simp [feedDecoder, hd, refusePacket, hh]

/-! ## The dimension responses (spec/46_host_interface.md R298, R299) -/

theorem exec_getWidth (s : State) :
    exec .getWidth s = .next { s with rsp := s.width.setWidth 32, rspValid := true } := rfl

theorem exec_getHeight (s : State) :
    exec .getHeight s = .next { s with rsp := s.height.setWidth 32, rspValid := true } := rfl

/-- A dimension has ten bits, so a response has no bit above them (spec/30_encoding.md R116). -/
theorem zext_dimension_shiftRight (v : BitVec 10) : (v.setWidth 32 : Word) >>> 10 = 0#32 := by
  apply BitVec.eq_of_toNat_eq
  rw [BitVec.toNat_ushiftRight, BitVec.toNat_setWidth_of_le (by decide)]
  exact Nat.shiftRight_eq_zero v.toNat 10 v.isLt

end Sys2Proof.Machine

namespace Sys2Proof

open Machine

/-- Settles O4: a packet that is not whole waits, and each of the two reserved fields refuses a whole one. -/
theorem reservedFieldRefused : Obligations.ReservedFieldRefused := by
  intro w n args hn hbits
  refine ⟨decode_of_short hn, ?_⟩
  rintro rest rfl
  rcases hbits with hres | ⟨hop, hm⟩
  · exact decode_of_reservedField hn hres rest
  · have hlen : args.length = 6 := by
      rw [hop] at hn
      exact (Option.some.inj hn).symm
    exact decode_of_illegal_mode hop hlen hm rest

/-- Settles O3: the byte has no command, so the decoder refuses it alone, and the port records the refusal. The packet
that is left over is the empty one the decoder had. -/
theorem reservedOpcodeRefused : Obligations.ReservedOpcodeRefused := by
  intro w hopc
  have hd := decode_of_reserved_opcode (operandWords_eq_none hopc)
  refine ⟨hd, ?_⟩
  intro s rest hl hh hp hin
  have hrefuse : decode (s.packet ++ [w]) = .refuse .illegalOpcode s.packet := by
    rw [hp]
    exact hd []
  calc step s = feedDecoder w { s with inbox := rest } := step_of_listening_word hl hin
    _ = .next (takeRefusal .illegalOpcode { s with inbox := rest }) :=
      feedDecoder_of_refuse (s := { s with inbox := rest }) hh hrefuse

/-- Settles O47: both queries respond with a dimension, and a dimension's response is small. -/
theorem getDimensionResponds : Obligations.GetDimensionResponds :=
  fun s => ⟨exec_getWidth s, exec_getHeight s, zext_dimension_shiftRight s.width, zext_dimension_shiftRight s.height⟩

end Sys2Proof
end

section
/-! PROOFS. The statements of spec/40_config_shift_register.md: a Push as the list of positions it is, and a stretch of
events that a running core emits with nobody at its ports. -/

namespace Sys2Proof.Machine

/-! ## A stretch of events in front of a list -/

theorem Drive.event_emit (d : Drive) (e : Event) (s : State) : d.event (s.emit e) = d.event s := by
  cases d <;> rfl

theorem State.Quiet.emit {s : State} (hq : s.Quiet) (e : Event) : (s.emit e).Quiet :=
  ⟨hq.inbox, hq.pending, hq.stopReq, hq.rst⟩

theorem State.Quiet.with_todo {s : State} (hq : s.Quiet) (todo : List MicroOp) : { s with todo }.Quiet :=
  ⟨hq.inbox, hq.pending, hq.stopReq, hq.rst⟩

theorem headMoves_drives_append {rest : List MicroOp} (hm : headMoves rest = true) (ds : List Drive) :
    headMoves (ds.map .drive ++ rest) = true := by
  cases ds with
  | nil => exact hm
  | cons d ds => rfl

theorem emitAll_with_todo (es : List Event) (todo : List MicroOp) (s : State) :
    { s with todo }.emitAll es = { s.emitAll es with todo } := rfl

/-- Before an event or a row's reads nothing is silent: settling only sets the position (spec/10_state.md R36). -/
theorem settle_of_headMoves {ops : List MicroOp} (h : headMoves ops = true) (s : State) :
    settle ops s = { s with todo := ops } := by
  match ops, h with
  | .drive d :: rest, _ => exact settle_drive d rest s
  | .silent i :: rest, hr => exact settle_read i rest s hr

theorem finish_of_headMoves {s : State} (h : headMoves s.todo = true) : finish s = s := by
  cases ht : s.todo with
  | nil => simp [ht, headMoves] at h
  | cons op rest => exact finish_of_cons ht

/-- An undisturbed event that another move follows: the trace, the lines and the position change. -/
theorem step_event_before_move {s : State} {d : Drive} {rest : List MicroOp} (hq : s.Quiet) (hb : s.busy = true)
    (hw : s.waited = 0) (ht : s.todo = .drive d :: rest) (hm : headMoves rest = true) :
    step s = .next { s.emit (d.event s) with todo := rest } := by
  rw [step_undisturbed hq hb hw ht, settle_of_headMoves hm, finish_of_headMoves hm]

theorem run_succ_of_step {s t : State} (h : step s = .next t) (n : Nat) :
    Host.Core.run core (n + 1) s = Host.Core.run core n t := by
  simp only [Host.Core.run, core, h]

/-- Positions that each emit an event take a step each, if nobody disturbs them and a move follows the last. None of
them changes what a later one emits. -/
theorem run_drives (ds : List Drive) {rest : List MicroOp} (hm : headMoves rest = true) {s : State} (hq : s.Quiet)
    (hb : s.busy = true) (hw : s.waited = 0) (ht : s.todo = ds.map .drive ++ rest) :
    Host.Core.run core ds.length s = .next { s.emitAll (ds.map fun d => d.event s) with todo := rest } := by
  induction ds generalizing s with
  | nil =>
    subst ht
    rfl
  | cons d ds ih =>
    have hstep := step_event_before_move hq hb hw ht (headMoves_drives_append hm ds)
    have hrest := ih ((hq.emit (d.event s)).with_todo (ds.map .drive ++ rest)) hb hw rfl
    refine (run_succ_of_step hstep ds.length).trans (hrest.trans ?_)
    simp only [Drive.event_todo, Drive.event_emit, emitAll_with_todo, List.map_cons, emitAll_cons]

/-! ## Push (spec/40_config_shift_register.md R132) -/

/-- The positions of a Push, each of which emits an event. -/
def pushDrives : List Drive :=
  .set .cfgStr false ::
    ([7, 6, 5, 4, 3, 2, 1, 0].flatMap (fun k => [.set .cfgClk false, .sendBit k, .set .cfgClk true]) ++
      [.set .cfgStr true])

theorem push_eq_map_drive : push = pushDrives.map .drive := rfl

theorem length_pushDrives : pushDrives.length = 26 := rfl

theorem pushDrives_events (s : State) : (pushDrives.map fun d => d.event s) = pushEvents s.cr := rfl

theorem length_pushEvents (v : BitVec 8) : (pushEvents v).length = 26 := rfl

/-- A Push is made of Sets, which take no time (spec/00_scope.md R12). -/
theorem duration_pushEvents (v : BitVec 8) : duration (pushEvents v) = 0 := by
  simp [duration, pushEvents, Event.micros]

end Sys2Proof.Machine

namespace Sys2Proof

open Machine

/-- Settles O11: a Push is 26 positions that each emit an event, and it runs as such a stretch. -/
theorem pushTakesTwentySixSteps : Obligations.PushTakesTwentySixSteps := by
  intro s next rest hq hb hw ht hm
  refine ⟨length_pushEvents s.cr, duration_pushEvents s.cr, ?_⟩
  rw [push_eq_map_drive] at ht
  have hrun := run_drives pushDrives hm hq hb hw ht
  rwa [length_pushDrives, pushDrives_events] at hrun

end Sys2Proof
end

section
/-! PROOFS. The statements of spec/41_bus_writer.md: how many events a byte and a line of bytes are, and how long they
take. -/

namespace Sys2Proof.Machine

/-! ## Durations of composed traces (spec/10_state.md R53) -/

@[simp] theorem duration_nil : duration [] = 0 := rfl

@[simp] theorem duration_cons (e : Event) (es : List Event) : duration (e :: es) = e.micros + duration es := rfl

@[simp] theorem duration_append (es fs : List Event) : duration (es ++ fs) = duration es + duration fs := by
  simp [duration]

/-- Sets alone take no time, whichever lines they drive (spec/00_scope.md R12). -/
theorem duration_map_set {α : Type} (pin : α → Pin) (level : α → Bool) (xs : List α) :
    duration (xs.map fun x => .set (pin x) (level x)) = 0 := by
  induction xs with
  | nil => rfl
  | cons x xs ih => simp [ih, Event.micros]

/-! ## One byte (spec/41_bus_writer.md R150, R151) -/

/-- One Set per wired line, and the strobe's two. -/
theorem length_byteEvents (dmask b : Byte) : (byteEvents dmask b).length = popcount dmask + 2 := by
  simp [byteEvents, length_wiredLines]

theorem duration_byteEvents (dmask b : Byte) : duration (byteEvents dmask b) = 0 := by
  rw [byteEvents, duration_append, duration_map_set]
  rfl

/-! ## A line of bytes (R155, R156) -/

theorem lineEvents_cons (dmask b : Byte) (bytes : List Byte) :
    lineEvents dmask (b :: bytes) = byteEvents dmask b ++ lineEvents dmask bytes := rfl

theorem length_lineEvents (dmask : Byte) (bytes : List Byte) :
    (lineEvents dmask bytes).length = bytes.length * (popcount dmask + 2) := by
  induction bytes with
  | nil => simp [lineEvents]
  | cons b bytes ih =>
    rw [lineEvents_cons, List.length_append, length_byteEvents, ih, List.length_cons, Nat.succ_mul, Nat.add_comm]

theorem duration_lineEvents (dmask : Byte) (bytes : List Byte) : duration (lineEvents dmask bytes) = 0 := by
  induction bytes with
  | nil => rfl
  | cons b bytes ih => rw [lineEvents_cons, duration_append, duration_byteEvents, ih]

end Sys2Proof.Machine

namespace Sys2Proof

open Machine

/-- Settles O14: a line's events are its bytes' events one after another, each byte's as many as the mask says and
without a Wait. -/
theorem busEventCounts : Obligations.BusEventCounts :=
  fun dmask bytes => ⟨length_lineEvents dmask bytes, duration_lineEvents dmask bytes⟩

end Sys2Proof
end

section
/-! PROOFS. The statements of spec/42_power_sequencer.md: POWER_ON as a list that ends where the rule says, and the time
and the number of its events. -/

namespace Sys2Proof.Machine

/-! ## POWER_ON (spec/42_power_sequencer.md R171, R172) -/

/-- Five Pushes, three Waits and the Set of IE. -/
theorem length_powerOnEvents (cr : BitVec 8) : (powerOnEvents cr).length = 134 := by
  simp only [powerOnEvents, List.length_append, length_pushEvents, List.length_singleton]

/-- The Waits alone take time. -/
theorem duration_powerOnEvents (cr : BitVec 8) : duration (powerOnEvents cr) = 700000 := by
  simp only [powerOnEvents, duration_append, duration_pushEvents, duration_cons, duration_nil, Event.micros]

/-- CR after each of POWER_ON's five SetPushes (R171). -/
theorem writeField_powerOn (cr : BitVec 8) :
    writeField .scanDir true cr = cr ||| 0x20#8 ∧
      writeField .pwrDis false (cr ||| 0x20#8) = (cr ||| 0x20#8) &&& ~~~0x02#8 ∧
      writeField .negEn true ((cr ||| 0x20#8) &&& ~~~0x02#8) = (cr ||| 0x28#8) &&& ~~~0x02#8 ∧
      writeField .posEn true ((cr ||| 0x28#8) &&& ~~~0x02#8) = (cr ||| 0x2C#8) &&& ~~~0x02#8 ∧
      writeField .stv true ((cr ||| 0x2C#8) &&& ~~~0x02#8) = (cr ||| 0x3C#8) &&& ~~~0x02#8 := by
  revert cr; decide

/-- POWER_ON's list emits its events from whatever CR holds, and keeps LE, MODE and OE (R172). -/
theorem runOps_powerOnList (s : State) :
    runOps powerOnList s = s.advance ((s.cr ||| 0x3C#8) &&& ~~~0x02#8) (powerOnEvents s.cr) := by
  obtain ⟨hscan, hpwr, hneg, hpos, hstv⟩ := writeField_powerOn s.cr
  simp only [powerOnList, List.append_assoc, runOps_setPush, runOps_waitFor, runOps_setPin, advance_cr, advance_advance,
    hscan, hpwr, hneg, hpos, hstv]
  simp [powerOnEvents, waitEvents]

theorem exec_powerOn (s : State) : exec .powerOn s = .next (start powerOnList s) := rfl

end Sys2Proof.Machine

namespace Sys2Proof

open Machine

/-- Settles O16: POWER_ON's list ends in the state R172 gives, and an undisturbed core runs a list to its end in a step
for each event. -/
theorem powerOnCompletes : Obligations.PowerOnCompletes := by
  intro s hq
  refine ⟨length_powerOnEvents s.cr, duration_powerOnEvents s.cr, start powerOnList s, exec_powerOn s, ?_⟩
  have hrun := start_runs hq (powerOnEvents s.cr) (runOps_powerOnList _) (advance_log ..) (advance_raceTick ..)
  rwa [length_powerOnEvents] at hrun

end Sys2Proof
end

section
/-! PROOFS. The statements of spec/43_frame_pipeline.md: the time and the number of events of each part of a frame, and
of a frame whose rows are output or skipped. -/

namespace Sys2Proof.Machine

/-! ## Pulse (spec/43_frame_pipeline.md R192) -/

theorem length_waitEvents (n : Nat) : (waitEvents n).length = if 1 ≤ n then 1 else 0 := by
  cases n <;> rfl

/-- `Wait(0)` emits nothing and takes no time, so the duration has one form (spec/00_scope.md R12). -/
theorem duration_waitEvents (n : Nat) : duration (waitEvents n) = n := by
  cases n <;> rfl

theorem length_pulseEvents (a b : Nat) :
    (pulseEvents a b).length = 2 + (if 1 ≤ a then 1 else 0) + if 1 ≤ b then 1 else 0 := by
  simp only [pulseEvents, List.length_cons, List.length_append, length_waitEvents]
  omega

theorem duration_pulseEvents (a b : Nat) : duration (pulseEvents a b) = a + b := by
  simp [pulseEvents, duration_waitEvents, Event.micros]

/-! ## The start and the end of a frame (R194, R196) -/

/-- Four Pushes, three full Pulses, one Pulse of no high time and a Wait. -/
theorem length_startFrameEvents (cr : BitVec 8) : (startFrameEvents cr).length = 120 := by
  simp [startFrameEvents, length_pushEvents, length_pulseEvents]

theorem duration_startFrameEvents (cr : BitVec 8) : duration (startFrameEvents cr) = 1034 := by
  simp [startFrameEvents, duration_pushEvents, duration_pulseEvents, Event.micros]

/-- Two Pushes and two Pulses. -/
theorem length_endFrameEvents (cr : BitVec 8) : (endFrameEvents cr).length = 60 := by
  simp [endFrameEvents, length_pushEvents, length_pulseEvents]

theorem duration_endFrameEvents (cr : BitVec 8) : duration (endFrameEvents cr) = 4 := by
  simp [endFrameEvents, duration_pushEvents, duration_pulseEvents]

/-! ## The rows of a frame (R197, R199, R201) -/

theorem length_skipRowEvents : skipRowEvents.length = 4 := rfl

theorem duration_skipRowEvents : duration skipRowEvents = 50 := rfl

/-- The two Pushes of the latch, the row's Pulse, its bytes and the Pulse that ends it. -/
theorem length_outputRowEvents (dmask : Byte) (cr : BitVec 8) (bytes : List Byte) (p : Nat) :
    (outputRowEvents dmask cr bytes p).length =
      52 + (if 1 ≤ p then 4 else 3) + bytes.length * (popcount dmask + 2) + 4 := by
  simp only [outputRowEvents, latchRowEvents, List.length_append, length_pushEvents, length_pulseEvents,
    length_lineEvents]
  split <;> rfl

/-- The bytes take no time, so a row lasts its two Pulses. -/
theorem duration_outputRowEvents (dmask : Byte) (cr : BitVec 8) (bytes : List Byte) (p : Nat) :
    duration (outputRowEvents dmask cr bytes p) = p + 52 := by
  simp [outputRowEvents, latchRowEvents, duration_pushEvents, duration_pulseEvents, duration_lineEvents]

/-! ## A frame as the sum of its rows (R202) -/

/-- A row that counts `a` where it is a data row and `b` where it is not, summed over a list of rows. -/
theorem sum_map_ite_const {α : Type} (isData : α → Bool) (a b : Nat) (rows : List α) :
    (rows.map fun r => if isData r then a else b).sum =
      b * (rows.length - (rows.filter isData).length) + a * (rows.filter isData).length := by
  have hsplit := List.length_eq_length_filter_add (l := rows) isData
  have hskip : rows.length - (rows.filter isData).length = (rows.filter fun r => !isData r).length := by omega
  rw [List.sum_map_ite, hskip]
  simp [Nat.mul_comm, Nat.add_comm]

theorem duration_flatMap {α : Type} (row : α → List Event) (rows : List α) :
    duration (rows.flatMap row) = (rows.map fun r => duration (row r)).sum := by
  induction rows with
  | nil => rfl
  | cons r rows ih => rw [List.flatMap_cons, duration_append, ih, List.map_cons, List.sum_cons]

theorem length_frameEvents (cr : BitVec 8) (height : Nat) (row : Nat → List Event) :
    (frameEvents cr height row).length = 120 + ((List.range height).map fun r => (row r).length).sum + 60 := by
  simp only [frameEvents, List.length_append, length_startFrameEvents, length_endFrameEvents, List.length_flatMap]

theorem duration_frameEvents (cr : BitVec 8) (height : Nat) (row : Nat → List Event) :
    duration (frameEvents cr height row) = 1034 + ((List.range height).map fun r => duration (row r)).sum + 4 := by
  simp only [frameEvents, duration_append, duration_startFrameEvents, duration_endFrameEvents, duration_flatMap]

end Sys2Proof.Machine

namespace Sys2Proof

open Machine

/-- Settles O20: a frame is its start, its end and its rows, and each data row weighs the same, as each skipped row
does. -/
theorem frameSize : Obligations.FrameSize := by
  intro dmask h n p R bytes cr hn
  dsimp only
  constructor
  · simp only [drawFrameEvents, duration_frameEvents, apply_ite duration, duration_outputRowEvents,
      duration_skipRowEvents, sum_map_ite_const, List.length_range]
    omega
  · simp only [drawFrameEvents, length_frameEvents, apply_ite List.length, length_outputRowEvents, hn,
      length_skipRowEvents, sum_map_ite_const, List.length_range]
    rw [Nat.mul_comm (List.length _)]
    omega

end Sys2Proof
end

section
/-! PROOFS. The statements of spec/45_grayscale_engine.md about one row: the entries of a carved LUT, and the look-up of
a composed row in it. -/

namespace Sys2Proof.Machine

/-! ## The LUT of a pass (spec/45_grayscale_engine.md R255, R256) -/

/-- The two carvings of an entry as masks that are 0 where they do not apply (spec/30_encoding.md R112). -/
theorem carveEntry_eq_masked (level i : Nat) (v : Byte) :
    carveEntry level i v =
      v &&& ~~~(if i % 16 = level then 0x03#8 else 0x00#8) &&& ~~~(if i / 16 % 16 = level then 0x0C#8 else 0x00#8) := by
  have clear_nothing (b : Byte) : b &&& ~~~0x00#8 = b := BitVec.and_allOnes
  unfold carveEntry
  by_cases hlow : i % 16 = level <;> by_cases hhigh : i / 16 % 16 = level <;>
    simp only [hlow, hhigh, if_true, if_false, clear_nothing]

theorem entry_resetLut (m : BitVec 2) (s : State) {i : Nat} (hi : i < Config.lutEntries) :
    entry (resetLut m s).lut i = lutBase m := (entry_tabulate ..).trans (if_pos hi)

theorem entry_carve (level : Nat) (s : State) {i : Nat} (hi : i < Config.lutEntries) :
    entry (carve level s).lut i = carveEntry level i (entry s.lut i) := (entry_tabulate ..).trans (if_pos hi)

/-! ## A composed row in ROWBUF4 (R262) -/

/-- A Compose4 that succeeds writes the row's bytes and nothing else. -/
theorem eq_of_compose4_ok {R : Rect} {r : Nat} {s t : State} (h : compose4 R r s = .ok t) :
    t = { s with rowbuf4 := overwrite s.rowLen4 (s.rowByte4 R r) s.rowbuf4 } := by
  unfold compose4 at h
  split at h
  · exact (Except.ok.inj h).symm
  · contradiction

/-- A scratch byte below L4 after Compose4: the row fits its buffer. -/
theorem entry_compose4 {R : Rect} {r : Nat} {s t : State} (hw : s.width.toNat ≤ Config.maxWidth)
    (h : compose4 R r s = .ok t) {k : Nat} (hk : k < s.rowLen4) : entry t.rowbuf4 k = s.rowByte4 R r k := by
  rw [eq_of_compose4_ok h, entry_overwrite, if_pos (Nat.lt_of_lt_of_le hk (rowLen4_le hw)), if_pos hk]

/-- The pixels read neither the LUT nor the buffers. -/
theorem rowByte4_of_carved_lut (level : Nat) (m : BitVec 2) (s : State) :
    (carve level (resetLut m s)).rowByte4 = s.rowByte4 := rfl

/-- The low nibble of a scratch byte is its odd column (spec/30_encoding.md R108). -/
theorem packByte4_mod (px : Nat → BitVec 4) (k : Nat) : (packByte4 px k).toNat % 16 = (px (2 * k + 1)).toNat := by
  have h : ∀ a b : BitVec 4, (a ++ b).toNat % 16 = b.toNat := by decide
  exact h _ _

/-- The high nibble of a scratch byte is its even column (spec/30_encoding.md R108). -/
theorem packByte4_div (px : Nat → BitVec 4) (k : Nat) : (packByte4 px k).toNat / 16 = (px (2 * k)).toNat := by
  have h : ∀ a b : BitVec 4, (a ++ b).toNat / 16 = a.toNat := by decide
  exact h _ _

/-! ## Lookup (R263) -/

/-- An output byte is the LUT's entry at its index: the row fits OUTBUF. -/
theorem entry_lookup {s : State} (hw : s.width.toNat ≤ Config.maxWidth) {j : Nat} (hj : j < s.rowLenOut) :
    entry (lookup s).outbuf j = entry s.lut (s.lutIndex j).toNat := by
  rw [lookup, entry_overwrite, if_pos (Nat.lt_of_lt_of_le hj (rowLenOut_le hw)), if_pos hj]

theorem lutIndex_lt (s : State) (j : Nat) : (s.lutIndex j).toNat < Config.lutEntries := (s.lutIndex j).isLt

/-- The nibble that lane 0 is carved for is the low one of the even scratch byte (spec/30_encoding.md R110, R112). -/
theorem lutIndex_mod (s : State) (j : Nat) : (s.lutIndex j).toNat % 16 = (entry s.rowbuf4 (2 * j)).toNat % 16 := by
  rw [lutIndex_toNat]
  omega

/-- The nibble that lane 1 is carved for is the high one of the even scratch byte (spec/30_encoding.md R110, R112). -/
theorem lutIndex_div_mod (s : State) (j : Nat) :
    (s.lutIndex j).toNat / 16 % 16 = (entry s.rowbuf4 (2 * j)).toNat / 16 := by
  rw [lutIndex_toNat]
  have hbyte := (entry s.rowbuf4 (2 * j)).isLt
  omega

end Sys2Proof.Machine

namespace Sys2Proof

open Machine

/-- Settles O32: carving reads an entry that resetLUT has just set to the base, so no earlier LUT shows. -/
theorem lutClosedForm : Obligations.LutClosedForm := by
  intro s m level i hi
  rw [entry_carve level (resetLut m s) hi, entry_resetLut m s hi, carveEntry_eq_masked]

/-- Settles O33: the index's two lowest nibbles are the nibbles of scratch byte 2j, which hold the pixels of columns
4j + 1 and 4j, and the LUT's closed form asks for no other part of the index. -/
theorem outputByteClosedForm : Obligations.OutputByteClosedForm := by
  intro s t R p r j hw hcompose hj
  have hscratch : entry t.rowbuf4 (2 * j) = packByte4 (s.pixel4 R r) (2 * j) := by
    have hk : 2 * j < s.rowLen4 := Nat.lt_of_succ_lt (scratch_lt hj)
    rw [entry_compose4 (s := carve _ (resetLut _ s)) hw hcompose hk, rowByte4_of_carved_lut, State.rowByte4]
  have hlow : (t.lutIndex j).toNat % 16 = (s.pixel4 R r (4 * j + 1)).toNat := by
    rw [lutIndex_mod, hscratch, packByte4_mod, ← Nat.mul_assoc]
  have hhigh : (t.lutIndex j).toNat / 16 % 16 = (s.pixel4 R r (4 * j)).toNat := by
    rw [lutIndex_div_mod, hscratch, packByte4_div, ← Nat.mul_assoc]
  have hframe := eq_of_compose4_ok hcompose
  have hlut : t.lut = (carve (carveLevel p s.opl.mode) (resetLut s.opl.mode s)).lut := by rw [hframe]
  have hwidth : t.width = s.width := by rw [hframe]; rfl
  calc entry (lookup t).outbuf j
      = entry t.lut (t.lutIndex j).toNat := by
        refine entry_lookup (hwidth ▸ hw) ?_
        rwa [State.rowLenOut, State.rowLen4, hwidth]
    _ = s.grayByte R p r j := by
        rw [hlut, lutClosedForm s _ _ _ (lutIndex_lt t j), hlow, hhigh, State.grayByte]

end Sys2Proof
end

section
/-! PROOFS. The statements of spec/60_exceptions.md: a refused packet leaves its error code and nothing else. -/

namespace Sys2Proof.Machine

/-! ## The port of a core that takes its packets -/

/-- Such a core shows CMD_READY = 1 (spec/46_host_interface.md R291). -/
theorem State.Listening.cmdReady {s : State} (hl : s.Listening) : s.cmdReady = true := by
  obtain ⟨hbusy, hrst⟩ := hl
  simp [State.cmdReady, hbusy, hrst]

/-- An error that halts nothing leaves the port as it was (spec/60_exceptions.md R322). -/
theorem State.Listening.recordError {s : State} (hl : s.Listening) (c : ErrCode) : (s.recordError c).Listening where
  busy := (recordError_busy c s).trans hl.busy
  rst := (recordError_rst c s).trans hl.rst

theorem State.Listening.with_port {s : State} (hl : s.Listening) (inbox : List PortAct) (packet : List Word) :
    { s with inbox, packet }.Listening :=
  ⟨hl.busy, hl.rst⟩

end Sys2Proof.Machine

namespace Sys2Proof

open Machine

/-- Settles O50: the port hands the word to the decoder, the refusal writes ERR and ERR_CODE alone, and so the core is
as ready for the next packet as it was for this one. -/
theorem refusalRecordsErrorOnly : Obligations.RefusalRecordsErrorOnly := by
  intro s w rest e more hl hh hin hrefuse
  refine ⟨takeRefusal (refusalCode e) { s with inbox := rest, packet := more }, ?_, ?_, rfl⟩
  · calc step s = feedDecoder w { s with inbox := rest } := step_of_listening_word hl hin
      _ = .next (takeRefusal (refusalCode e) { s with inbox := rest, packet := more }) :=
        feedDecoder_of_refuse (s := { s with inbox := rest }) hh hrefuse
  · exact ((hl.with_port rest more).recordError (refusalCode e)).cmdReady

end Sys2Proof
end

section
/-! PROOFS. The statements of spec/30_encoding.md about a packet and its command: the encoder is the decoder's inverse in
both directions. -/

namespace Sys2Proof

/-! ## The packet of a command (spec/30_encoding.md R94, R95) -/

/-- Every command's packet has the shape the decoder asks for. -/
theorem packetShape (i : Instr) : Laws.PacketShape.Statement i := by
  cases i with
  | powerOn => exact Laws.PacketShape.powerOn
  | powerOff => exact Laws.PacketShape.powerOff
  | powerOffAll => exact Laws.PacketShape.powerOffAll
  | clear cycles => exact Laws.PacketShape.clear cycles
  | draw1bpp x y w h src pulse => exact Laws.PacketShape.draw1bpp x y w h src pulse
  | drawGray x y w h src mode => exact Laws.PacketShape.drawGray x y w h src mode
  | getWidth => exact Laws.PacketShape.getWidth
  | getHeight => exact Laws.PacketShape.getHeight

/-- Word 0 is its opcode where RSV0 is clear (R91). -/
theorem word0_of_reservedField {w0 : Word} (hres : reservedField w0 = 0#32) : w0 = (opcodeField w0).setWidth 32 := by
  have hhigh : (w0 >>> 8).toNat = 0 := by rw [← reservedField, hres]; rfl
  apply BitVec.eq_of_toNat_eq
  simp only [opcodeField, BitVec.toNat_setWidth, BitVec.toNat_ushiftRight, Nat.shiftRight_eq_div_pow] at hhigh ⊢
  omega

/-- The command built from an opcode and operand words has that opcode and those words in its packet. -/
theorem encode_of_buildInstr {opc : Byte} {args : List Word} {i : Instr} (h : buildInstr opc args = some i) :
    encode i = opc.setWidth 32 :: args := by
  unfold buildInstr at h
  repeat' split at h
  all_goals cases h
  all_goals subst_vars
  all_goals rfl

/-- What the decoder has checked when it accepts (R96). -/
theorem decode_accept {ws rest : List Word} {i : Instr} (h : decode ws = .accept i rest) :
    ∃ w0 n tail, ws = w0 :: tail ∧ reservedField w0 = 0#32 ∧ buildInstr (opcodeField w0) (tail.take n) = some i ∧
      i.wf = true ∧ rest = tail.drop n := by
  unfold decode at h
  split at h
  case h_1 => cases h
  case h_2 w0 tail =>
    split at h
    case h_1 => cases h
    case h_2 n hn =>
      split at h
      · cases h
      split at h
      · cases h
      rename_i hres
      split at h
      · cases h
      rename_i j hj
      split at h
      · rename_i hwf
        cases h
        exact ⟨w0, n, tail, rfl, not_not.mp hres, hj, hwf, rfl⟩
      · cases h

open Machine

/-- Settles O1: every command's packet passes the checks in order, and the last of them is the command's own. -/
theorem decodeOfEncode : Obligations.DecodeOfEncode := by
  intro i rest hwf
  obtain ⟨w0, args, henc, hn, hres, hbuild⟩ := packetShape i
  rw [henc, List.cons_append, decode_of_buildInstr hn hres hbuild, if_pos hwf]

/-- Settles O2: word 0 is the opcode alone, so opcode and operand words are the packet of the command built from
them. -/
theorem acceptedOnlyIfEncoded : Obligations.AcceptedOnlyIfEncoded := by
  intro ws rest i h
  obtain ⟨w0, n, tail, rfl, hres, hbuild, hwf, rfl⟩ := decode_accept h
  refine ⟨?_, hwf⟩
  rw [encode_of_buildInstr hbuild, ← word0_of_reservedField hres, List.cons_append, List.take_append_drop]

/-- Settles O5, by the packets of the five commands. -/
theorem sampleWordsDecode : Obligations.SampleWordsDecode :=
  ⟨decodeOfEncode .powerOn [] rfl, decodeOfEncode (.clear 0xFFFFFFFF#32) [] rfl,
    decodeOfEncode (.draw1bpp 0xFFFFFFFD#32 1#32 12#32 2#32 0x200#32 10#32) [] rfl,
    decodeOfEncode (.drawGray 0#32 0#32 2#32 1#32 0x2000#32 3#32) [] rfl, decodeOfEncode .getHeight [] rfl⟩

end Sys2Proof
end

section
/-! PROOFS. What the core's own moves keep, said once: every shared operation only adds events, and changes none of the
registers that belong to reset, to the host or to the platform. The statements about a single step follow from it. -/

namespace Sys2Proof.Machine

/-! ## What lasts -/

/-- The part of the state that the core's own moves leave to reset, the host and the platform, with the trace, the lines
and the sticky registers; the rest is blanked out. -/
def State.lasting (s : State) : State :=
  { s.untouched with
    opl := .zero, pending := none, packet := [], stopReq := false, raced := [], inbox := []
    err := s.err, errCode := s.errCode, halted := s.halted }

theorem lasting_of_untouched {s t : State} (hu : t.untouched = s.untouched) (he : t.err = s.err)
    (hc : t.errCode = s.errCode) (hh : t.halted = s.halted) : t.lasting = s.lasting := by
  simp only [State.lasting, hu, he, hc, hh]

/-- `t` comes after `s` by the core's own work, which emitted the events `es`. -/
structure Follows (es : List Event) (s t : State) : Prop where
  trace : t.trace = s.trace ++ es
  pins : t.pins = s.pins.afterAll es
  src : t.src = s.src
  srcAdmit : t.srcAdmit = s.srcAdmit
  dmask : t.dmask = s.dmask
  width : t.width = s.width
  height : t.height = s.height
  rst : t.rst = s.rst
  /-- an error stays recorded (spec/10_state.md R49) -/
  err : s.err = true → t.err = true
  /-- the first code stays (R49) -/
  errCode : s.errCode ≠ .none → t.errCode = s.errCode
  /-- a halted core stays halted (R49) -/
  halted : s.halted = true → t.halted = true
  /-- a response stays valid (spec/46_host_interface.md R300) -/
  rspValid : s.rspValid = true → t.rspValid = true

theorem Pins.afterAll_append (P : Pins) (es fs : List Event) : P.afterAll (es ++ fs) = (P.afterAll es).afterAll fs :=
  List.foldl_append ..

theorem Follows.trans {es fs : List Event} {s t u : State} (h : Follows es s t) (g : Follows fs t u) :
    Follows (es ++ fs) s u where
  trace := by rw [g.trace, h.trace, List.append_assoc]
  pins := by rw [g.pins, h.pins, Pins.afterAll_append]
  src := g.src.trans h.src
  srcAdmit := g.srcAdmit.trans h.srcAdmit
  dmask := g.dmask.trans h.dmask
  width := g.width.trans h.width
  height := g.height.trans h.height
  rst := g.rst.trans h.rst
  err := g.err ∘ h.err
  errCode hc := by
    have hst := h.errCode hc
    exact (g.errCode (hst ▸ hc)).trans hst
  halted := g.halted ∘ h.halted
  rspValid := g.rspValid ∘ h.rspValid

/-- Work that changes nothing of what lasts. -/
theorem Follows.silent {s t : State} (h : t.lasting = s.lasting) : Follows [] s t where
  trace := by
    have hlog : t.log = s.log := (congrArg State.log h :)
    rw [State.trace, hlog, List.append_nil]; rfl
  pins := (congrArg State.pins h :)
  src := (congrArg State.src h :)
  srcAdmit := (congrArg State.srcAdmit h :)
  dmask := (congrArg State.dmask h :)
  width := (congrArg State.width h :)
  height := (congrArg State.height h :)
  rst := (congrArg State.rst h :)
  err he := (congrArg State.err h).trans he
  errCode _ := (congrArg State.errCode h :)
  halted hh := (congrArg State.halted h).trans hh
  rspValid hv := (congrArg State.rspValid h).trans hv

theorem Follows.refl (s : State) : Follows [] s s := .silent rfl

/-! ## The shared operations -/

theorem emit_follows (e : Event) (s : State) : Follows [e] s (s.emit e) where
  trace := by simp [State.trace]
  pins := rfl
  src := rfl
  srcAdmit := rfl
  dmask := rfl
  width := rfl
  height := rfl
  rst := rfl
  err := id
  errCode _ := rfl
  halted := id
  rspValid := id

theorem recordError_follows (c : ErrCode) (s : State) : Follows [] s (s.recordError c) where
  trace := (List.append_nil _).symm
  pins := rfl
  src := rfl
  srcAdmit := rfl
  dmask := rfl
  width := rfl
  height := rfl
  rst := rfl
  err _ := rfl
  errCode hc := if_neg hc
  halted := id
  rspValid := id

theorem takeHaltingFault_follows (c : ErrCode) (s : State) : Follows [] s (takeHaltingFault c s) where
  __ := recordError_follows c s
  halted _ := rfl

theorem takeFaultAt_follows (c : ErrCode) (i : Silent) (s : State) : Follows [] s (takeFaultAt c i s) := by
  obtain ⟨n, b1, b4, h⟩ := takeFaultAt_shape c i s
  have hmark : Follows [] s { s with raceTick := n, rowbuf1 := b1, rowbuf4 := b4 } := .silent rfl
  exact h ▸ hmark.trans (takeHaltingFault_follows c _)

theorem runSilent_follows {i : Silent} {s t : State} (h : runSilent i s = .ok t) : Follows [] s t := by
  obtain ⟨hu, -, -, -, he, hc, hh⟩ := runSilent_ok h
  exact .silent (lasting_of_untouched hu he hc hh)

theorem countRead_follows (i : Silent) (s : State) : Follows [] s (countRead i s) := by
  obtain ⟨n, h⟩ := countRead_shape i s
  exact h ▸ .silent rfl

theorem settle_follows (ops : List MicroOp) (s : State) : Follows [] s (settle ops s) := by
  obtain ⟨t, rest, h, hu, -, -, he, hc, hh, -⟩ | ⟨t, c, -, h, hu, he, hc, hh⟩ := settle_cases ops s
  · have hl : { t with todo := rest }.lasting = s.lasting := lasting_of_untouched hu he hc hh
    exact h ▸ .silent hl
  · have hl : t.lasting = s.lasting := lasting_of_untouched hu he hc hh
    exact h ▸ (Follows.silent hl).trans (takeHaltingFault_follows c t)

/-- Settling forgets no Wait in progress, but a fault does. -/
theorem settle_waited (ops : List MicroOp) (s : State) : (settle ops s).waited = s.waited ∨ (settle ops s).waited = 0 := by
  obtain ⟨t, rest, h, -, -, hw, -⟩ | ⟨t, c, -, h, -⟩ := settle_cases ops s
  · exact .inl (h ▸ hw)
  · exact .inr (h ▸ rfl)

theorem finish_follows (s : State) : Follows [] s (finish s) := by
  obtain ⟨b, h⟩ := finish_shape s
  exact h ▸ .silent rfl

theorem start_follows (ops : List MicroOp) (s : State) : Follows [] s (start ops s) := by
  have hbusy : Follows [] s { s with busy := true, waited := 0, raced := [] } := .silent rfl
  exact (hbusy.trans (settle_follows ops _)).trans (finish_follows _)

theorem exec_follows {i : Instr} {s t : State} (h : exec i s = .next t) : Follows [] s t := by
  have hresp (v : BitVec 10) : Follows [] s (respond v s) :=
    { Follows.refl s with rspValid := fun _ => rfl }
  obtain ⟨ops, -, h'⟩ | ⟨-, h'⟩ | ⟨-, h'⟩ := exec_cases i s <;> rw [h'] at h <;> cases h
  · have hopl : Follows [] s (s.latched i) := .silent rfl
    exact hopl.trans (start_follows ops _)
  · exact hresp _
  · exact hresp _

theorem feedDecoder_follows {w : Word} {s t : State} (h : feedDecoder w s = .next t) : Follows [] s t := by
  have hpacket (p : List Word) : Follows [] s { s with packet := p } := .silent rfl
  obtain ⟨-, rfl⟩ | ⟨i, p, -, -, he⟩ | ⟨i, p, -, -, -, rfl⟩ | ⟨e, p, -, -, rfl⟩ | ⟨e, p, -, -, rfl⟩ := feedDecoder_cases h
  · exact hpacket _
  · exact (hpacket p).trans (exec_follows he)
  · exact hpacket _
  · exact hpacket _
  · exact (hpacket p).trans (recordError_follows _ _)

/-! ## Moves of the running command -/

/-- What one step can emit: nothing, a Wait, or the event at the head of the running command's list. -/
def Emits (s : State) (es : List Event) : Prop :=
  es = [] ∨ (∃ n, es = [.wait n]) ∨ ∃ d rest, s.todo = .drive d :: rest ∧ es = [d.event s]

theorem Emits.length_le {s : State} {es : List Event} (h : Emits s es) : es.length ≤ 1 := by
  obtain rfl | ⟨n, rfl⟩ | ⟨d, rest, -, rfl⟩ := h
  · exact Nat.zero_le 1
  · exact le_rfl
  · exact le_rfl

/-- A move of the running command: after an event no Wait is in progress. -/
theorem performNext_follows (s : State) :
    ∃ es, Emits s es ∧ Follows es s (performNext s) ∧ (es = [] ∨ (performNext s).waited = 0) := by
  obtain ⟨d, rest, ht, h⟩ | ⟨i, rest, t, -, hok, h⟩ | ⟨i, rest, c, -, -, h⟩ | ⟨-, h⟩ := performNext_cases s <;> rw [h]
  · refine ⟨[d.event s], .inr (.inr ⟨d, rest, ht, rfl⟩), ?_, .inr ?_⟩
    · have hw : Follows [] (s.emit (d.event s)) { s.emit (d.event s) with waited := 0 } := .silent rfl
      exact ((((emit_follows _ s).trans hw).trans (settle_follows rest _)).trans (finish_follows _) :)
    · rw [finish_waited]
      exact (settle_waited rest _).elim id id
  · exact ⟨[], .inl rfl, (((countRead_follows i s).trans (runSilent_follows hok)).trans (settle_follows rest t)).trans
      (finish_follows _), .inl rfl⟩
  · exact ⟨[], .inl rfl, takeFaultAt_follows c i s, .inl rfl⟩
  · exact ⟨[], .inl rfl, finish_follows s, .inl rfl⟩

theorem passTime_cases (us : Nat) (s : State) :
    passTime us s = s ∨ passTime us s = performNext s ∨
      ∃ n rest, s.todo = .drive (.wait n) :: rest ∧ s.waited + us < n ∧
        passTime us s = { s with waited := s.waited + us } := by
  unfold passTime
  split
  · rename_i n rest ht
    split
    · rename_i hlt; exact .inr (.inr ⟨n, rest, ht, hlt, rfl⟩)
    · exact .inr (.inl rfl)
  · exact .inl rfl

/-- The Wait a preemption records truncated (spec/46_host_interface.md R296). -/
def State.cutEvents (s : State) : List Event := if 0 < s.waited then [.wait s.waited] else []

theorem cutShort_eq (s : State) :
    cutShort s = { s.emitAll s.cutEvents with todo := [], waited := 0, stopReq := false } := by
  unfold cutShort State.cutEvents
  split <;> rfl

theorem emitAll_follows (es : List Event) (s : State) : Follows es s (s.emitAll es) where
  __ := Follows.refl s
  trace := emitAll_trace es s
  pins := rfl

theorem cutShort_follows (s : State) : Follows s.cutEvents s (cutShort s) := by
  have hcut : Follows [] (s.emitAll s.cutEvents) (cutShort s) := by
    rw [cutShort_eq]; exact .silent rfl
  simpa using (emitAll_follows s.cutEvents s).trans hcut

theorem readFault_follows (s : State) : Follows [] s (readFault s) := by
  obtain h | ⟨i, _, c, -, -, h⟩ := readFault_cases s <;> rw [h]
  · exact .refl s
  · exact takeFaultAt_follows c i s

theorem readFault_waited (s : State) : (readFault s).waited = s.waited ∨ (readFault s).waited = 0 := by
  obtain h | ⟨i, _, c, -, -, h⟩ := readFault_cases s <;> rw [h]
  · exact .inl rfl
  · exact .inr rfl

/-- A preemption emits the truncated Wait, if one was in progress. -/
theorem preempted_follows (s : State) :
    Follows (readFault s).cutEvents s (start powerOffAllList (cutShort (readFault s))) := by
  simpa using ((readFault_follows s).trans (cutShort_follows _)).trans (start_follows powerOffAllList _)

theorem cutEvents_of_waited_zero {s : State} (h : s.waited = 0) : s.cutEvents = [] := by simp [State.cutEvents, h]

theorem readFault_cutEvents (s : State) : (readFault s).cutEvents = s.cutEvents ∨ (readFault s).cutEvents = [] := by
  obtain h | h := readFault_waited s
  · exact .inl (by simp only [State.cutEvents, h])
  · exact .inr (cutEvents_of_waited_zero h)

theorem emits_cutEvents (s u : State) : Emits s u.cutEvents := by
  unfold State.cutEvents
  split
  · exact .inr (.inl ⟨_, rfl⟩)
  · exact .inl rfl

/-- What follows a move emits at most the Wait that was in progress. -/
theorem afterMove_follows {u t : State} (h : afterMove u = .next t) :
    Follows [] u t ∨ Follows u.cutEvents u t := by
  obtain ⟨-, rfl⟩ | ⟨-, -, rfl⟩ | ⟨-, -, w, -, hw⟩ := afterMove_cases h
  · exact .inl (.refl t)
  · have hp := preempted_follows u
    obtain hc | hc := readFault_cutEvents u <;> rw [hc] at hp
    · exact .inr hp
    · exact .inl hp
  · have hpending : Follows [] u { u with pending := none } := .silent rfl
    exact .inl (hpending.trans (feedDecoder_follows hw))

theorem event_follows {s t : State} (h : afterMove (performNext s) = .next t) : ∃ es, Emits s es ∧ Follows es s t := by
  obtain ⟨es, hes, hf, hlast⟩ := performNext_follows s
  obtain hafter | hafter := afterMove_follows h
  · exact ⟨es, hes, by simpa using hf.trans hafter⟩
  · obtain rfl | hw := hlast
    · exact ⟨_, emits_cutEvents s _, hf.trans hafter⟩
    · rw [cutEvents_of_waited_zero hw] at hafter
      exact ⟨es, hes, by simpa using hf.trans hafter⟩

theorem time_follows {s t : State} {us : Nat} (hb : s.busy = true) (h : afterMove (passTime us s) = .next t) :
    ∃ es, Emits s es ∧ Follows es s t := by
  have stays {u : State} (hu : u.busy = true) (h : afterMove u = .next t) : t = u := by
    simp only [afterMove, hu, if_true] at h
    exact (Host.Outcome.next.inj h).symm
  obtain e | e | ⟨n, rest, -, -, e⟩ := passTime_cases us s <;> rw [e] at h
  · exact ⟨[], .inl rfl, stays hb h ▸ .refl s⟩
  · exact event_follows h
  · refine ⟨[], .inl rfl, ?_⟩
    rw [stays (u := { s with waited := s.waited + us }) hb h]
    exact .silent rfl

/-! ## One step -/

/-- What the ports alone can change in a step. -/
inductive PortChange (s : State) : PortAct → State → Prop where
  | ack : PortChange s .ack (acknowledge s)
  | write (a : Word) (b : Byte) : PortChange s (.write a b) (hostWrite a b s)
  | memOk (regions : List Region) : PortChange s (.memOk regions) (setAdmit regions s)
  | assertRst : PortChange s .assertRst (assertRst s)
  | releaseRst (reqW reqH : Word) (dmaskIn : Byte) (hr : s.rst = true) :
      PortChange s (.releaseRst reqW reqH dmaskIn) (releaseRst reqW reqH dmaskIn s)

theorem moves_follows {act : Option PortAct} {s t : State} (h : Moves act s t) :
    (∃ es, Emits s es ∧ Follows es s t) ∨ ∃ a, act = some a ∧ PortChange s a t := by
  cases h with
  | rest => exact .inl ⟨[], .inl rfl, .refl s⟩
  | event _ h => exact .inl (event_follows h)
  | time us hb h => exact .inl (time_follows hb h)
  | stop _ => exact .inl ⟨_, emits_cutEvents s _, preempted_follows s⟩
  | word w _ _ h => exact .inl ⟨[], .inl rfl, feedDecoder_follows h⟩
  | ask => exact .inl ⟨[], .inl rfl, .silent rfl⟩
  | hold => exact .inl ⟨[], .inl rfl, .silent rfl⟩
  | acknowledge ha => exact .inr ⟨_, ha, .ack⟩
  | write a b ha => exact .inr ⟨_, ha, .write a b⟩
  | memOk regions ha => exact .inr ⟨_, ha, .memOk regions⟩
  | assertRst ha => exact .inr ⟨_, ha, .assertRst⟩
  | releaseRst rw rh dm hr ha => exact .inr ⟨_, ha, .releaseRst rw rh dm hr⟩

/-- One step: the core's own work with at most one event, or a change that the ports alone make. -/
theorem step_follows {s t : State} (h : step s = .next t) :
    (∃ es, Emits s es ∧ Follows es s t) ∨
      ∃ a rest, s.inbox = a :: rest ∧ PortChange { s with inbox := rest } a t := by
  obtain hm | ⟨a, rest, hin, hm⟩ := step_moves h
  · obtain hf | ⟨a, ha, -⟩ := moves_follows hm
    · exact .inl hf
    · cases ha
  · obtain ⟨es, hes, hf⟩ | ⟨_, ha, hp⟩ := moves_follows hm
    · have hinbox : Follows [] s { s with inbox := rest } := .silent rfl
      refine .inl ⟨es, ?_, hinbox.trans hf⟩
      obtain rfl | hn | ⟨d, l, ht, rfl⟩ := hes
      · exact .inl rfl
      · exact .inr (.inl hn)
      · exact .inr (.inr ⟨d, l, ht, by cases d <;> rfl⟩)
    · cases ha
      exact .inr ⟨a, rest, hin, hp⟩

theorem moveCore_next (s : State) : ∃ t, moveCore s = .next t := by
  unfold moveCore
  split
  · exact afterMove_next _
  · exact ⟨s, rfl⟩

theorem moveOrStop_next (s : State) : ∃ t, moveOrStop s = .next t := by
  unfold moveOrStop
  split
  · exact ⟨_, preempt_eq s⟩
  · exact moveCore_next s

theorem transfer_next (w : Word) (s : State) : ∃ t, transfer w s = .next t := by
  unfold transfer
  repeat' split
  · exact ⟨_, rfl⟩
  · exact ⟨_, rfl⟩
  · exact feedDecoder_next w s

theorem takeAct_next (a : PortAct) (rest : List PortAct) (s : State) : ∃ t, takeAct a rest s = .next t := by
  cases a with simp only [takeAct]
  | word w =>
    split
    · exact transfer_next w _
    · split
      · exact ⟨_, rfl⟩
      · exact moveOrStop_next s
  | ack => exact ⟨_, rfl⟩
  | write addr b => exact ⟨_, rfl⟩
  | assertRst => exact ⟨_, rfl⟩
  | releaseRst reqW reqH dmaskIn => split <;> exact ⟨_, rfl⟩
  | core => exact moveCore_next _
  | time us =>
    split
    · exact afterMove_next _
    · exact ⟨_, rfl⟩
  | waitIdle =>
    split
    · exact moveOrStop_next s
    · exact ⟨_, rfl⟩
  | stopPoint => split <;> exact ⟨_, rfl⟩
  | memOk regions => exact ⟨_, rfl⟩

end Sys2Proof.Machine

namespace Sys2Proof

open Machine

/-- Settles O10: of the changes the ports alone make only a host write and new answers reach the source memory, and the
core's own work changes neither. -/
theorem coreNeverWritesSource : Obligations.CoreNeverWritesSource := by
  intro s t h
  obtain ⟨es, -, hf⟩ | ⟨a, rest, hin, hp⟩ := step_follows h
  · exact ⟨fun _ => hf.src, fun _ => hf.srcAdmit⟩
  · cases hp with
    | ack => exact ⟨fun _ => rfl, fun _ => rfl⟩
    | write a b => exact ⟨fun hno => absurd hin (hno a b rest), fun _ => rfl⟩
    | memOk regions => exact ⟨fun _ => rfl, fun hno => absurd hin (hno regions rest)⟩
    | assertRst => exact ⟨fun _ => rfl, fun _ => rfl⟩
    | releaseRst => exact ⟨fun _ => rfl, fun _ => rfl⟩

/-- Settles O48: the core's own work keeps a valid response, and of the ports' changes only an acknowledgement and the
release of RST clear it. -/
theorem responseKeptUntilAcknowledged : Obligations.ResponseKeptUntilAcknowledged := by
  intro s t h
  refine ⟨?_, ?_⟩
  · intro rest hin
    have hack : step s = .next { s with inbox := rest, rspValid := false } := by
      simp only [step, move, hin, takeAct]; rfl
    exact Host.Outcome.next.inj (h.symm.trans hack)
  · intro hv hnack hnrel
    obtain ⟨es, -, hf⟩ | ⟨a, rest, hin, hp⟩ := step_follows h
    · exact hf.rspValid hv
    · cases hp with
      | ack => exact absurd hin (hnack rest)
      | write a b => exact hv
      | memOk regions => exact hv
      | assertRst => exact hv
      | releaseRst rw rh dm => exact absurd hin (hnrel rw rh dm rest)

/-- Settles O52: neither the core's own work nor any change of the ports but the release of RST writes these
registers. -/
theorem errorsAreSticky : Obligations.ErrorsAreSticky := by
  intro s t h hnrel
  obtain ⟨es, -, hf⟩ | ⟨a, rest, hin, hp⟩ := step_follows h
  · exact ⟨hf.err, hf.errCode, hf.halted, hf.width, hf.height, hf.dmask⟩
  · cases hp with
    | releaseRst rw rh dm => exact absurd hin (hnrel rw rh dm rest)
    | _ => exact ⟨id, fun _ => rfl, id, rfl, rfl, rfl⟩

/-- Settles O53: every arm of a step ends in exec, in the decoder's port or in a state, and exec always answers a next
state. -/
theorem everyStepAnswersNext : Obligations.EveryStepAnswersNext := by
  intro s
  unfold step move
  split
  · exact moveOrStop_next s
  · exact takeAct_next _ _ s

/-- Settles O57: the core's own work in a step emits at most one event, and the ports' changes emit none. -/
theorem stepEmitsAtMostOneEvent : Obligations.StepEmitsAtMostOneEvent := by
  intro s t h hnrel
  obtain ⟨es, hes, hf⟩ | ⟨a, rest, hin, hp⟩ := step_follows h
  · exact ⟨es, hes.length_le, hf.trace, hf.pins⟩
  · cases hp with
    | releaseRst rw rh dm => exact absurd hin (hnrel rw rh dm rest)
    | _ => exact ⟨[], Nat.zero_le 1, (List.append_nil _).symm, rfl⟩

/-- Settles O58: the events that a step adds to the trace are those that change the lines; the release of RST begins both
anew. -/
theorem stepKeepsLinesReplay : Obligations.StepKeepsLinesReplay := by
  intro s t hs h
  obtain ⟨es, -, hf⟩ | ⟨a, rest, hin, hp⟩ := step_follows h
  · rw [State.LinesReplay, hf.pins, hf.trace, Pins.afterAll_append, ← hs]
  · cases hp with
    | releaseRst rw rh dm => rfl
    | _ => exact hs

end Sys2Proof
end

section
/-! PROOFS. The invariant of the state: what every shared operation keeps of it, and the statements that rest on it. The
invariant is proved in two parts, what holds of the registers at any moment and where the running command stands. -/

namespace Sys2Proof.Machine

/-! ## The dimensions sampled at reset (spec/10_state.md R41) -/

/-- A clamped dimension, for every maximum that fits its ten bits. -/
theorem toNat_clampDim {maxDim : Nat} (hmax : maxDim < 1024) (req : Word) :
    ((clampDim maxDim req).toNat : Int) =
      if req.toInt ≤ 0 ∨ (maxDim : Int) < req.toInt then (maxDim : Int) else req.toInt := by
  unfold clampDim
  split
  · rw [BitVec.toNat_ofNat, Nat.mod_eq_of_lt hmax]
  · rename_i hin
    have hcases := BitVec.toInt_eq_toNat_cond req
    have hlt := req.isLt
    rw [BitVec.toNat_setWidth]
    split at hcases <;> omega

/-- A clamped dimension is in 1..maximum. -/
theorem clampDim_range {maxDim : Nat} (hpos : 1 ≤ maxDim) (hmax : maxDim < 1024) (req : Word) :
    1 ≤ (clampDim maxDim req).toNat ∧ (clampDim maxDim req).toNat ≤ maxDim := by
  have h := toNat_clampDim hmax req
  split at h <;> omega

/-! ## The registers -/

/-- The part of the invariant that speaks of the registers, the memory and the lines. -/
structure State.Sound (s : State) : Prop where
  width_range : 1 ≤ s.width.toNat ∧ s.width.toNat ≤ Config.maxWidth
  height_range : 1 ≤ s.height.toNat ∧ s.height.toNat ≤ Config.maxHeight
  memory_wf : s.src.wf = true
  err_iff_code : s.err = true ↔ s.errCode ≠ .none
  halted_err : s.halted = true → s.err = true
  unwired_undriven : ∀ i : Fin 8, s.dmask.getLsbD i = false → s.pins.data[i] = .x
  rsp_small : s.rsp.toNat < 1024

theorem State.Inv.sound {s : State} (h : s.Inv) : s.Sound :=
  ⟨h.width_range, h.height_range, h.memory_wf, h.err_iff_code, h.halted_err, h.unwired_undriven, h.rsp_small⟩

/-- The registers depend on what lasts only. -/
theorem State.Sound.silent {s t : State} (hs : s.Sound) (h : t.lasting = s.lasting) : t.Sound := by
  have hwidth : t.width = s.width := (congrArg State.width h :)
  have hheight : t.height = s.height := (congrArg State.height h :)
  have hsrc : t.src = s.src := (congrArg State.src h :)
  have herr : t.err = s.err := (congrArg State.err h :)
  have hcode : t.errCode = s.errCode := (congrArg State.errCode h :)
  have hhalted : t.halted = s.halted := (congrArg State.halted h :)
  have hdmask : t.dmask = s.dmask := (congrArg State.dmask h :)
  have hpins : t.pins = s.pins := (congrArg State.pins h :)
  have hrsp : t.rsp = s.rsp := (congrArg State.rsp h :)
  obtain ⟨hw, hh, hm, hec, hhe, hu, hr⟩ := hs
  refine ⟨?_, ?_, ?_, ?_, ?_, ?_, ?_⟩
  · rwa [hwidth]
  · rwa [hheight]
  · rwa [hsrc]
  · rwa [herr, hcode]
  · rwa [hhalted, herr]
  · rwa [hdmask, hpins]
  · rwa [hrsp]

/-- A position that a list may hold leaves an unwired data line alone (spec/41_bus_writer.md R152). -/
theorem after_unwired {s : State} {d : Drive} (ha : opAllowed s.dmask (.drive d) = true) {i : Fin 8}
    (hi : s.dmask.getLsbD i = false) : (s.pins.after (d.event s)).data[i] = s.pins.data[i] := by
  cases d with
  | set p v =>
    cases p with
    | d j => cases ha
    | _ => rfl
  | sendBit k => rfl
  | wait n => rfl
  | busBit buf k j =>
    have hne : j ≠ i := by
      rintro rfl
      exact Bool.false_ne_true (hi.symm.trans ha)
    have hval : (j : Nat) ≠ i := fun h => hne (Fin.ext h)
    simp [Drive.event, Pins.after, Pins.put, hval]

theorem State.Sound.emit {s : State} (hs : s.Sound) {d : Drive} (ha : opAllowed s.dmask (.drive d) = true) :
    (s.emit (d.event s)).Sound where
  __ := hs
  unwired_undriven i hi := (after_unwired ha hi).trans (hs.unwired_undriven i hi)

theorem State.Sound.recordError {s : State} (hs : s.Sound) {c : ErrCode} (hc : c ≠ .none) : (s.recordError c).Sound where
  __ := hs
  err_iff_code := by
    refine ⟨fun _ => ?_, fun _ => rfl⟩
    simp only [State.recordError]
    split
    · exact hc
    · assumption
  halted_err _ := rfl

theorem State.Sound.takeHaltingFault {s : State} (hs : s.Sound) {c : ErrCode} (hc : c ≠ .none) :
    (takeHaltingFault c s).Sound where
  __ := hs.recordError hc
  halted_err _ := rfl

theorem State.Sound.settle {s : State} (hs : s.Sound) (ops : List MicroOp) : (settle ops s).Sound := by
  obtain ⟨t, rest, h, hu, -, -, he, hc, hh, -⟩ | ⟨t, c, rfl, h, hu, he, hc, hh⟩ := settle_cases ops s <;> rw [h]
  · have hl : { t with todo := rest }.lasting = s.lasting := lasting_of_untouched hu he hc hh
    exact hs.silent hl
  · have hl : t.lasting = s.lasting := lasting_of_untouched hu he hc hh
    exact (hs.silent hl).takeHaltingFault (by decide)

theorem State.Sound.finish {s : State} (hs : s.Sound) : (finish s).Sound := by
  obtain ⟨b, h⟩ := finish_shape s
  exact h ▸ hs.silent rfl

theorem State.Sound.countRead {s : State} (hs : s.Sound) (i : Silent) : (countRead i s).Sound := by
  obtain ⟨n, h⟩ := countRead_shape i s
  exact h ▸ hs.silent rfl

theorem State.Sound.runSilent {s t : State} {i : Silent} (hs : s.Sound) (h : runSilent i s = .ok t) : t.Sound := by
  obtain ⟨hu, -, -, -, he, hc, hh⟩ := runSilent_ok h
  exact hs.silent (lasting_of_untouched hu he hc hh)

theorem runSilent_error_ne_none {i : Silent} {s : State} {c : ErrCode} (h : runSilent i s = .error c) : c ≠ .none := by
  rw [runSilent_error h]
  split <;> decide

theorem State.Sound.takeFaultAt {s : State} (hs : s.Sound) {c : ErrCode} (hc : c ≠ .none) (i : Silent) :
    (takeFaultAt c i s).Sound := by
  obtain ⟨n, b1, b4, h⟩ := takeFaultAt_shape c i s
  have hmark : { s with raceTick := n, rowbuf1 := b1, rowbuf4 := b4 }.Sound := hs.silent rfl
  exact h ▸ hmark.takeHaltingFault hc

theorem State.Sound.readFault {s : State} (hs : s.Sound) : (readFault s).Sound := by
  obtain h | ⟨i, rest, c, -, hc, h⟩ := readFault_cases s <;> rw [h]
  · exact hs
  · exact hs.takeFaultAt (runSilent_error_ne_none hc) i

theorem State.Sound.cutShort {s : State} (hs : s.Sound) : (cutShort s).Sound := by
  unfold Machine.cutShort
  split
  · exact (hs.emit (d := .wait s.waited) (by simpa [opAllowed])).silent rfl
  · exact hs.silent rfl

theorem State.Sound.respond {s : State} (hs : s.Sound) (v : BitVec 10) : (respond v s).Sound where
  __ := hs
  rsp_small := by
    rw [respond_rsp, BitVec.toNat_setWidth]
    exact (Nat.mod_le _ _).trans_lt v.isLt

/-! ## The running command's position -/

/-- The part of the invariant that says where the running command stands, with no word about what else the port holds. -/
structure State.Placed (s : State) : Prop where
  busy_moves : s.busy = true → headMoves s.todo = true
  idle_done : s.busy = false → s.todo = [] ∧ s.waited = 0
  wait_open : s.waited = 0 ∨ s.waited < headWait s.todo
  list_allowed : ListAllowed s.dmask s.todo

theorem State.Inv.placed {s : State} (h : s.Inv) : s.Placed where
  busy_moves := h.busy_moves
  idle_done hb := ⟨(h.idle_clean hb).1, (h.idle_clean hb).2.1⟩
  wait_open := h.wait_open
  list_allowed := h.list_allowed

/-- The two parts make the invariant where the decoder is at a packet boundary and nothing waits for an idle core. -/
theorem State.Sound.inv {s : State} (hs : s.Sound) (hp : s.Placed) (hpacket : s.packet = []) (hr : s.rst = false)
    (hport : s.busy = false → s.stopReq = false ∧ s.pending = none) : s.Inv where
  __ := hs
  __ := hp
  rst_not_busy h := by simp [hr] at h
  idle_clean hb :=
    have ⟨htodo, hwaited⟩ := hp.idle_done hb
    have ⟨hstop, hpending⟩ := hport hb
    ⟨htodo, hwaited, hstop, hpending⟩
  busy_packet _ := hpacket
  packet_open := by rw [hpacket]; rfl
  list_allowed := hp.list_allowed

/-- A halted command has no position left. -/
theorem takeHaltingFault_placed (c : ErrCode) (s : State) : (takeHaltingFault c s).Placed where
  busy_moves h := by cases h
  idle_done _ := ⟨rfl, rfl⟩
  wait_open := .inl rfl
  list_allowed := listAllowed_nil

theorem takeFaultAt_placed (c : ErrCode) (i : Silent) (s : State) : (takeFaultAt c i s).Placed := by
  obtain ⟨n, b1, b4, h⟩ := takeFaultAt_shape c i s
  exact h ▸ takeHaltingFault_placed c _

/-- After a move the command stands before its next move, or it is over. -/
theorem finish_settle_placed {ops : List MicroOp} {s : State} (hb : s.busy = true) (hw : s.waited = 0)
    (ha : ListAllowed s.dmask ops) : (finish (settle ops s)).Placed := by
  obtain ⟨t, rest, h, hu, hb', hw', -, -, -, hsuffix, hrest⟩ | ⟨t, c, -, h, -⟩ := settle_cases ops s <;> rw [h]
  · have hdmask : t.dmask = s.dmask := (congrArg State.dmask hu :)
    obtain rfl | hm := hrest
    · rw [finish_of_nil rfl]
      exact ⟨fun h => (by cases h), fun _ => ⟨rfl, hw'.trans hw⟩, .inl (hw'.trans hw), listAllowed_nil⟩
    · rw [finish_of_headMoves hm]
      exact ⟨fun _ => hm, fun h => (by simp [hb', hb] at h), .inl (hw'.trans hw),
        fun op ho => hdmask ▸ ha op (hsuffix.mem ho)⟩
  · rw [finish_of_nil rfl]
    exact ⟨fun h => (by cases h), fun _ => ⟨rfl, rfl⟩, .inl rfl, listAllowed_nil⟩

/-- A command that has just been accepted, from any registers. -/
theorem start_sound_placed {ops : List MicroOp} {s : State} (hs : s.Sound) (ha : ListAllowed s.dmask ops) :
    (start ops s).Sound ∧ (start ops s).Placed := by
  have hbusy : { s with busy := true, waited := 0, raced := [] }.Sound := hs.silent rfl
  exact ⟨(hbusy.settle ops).finish, finish_settle_placed rfl rfl ha⟩

/-- A move of the running command keeps both parts. -/
theorem performNext_sound_placed {s : State} (hs : s.Sound) (hp : s.Placed) (hb : s.busy = true) :
    (performNext s).Sound ∧ (performNext s).Placed := by
  obtain ⟨d, rest, ht, h⟩ | ⟨i, rest, t, ht, hok, h⟩ | ⟨i, rest, c, -, herr, h⟩ | ⟨ht, -⟩ := performNext_cases s
  · have hlist := hp.list_allowed
    rw [ht] at hlist
    have hrest : ListAllowed s.dmask rest := fun op ho => hlist op (List.mem_cons_of_mem _ ho)
    have hemit : { s.emit (d.event s) with waited := 0 }.Sound := (hs.emit (hlist _ List.mem_cons_self)).silent rfl
    rw [h]
    exact ⟨(hemit.settle rest).finish, finish_settle_placed hb rfl hrest⟩
  · have hwait := hp.wait_open
    rw [ht] at hwait
    have hw : s.waited = 0 := hwait.resolve_right (Nat.not_lt_zero _)
    have hlist := hp.list_allowed
    rw [ht] at hlist
    obtain ⟨hu, hb', hw', -⟩ := runSilent_ok hok
    obtain ⟨n, hn⟩ := countRead_shape i s
    rw [hn] at hu hb' hw'
    have hdmask : t.dmask = s.dmask := (congrArg State.dmask hu :)
    rw [h]
    exact ⟨(((hs.countRead i).runSilent hok).settle rest).finish, finish_settle_placed (hb'.trans hb) (hw'.trans hw)
      fun op ho => hdmask ▸ hlist op (List.mem_cons_of_mem _ ho)⟩
  · rw [h]
    exact ⟨hs.takeFaultAt (runSilent_error_ne_none herr) i, takeFaultAt_placed c i s⟩
  · have hm := hp.busy_moves hb
    rw [ht] at hm
    cases hm

/-! ## What the port holds while a command moves -/

/-- A move of the running command leaves the decoder alone. -/
theorem performNext_packet (s : State) : (performNext s).packet = s.packet := by
  obtain ⟨d, rest, -, h⟩ | ⟨i, rest, t, -, hok, h⟩ | ⟨i, rest, c, -, -, h⟩ | ⟨-, h⟩ := performNext_cases s <;> rw [h]
  · simp
  · obtain ⟨n, hn⟩ := countRead_shape i s
    have hp : t.packet = (countRead i s).packet := (congrArg State.packet (runSilent_ok hok).1 :)
    rw [finish_packet, settle_packet, hp, hn]
  · obtain ⟨n, b1, b4, h⟩ := takeFaultAt_shape c i s
    rw [h, takeHaltingFault_packet]
  · exact finish_packet s

theorem readFault_packet (s : State) : (readFault s).packet = s.packet := by
  obtain h | ⟨i, rest, c, -, -, h⟩ := readFault_cases s <;> rw [h]
  obtain ⟨n, b1, b4, h⟩ := takeFaultAt_shape c i s
  rw [h, takeHaltingFault_packet]

/-- POWER_OFF_ALL stands before its Push at once, with the frame dropped (spec/42_power_sequencer.md R176). -/
theorem start_powerOffAllList (s : State) : start powerOffAllList s =
    { s with cr := 0x00#8, fstate := .idle, row := 0#10, busy := true, todo := push, waited := 0, raced := [] } := rfl

theorem cutShort_packet (s : State) : (cutShort s).packet = s.packet := by rw [cutShort_eq]; rfl

/-- A preemption keeps the invariant: POWER_OFF_ALL runs, so PENDING may stay. -/
theorem preempted_inv {s : State} (hs : s.Sound) (hpacket : s.packet = []) (hr : s.rst = false) :
    (start powerOffAllList (cutShort (readFault s))).Inv := by
  have hallowed : ListAllowed (cutShort (readFault s)).dmask powerOffAllList :=
    listAllowed_commandList .powerOffAll (cutShort (readFault s)) _ rfl
  obtain ⟨hsound, hplaced⟩ := start_sound_placed hs.readFault.cutShort hallowed
  refine hsound.inv hplaced ?_ ?_ ?_
  · rw [start_powerOffAllList]
    exact (cutShort_packet _).trans ((readFault_packet s).trans hpacket)
  · exact (preempted_follows s).rst.trans hr
  · intro hb
    rw [start_powerOffAllList] at hb
    cases hb

/-! ## The decoder's port -/

theorem exec_inv {i : Instr} {s t : State} (hs : s.Inv) (hb : s.busy = false) (hr : s.rst = false)
    (hpacket : s.packet = []) (h : exec i s = .next t) : t.Inv := by
  obtain ⟨htodo, hwaited, hstop, hpending⟩ := hs.idle_clean hb
  obtain ⟨ops, hops, h'⟩ | ⟨-, h'⟩ | ⟨-, h'⟩ := exec_cases i s <;> rw [h'] at h <;> cases h
  · have hlatched : (s.latched i).Sound := hs.sound.silent rfl
    obtain ⟨hsound, hplaced⟩ := start_sound_placed hlatched (listAllowed_commandList i s ops hops)
    refine hsound.inv hplaced ?_ ?_ fun _ => ⟨?_, ?_⟩ <;> unfold start <;> simpa
  · exact { hs with rsp_small := (hs.sound.respond s.width).rsp_small }
  · exact { hs with rsp_small := (hs.sound.respond s.height).rsp_small }

theorem State.Inv.with_packet {s : State} (hs : s.Inv) (hb : s.busy = false) {p : List Word}
    (hp : decode p = .incomplete) : { s with packet := p }.Inv where
  __ := hs
  busy_packet h := by simp [hb] at h
  packet_open := hp

theorem feedDecoder_inv {w : Word} {s t : State} (hs : s.Inv) (hb : s.busy = false) (hr : s.rst = false)
    (h : feedDecoder w s = .next t) : t.Inv := by
  obtain ⟨haccept, hrefuse⟩ := decode_rest_of_open (w := w) hs.packet_open
  have hempty : { s with packet := [] }.Inv := hs.with_packet hb rfl
  obtain ⟨hd, rfl⟩ | ⟨i, p, hd, -, he⟩ | ⟨i, p, hd, -, -, rfl⟩ | ⟨e, p, hd, -, rfl⟩ | ⟨e, p, hd, -, rfl⟩ :=
    feedDecoder_cases h
  · exact hs.with_packet hb hd
  · cases haccept i p hd
    exact exec_inv hempty hb hr rfl he
  · cases haccept i p hd
    exact hempty
  · cases hrefuse e p hd
    exact hempty
  · cases hrefuse e p hd
    have hcode : refusalCode e ≠ .none := by cases e <;> decide
    exact { hempty with
      err_iff_code := (hempty.sound.recordError hcode).err_iff_code
      halted_err := (hempty.sound.recordError hcode).halted_err }

/-- What follows a move keeps the invariant: an idle core takes the preemption asked for or the word held. -/
theorem afterMove_inv {s t : State} (hs : s.Sound) (hp : s.Placed) (hpacket : s.packet = []) (hr : s.rst = false)
    (h : afterMove s = .next t) : t.Inv := by
  obtain ⟨hstay, rfl⟩ | ⟨-, -, rfl⟩ | ⟨hb, hstop, w, -, hw⟩ := afterMove_cases h
  · refine hs.inv hp hpacket hr fun hb => ?_
    obtain hbusy | hclean := hstay
    · simp [hb] at hbusy
    · exact hclean
  · exact preempted_inv hs hpacket hr
  · have hsound : { s with pending := none }.Sound := hs.silent rfl
    have hplaced : { s with pending := none }.Placed := { hp with }
    exact feedDecoder_inv (hsound.inv hplaced hpacket hr fun _ => ⟨hstop, rfl⟩) hb hr hw

/-! ## One step -/

theorem State.Inv.with_inbox {s : State} (hs : s.Inv) (inbox : List PortAct) : { s with inbox }.Inv := { hs with }

theorem State.Inv.busy_rst {s : State} (hs : s.Inv) (hb : s.busy = true) : s.rst = false := by
  cases hr : s.rst with
  | false => rfl
  | true => exact absurd (hs.rst_not_busy hr) (by simp [hb])

theorem State.Inv.busy_of_stopReq {s : State} (hs : s.Inv) (h : s.stopReq = true) : s.busy = true := by
  cases hb : s.busy with
  | true => rfl
  | false =>
    obtain ⟨-, -, hstop, -⟩ := hs.idle_clean hb
    exact absurd hstop (by simp [h])

theorem performNext_afterMove_inv {s t : State} (hs : s.Inv) (hb : s.busy = true)
    (h : afterMove (performNext s) = .next t) : t.Inv := by
  obtain ⟨hsound, hplaced⟩ := performNext_sound_placed hs.sound hs.placed hb
  obtain ⟨es, -, hf, -⟩ := performNext_follows s
  exact afterMove_inv hsound hplaced ((performNext_packet s).trans (hs.busy_packet hb)) (hf.rst.trans (hs.busy_rst hb)) h

/-- Time inside a Wait that does not reach its end keeps the invariant. -/
theorem State.Inv.with_waited {s : State} (hs : s.Inv) (hb : s.busy = true) {n k : Nat} {rest : List MicroOp}
    (ht : s.todo = .drive (.wait n) :: rest) (hlt : k < n) : { s with waited := k }.Inv where
  __ := hs
  idle_clean h := by simp [hb] at h
  wait_open := .inr (by rw [ht]; exact hlt)

theorem afterMove_of_busy {s t : State} (hb : s.busy = true) (h : afterMove s = .next t) : t = s := by
  simp only [afterMove, hb, if_true] at h
  exact (Host.Outcome.next.inj h).symm

theorem undriven_data : ∀ i : Fin 8, Pins.undriven.data[i] = .x := by decide

/-- The release of RST establishes the invariant: the sampled dimensions are clamped. -/
theorem releaseRst_inv {s : State} (hwf : s.src.wf = true) (reqW reqH : Word) (dmaskIn : Byte) :
    (releaseRst reqW reqH dmaskIn s).Inv where
  width_range := clampDim_range (by decide) (by decide) reqW
  height_range := clampDim_range (by decide) (by decide) reqH
  memory_wf := hwf
  err_iff_code := ⟨fun h => (by cases h), fun h => absurd rfl h⟩
  halted_err h := by cases h
  rst_not_busy _ := rfl
  idle_clean _ := ⟨rfl, rfl, rfl, rfl⟩
  busy_moves h := by cases h
  busy_packet _ := rfl
  packet_open := rfl
  wait_open := .inl rfl
  list_allowed := listAllowed_nil
  unwired_undriven i _ := undriven_data i
  rsp_small := (by decide : (0#32).toNat < 1024)

theorem moves_inv {act : Option PortAct} {s t : State} (hs : s.Inv) (h : Moves act s t) : t.Inv := by
  cases h with
  | rest => exact hs
  | event hb h => exact performNext_afterMove_inv hs hb h
  | time us hb h =>
    obtain e | e | ⟨n, rest, ht, hlt, e⟩ := passTime_cases us s <;> rw [e] at h
    · rwa [afterMove_of_busy hb h]
    · exact performNext_afterMove_inv hs hb h
    · rw [afterMove_of_busy (s := { s with waited := s.waited + us }) hb h]
      exact hs.with_waited hb ht hlt
  | stop hstop =>
    have hb := hs.busy_of_stopReq hstop
    exact preempted_inv hs.sound (hs.busy_packet hb) (hs.busy_rst hb)
  | word w hr hb h => exact feedDecoder_inv hs hb hr h
  | ask hr hb hp => exact { hs with idle_clean := fun h => by simp [hb] at h }
  | hold w hr hb hp hw => exact { hs with idle_clean := fun h => by simp [hb] at h }
  | acknowledge => exact { hs with }
  | write a b => exact { hs with memory_wf := wf_write b hs.memory_wf a.isLt }
  | memOk regions => exact { hs with }
  | assertRst =>
    exact { hs with
      rst_not_busy := fun _ => rfl
      idle_clean := fun _ => ⟨rfl, rfl, rfl, rfl⟩
      busy_moves := fun h => by cases h
      busy_packet := fun h => by cases h
      wait_open := .inl rfl
      list_allowed := listAllowed_nil }
  | releaseRst rw rh dm => exact releaseRst_inv hs.memory_wf rw rh dm

theorem step_inv {s t : State} (hs : s.Inv) (h : step s = .next t) : t.Inv := by
  obtain hm | ⟨a, rest, -, hm⟩ := step_moves h
  · exact moves_inv hs hm
  · exact moves_inv (hs.with_inbox rest) hm

/-! ## The input-enable line -/

/-- A position that a list may hold does not lower IE (spec/70_reset_and_hazards.md R364). -/
theorem after_ie {s : State} {d : Drive} (ha : opAllowed s.dmask (.drive d) = true) (h : s.pins.ie = .hi) :
    (s.pins.after (d.event s)).ie = .hi := by
  cases d with
  | set p v =>
    cases p with
    | ie =>
      have hv : v = true := ha
      rw [hv]; rfl
    | _ => exact h
  | _ => exact h

/-! ## In reset -/

/-- With RST asserted only the ports change anything. -/
theorem moves_in_reset {act : Option PortAct} {s t : State} (hs : s.Inv) (hr : s.rst = true) (h : Moves act s t) :
    t = s ∨ ∃ a, act = some a ∧ PortChange s a t := by
  have hb := hs.rst_not_busy hr
  have nbusy : s.busy ≠ true := by simp [hb]
  have nrst : s.rst ≠ false := by simp [hr]
  cases h with
  | rest => exact .inl rfl
  | event hb' => exact absurd hb' nbusy
  | time us hb' => exact absurd hb' nbusy
  | stop hstop => exact absurd (hs.busy_of_stopReq hstop) nbusy
  | word w hr' => exact absurd hr' nrst
  | ask hr' => exact absurd hr' nrst
  | hold w hr' => exact absurd hr' nrst
  | acknowledge ha => exact .inr ⟨_, ha, .ack⟩
  | write a b ha => exact .inr ⟨_, ha, .write a b⟩
  | memOk regions ha => exact .inr ⟨_, ha, .memOk regions⟩
  | assertRst ha => exact .inr ⟨_, ha, .assertRst⟩
  | releaseRst rw rh dm hr' ha => exact .inr ⟨_, ha, .releaseRst rw rh dm hr'⟩

/-- A step in reset, up to the schedule it leaves. -/
theorem step_in_reset {s t : State} (hs : s.Inv) (hr : s.rst = true) (h : step s = .next t) :
    (∃ inbox, t = { s with inbox }) ∨
      ∃ a rest, s.inbox = a :: rest ∧ PortChange { s with inbox := rest } a t := by
  obtain hm | ⟨a, rest, hin, hm⟩ := step_moves h
  · obtain rfl | ⟨a, ha, -⟩ := moves_in_reset hs hr hm
    · exact .inl ⟨t.inbox, rfl⟩
    · cases ha
  · obtain rfl | ⟨_, ha, hp⟩ := moves_in_reset (hs.with_inbox rest) hr hm
    · exact .inl ⟨rest, rfl⟩
    · cases ha
      exact .inr ⟨a, rest, hin, hp⟩

end Sys2Proof.Machine

namespace Sys2Proof

open Machine

/-- Settles O54: both maxima fit ten bits. -/
theorem dimensionsClamped : Obligations.DimensionsClamped :=
  fun req => ⟨toNat_clampDim (by decide) req, toNat_clampDim (by decide) req⟩

/-- Settles O60: the core's moves keep the registers sound and the running command placed, and leave nothing waiting for
an idle core; the ports' changes touch single clauses. -/
theorem stepKeepsInvariant : Obligations.StepKeepsInvariant := fun _ _ => step_inv

/-- Settles O19: the one event that a step can emit is a Wait or stands in the running command's list, where IE is only
raised. -/
theorem inputEnableStaysHigh : Obligations.InputEnableStaysHigh := by
  intro s t hs h hie hnrel
  obtain ⟨es, hes, hf⟩ | ⟨a, rest, hin, hp⟩ := step_follows h
  · rw [hf.pins]
    obtain rfl | ⟨n, rfl⟩ | ⟨d, rest, ht, rfl⟩ := hes
    · exact hie
    · exact hie
    · exact after_ie (hs.list_allowed _ (ht ▸ List.mem_cons_self)) hie
  · cases hp with
    | releaseRst rw rh dm => exact absurd hin (hnrel rw rh dm rest)
    | _ => exact hie

/-- Settles O56: with RST asserted the core is idle and nothing is asked for, so only the ports change anything, and of
their changes only the release ends the reset. -/
theorem resetAssertedIsSilent : Obligations.ResetAssertedIsSilent := by
  intro s t hs h
  refine ⟨?_, ?_⟩
  · intro rest hin
    have hassert : step s = .next (assertRst { s with inbox := rest }) := by simp only [step, move, hin, takeAct]
    cases h.symm.trans hassert
    exact ⟨rfl, rfl, rfl, rfl⟩
  · intro hr
    have hb := hs.rst_not_busy hr
    refine ⟨by simp [State.cmdReady, hr], hb, ?_⟩
    obtain ⟨inbox, rfl⟩ | ⟨a, rest, hin, hp⟩ := step_in_reset hs hr h
    · exact ⟨hb, le_rfl, fun _ => ⟨hr, rfl, rfl⟩⟩
    · cases hp with
      | ack => exact ⟨hb, le_rfl, fun _ => ⟨hr, rfl, rfl⟩⟩
      | write a b => exact ⟨hb, le_rfl, fun _ => ⟨hr, rfl, rfl⟩⟩
      | memOk regions => exact ⟨hb, le_rfl, fun _ => ⟨hr, rfl, rfl⟩⟩
      | assertRst => exact ⟨rfl, le_rfl, fun _ => ⟨rfl, rfl, rfl⟩⟩
      | releaseRst rw rh dm => exact ⟨rfl, Nat.zero_le _, fun hnrel => absurd hin (hnrel rw rh dm rest)⟩

end Sys2Proof
end

section
/-! PROOFS. The frame state machine and CR.LE: every shared operation follows the walk of the list it runs, so no
requirement of the frame state machine fails, and LE is 0 wherever a command can stop. -/

namespace Sys2Proof.Machine

/-! ## Walking with the frame state machine (spec/43_frame_pipeline.md R190) -/

theorem row_zero_le (height : BitVec 10) : 0#10 ≤ height := by bv_omega

/-- The list walks from where the frame state machine stands, and ROW is in 0..HEIGHT. -/
structure State.Walks (s : State) (ops : List MicroOp) : Prop where
  walk : frameWalk s.height ops s.fstate s.row = true
  row_le : s.row ≤ s.height

/-- The error registers stay. -/
def SameErrors (s t : State) : Prop := t.errCode = s.errCode ∧ t.halted = s.halted

/-- A silent position on the walk leads on along it. -/
theorem State.Walks.runSilent {s t : State} {i : Silent} {rest : List MicroOp} (hs : s.Walks (.silent i :: rest))
    (h : runSilent i s = .ok t) : t.Walks rest := by
  obtain ⟨hw, hrow⟩ := hs
  cases i with
  | dropFrame => cases h; exact ⟨hw, row_zero_le _⟩
  | closeFrame => cases h; exact ⟨hw, row_zero_le _⟩
  | openFrame =>
    simp only [Machine.runSilent, Machine.openFrame] at h
    split at h <;> cases h
    simp only [frameWalk, Bool.and_eq_true] at hw
    exact ⟨hw.2, row_zero_le _⟩
  | requireRow =>
    simp only [Machine.runSilent, Machine.requireRow] at h
    split at h <;> cases h
    simp only [frameWalk, Bool.and_eq_true] at hw
    exact ⟨hw.2, hrow⟩
  | requireFull =>
    simp only [Machine.runSilent, Machine.requireFull] at h
    split at h <;> cases h
    simp only [frameWalk, Bool.and_eq_true] at hw
    exact ⟨hw.2, hrow⟩
  | countRow =>
    cases h
    simp only [frameWalk, Bool.and_eq_true, decide_eq_true_eq] at hw
    obtain ⟨⟨-, hlt⟩, hw⟩ := hw
    exact ⟨hw, show s.row + 1#10 ≤ s.height by bv_omega⟩
  | compose1 R r =>
    simp only [Machine.runSilent, Machine.compose1] at h
    split at h <;> cases h
    exact ⟨hw, hrow⟩
  | compose4 R r =>
    simp only [Machine.runSilent, Machine.compose4] at h
    split at h <;> cases h
    exact ⟨hw, hrow⟩
  | setBit f v => cases h; exact ⟨hw, hrow⟩
  | clearCr => cases h; exact ⟨hw, hrow⟩
  | fillRow b => cases h; exact ⟨hw, hrow⟩
  | resetLut m => cases h; exact ⟨hw, hrow⟩
  | carve l => cases h; exact ⟨hw, hrow⟩
  | lookup => cases h; exact ⟨hw, hrow⟩

/-- On the walk no requirement of the frame state machine fails. -/
theorem State.Walks.runSilent_ne_fsmFault {s : State} {i : Silent} {rest : List MicroOp}
    (hs : s.Walks (.silent i :: rest)) (hr : i.reads = false) (c : ErrCode) : Machine.runSilent i s ≠ .error c := by
  obtain ⟨hw, -⟩ := hs
  intro h
  cases i with
  | openFrame =>
    simp only [frameWalk, Bool.and_eq_true, beq_iff_eq] at hw
    simp [Machine.runSilent, Machine.openFrame, hw.1] at h
  | requireRow =>
    simp only [frameWalk, Bool.and_eq_true, beq_iff_eq, decide_eq_true_eq] at hw
    simp [Machine.runSilent, Machine.requireRow, hw.1] at h
  | requireFull =>
    simp only [frameWalk, Bool.and_eq_true, beq_iff_eq] at hw
    simp [Machine.runSilent, Machine.requireFull, hw.1] at h
  | compose1 R r => cases hr
  | compose4 R r => cases hr
  | _ => cases h

/-- Settling a list that walks takes no fault and stops on the walk. -/
theorem State.Walks.settle {ops : List MicroOp} {s : State} (hs : s.Walks ops) :
    (settle ops s).Walks (settle ops s).todo ∧ SameErrors s (settle ops s) := by
  induction ops generalizing s with
  | nil => exact ⟨⟨hs.walk, hs.row_le⟩, rfl, rfl⟩
  | cons op rest ih =>
    cases op with
    | drive d => exact ⟨⟨hs.walk, hs.row_le⟩, rfl, rfl⟩
    | silent i =>
      cases hr : i.reads with
      | true => rw [settle_read i rest s hr]; exact ⟨⟨hs.walk, hs.row_le⟩, rfl, rfl⟩
      | false =>
        cases h : Machine.runSilent i s with
        | error c => exact absurd h (hs.runSilent_ne_fsmFault hr c)
        | ok t =>
          obtain ⟨-, -, -, -, -, hcode, hhalted⟩ := runSilent_ok h
          obtain ⟨hwalks, hcode', hhalted'⟩ := ih (hs.runSilent h)
          rw [settle_silent_ok h rest hr]
          exact ⟨hwalks, hcode'.trans hcode, hhalted'.trans hhalted⟩

theorem State.Walks.finish {s : State} (hs : s.Walks s.todo) : (finish s).Walks (finish s).todo := by
  obtain ⟨b, h⟩ := finish_shape s
  exact h ▸ ⟨hs.walk, hs.row_le⟩

theorem sameErrors_finish (s : State) : SameErrors s (finish s) := ⟨finish_errCode s, finish_halted s⟩

theorem SameErrors.trans {s t u : State} (h : SameErrors s t) (g : SameErrors t u) : SameErrors s u :=
  ⟨g.1.trans h.1, g.2.trans h.2⟩

/-- A list that walks, settled after a move or at a command's start. -/
theorem State.Walks.finish_settle {ops : List MicroOp} {s : State} (hs : s.Walks ops) :
    (Machine.finish (Machine.settle ops s)).Walks (Machine.finish (Machine.settle ops s)).todo ∧
      SameErrors s (Machine.finish (Machine.settle ops s)) :=
  ⟨hs.settle.1.finish, hs.settle.2.trans (sameErrors_finish _)⟩

theorem State.Walks.frameSafe {s : State} (hs : s.Walks s.todo) : s.FrameSafe := ⟨fun _ => hs.walk, hs.row_le⟩

theorem State.FrameSafe.walks {s : State} (hf : s.FrameSafe) (h : s.busy = true ∨ (s.halted = false ∧ s.rst = false)) :
    s.Walks s.todo := ⟨hf.walk h, hf.row_le⟩

/-! ## What a move records -/

/-- A SRC_FAULT has halted the core; an earlier code stays (spec/10_state.md R49). -/
def SrcFaulted (s t : State) : Prop :=
  t.errCode = (if s.errCode = .none then .srcFault else s.errCode) ∧ t.halted = true

/-- A refusal has been recorded on a core that is not halted (spec/60_exceptions.md R322). -/
def Refused (s t : State) : Prop :=
  ∃ e, t.errCode = (if s.errCode = .none then refusalCode e else s.errCode) ∧ s.halted = false ∧ t.halted = false

theorem SrcFaulted.of_sameErrors_left {s t u : State} (h : SameErrors s t) (g : SrcFaulted t u) : SrcFaulted s u := by
  obtain ⟨hc, -⟩ := h
  rwa [SrcFaulted, ← hc]

theorem SrcFaulted.of_sameErrors_right {s t u : State} (h : SrcFaulted s t) (g : SameErrors t u) : SrcFaulted s u :=
  ⟨g.1.trans h.1, g.2.trans h.2⟩

theorem Refused.of_sameErrors_left {s t u : State} (h : SameErrors s t) (g : Refused t u) : Refused s u := by
  obtain ⟨hc, hh⟩ := h
  rwa [Refused, ← hc, ← hh]

/-- A second fault leaves the first one's code. -/
theorem SrcFaulted.trans {s t u : State} (h : SrcFaulted s t) (g : SrcFaulted t u) : SrcFaulted s u := by
  refine ⟨g.1.trans ?_, g.2⟩
  have hne : t.errCode ≠ .none := by
    rw [h.1]
    split
    · decide
    · assumption
  rw [if_neg hne, h.1]

theorem takeFaultAt_srcFaulted (i : Silent) (s : State) : SrcFaulted s (takeFaultAt .srcFault i s) := by
  obtain ⟨n, b1, b4, h⟩ := takeFaultAt_shape .srcFault i s
  rw [h]
  exact ⟨rfl, rfl⟩

/-- A halted core that is not running has no walk to keep, only ROW in range. -/
theorem takeFaultAt_frameSafe {s : State} (hrow : s.row ≤ s.height) (c : ErrCode) (i : Silent) :
    (takeFaultAt c i s).FrameSafe := by
  obtain ⟨n, b1, b4, h⟩ := takeFaultAt_shape c i s
  rw [h]
  refine ⟨?_, hrow⟩
  rintro (hb | ⟨hh, -⟩)
  · cases hb
  · cases hh

/-! ## Moves of the running command -/

theorem State.Walks.countRead {s : State} {ops : List MicroOp} (hs : s.Walks ops) (i : Silent) :
    (countRead i s).Walks ops := by
  obtain ⟨n, h⟩ := countRead_shape i s
  exact h ▸ ⟨hs.walk, hs.row_le⟩

theorem sameErrors_countRead (i : Silent) (s : State) : SameErrors s (countRead i s) := by
  obtain ⟨n, h⟩ := countRead_shape i s
  rw [h]
  exact ⟨rfl, rfl⟩

/-- Where the command stands before a move, a silent position is a row's reads, whose fault is a SRC_FAULT. -/
theorem srcFault_of_headMoves {s : State} {i : Silent} {rest : List MicroOp} {c : ErrCode}
    (hm : headMoves s.todo = true) (ht : s.todo = .silent i :: rest) (h : runSilent i (countRead i s) = .error c) :
    c = .srcFault := by
  rw [ht] at hm
  have hr : i.reads = true := hm
  simpa [hr] using runSilent_error h

/-- A move of the running command stays on the walk or takes a SRC_FAULT. -/
theorem performNext_frameSafe {s : State} (hp : s.Placed) (hf : s.FrameSafe) (hb : s.busy = true) :
    (performNext s).FrameSafe ∧ (SameErrors s (performNext s) ∨ SrcFaulted s (performNext s)) := by
  have hwalks := hf.walks (.inl hb)
  have hm := hp.busy_moves hb
  obtain ⟨d, rest, ht, h⟩ | ⟨i, rest, t, ht, hok, h⟩ | ⟨i, rest, c, ht, herr, h⟩ | ⟨ht, -⟩ := performNext_cases s
  · rw [ht] at hwalks
    have hemit : { s.emit (d.event s) with waited := 0 }.Walks rest := ⟨hwalks.walk, hwalks.row_le⟩
    obtain ⟨hw, he⟩ := hemit.finish_settle
    rw [h]
    exact ⟨hw.frameSafe, .inl he⟩
  · rw [ht] at hwalks
    obtain ⟨hw, he⟩ := ((hwalks.countRead i).runSilent hok).finish_settle
    obtain ⟨-, -, -, -, -, hcode, hhalted⟩ := runSilent_ok hok
    rw [h]
    exact ⟨hw.frameSafe, .inl (((sameErrors_countRead i s).trans ⟨hcode, hhalted⟩).trans he)⟩
  · cases srcFault_of_headMoves hm ht herr
    rw [h]
    exact ⟨takeFaultAt_frameSafe hf.row_le _ i, .inr (takeFaultAt_srcFaulted i s)⟩
  · rw [ht] at hm
    cases hm

/-- What is taken first at a preemption point is a SRC_FAULT. -/
theorem readFault_errors {s : State} (hp : s.Placed) : SameErrors s (readFault s) ∨ SrcFaulted s (readFault s) := by
  obtain h | ⟨i, rest, c, ht, herr, h⟩ := readFault_cases s <;> rw [h]
  · exact .inl ⟨rfl, rfl⟩
  · cases hb : s.busy with
    | true =>
      cases srcFault_of_headMoves (hp.busy_moves hb) ht herr
      exact .inr (takeFaultAt_srcFaulted i s)
    | false =>
      rw [(hp.idle_done hb).1] at ht
      cases ht

theorem cutShort_sameErrors (s : State) : SameErrors s (cutShort s) := by
  rw [cutShort_eq]
  exact ⟨rfl, rfl⟩

/-- A preemption starts POWER_OFF_ALL, which walks from anywhere. -/
theorem preempted_frameSafe {s : State} (hp : s.Placed) :
    (start powerOffAllList (cutShort (readFault s))).FrameSafe ∧
      (SameErrors s (start powerOffAllList (cutShort (readFault s))) ∨
        SrcFaulted s (start powerOffAllList (cutShort (readFault s)))) := by
  have hlast : SameErrors (readFault s) (start powerOffAllList (cutShort (readFault s))) := by
    rw [start_powerOffAllList]
    exact cutShort_sameErrors _
  refine ⟨?_, (readFault_errors hp).imp (·.trans hlast) (·.of_sameErrors_right hlast)⟩
  rw [start_powerOffAllList]
  exact ⟨fun _ => frameWalk_commandList .powerOffAll (cutShort (readFault s)) _ rfl (.inl rfl), row_zero_le _⟩

/-! ## The decoder's port -/

theorem exec_frameSafe {i : Instr} {s t : State} (hf : s.FrameSafe)
    (hi : i = .powerOffAll ∨ (s.fstate = .idle ∧ s.row = 0#10)) (h : exec i s = .next t) :
    t.FrameSafe ∧ SameErrors s t := by
  obtain ⟨ops, hops, h'⟩ | ⟨-, h'⟩ | ⟨-, h'⟩ := exec_cases i s <;> rw [h'] at h <;> cases h
  · have hwalks : { s.latched i with busy := true, waited := 0, raced := [] }.Walks ops :=
      ⟨frameWalk_commandList i s ops hops hi, hf.row_le⟩
    obtain ⟨hw, he⟩ := hwalks.finish_settle
    exact ⟨hw.frameSafe, he⟩
  · exact ⟨⟨hf.walk, hf.row_le⟩, rfl, rfl⟩
  · exact ⟨⟨hf.walk, hf.row_le⟩, rfl, rfl⟩

/-- Between commands the frame state machine of a core that is not halted is IDLE (spec/43_frame_pipeline.md R190). -/
theorem State.FrameSafe.idle {s : State} (hf : s.FrameSafe) (htodo : s.todo = []) (hr : s.rst = false)
    (hh : s.halted = false) : s.fstate = .idle ∧ s.row = 0#10 := by
  have hw := hf.walk (.inr ⟨hh, hr⟩)
  rw [htodo] at hw
  simpa [frameWalk] using hw

theorem feedDecoder_frameSafe {w : Word} {s t : State} (hf : s.FrameSafe) (htodo : s.todo = []) (hr : s.rst = false)
    (h : feedDecoder w s = .next t) : t.FrameSafe ∧ (SameErrors s t ∨ Refused s t) := by
  obtain ⟨-, rfl⟩ | ⟨i, p, -, hi, he⟩ | ⟨i, p, -, -, -, rfl⟩ | ⟨e, p, -, -, rfl⟩ | ⟨e, p, -, hh, rfl⟩ := feedDecoder_cases h
  · exact ⟨⟨hf.walk, hf.row_le⟩, .inl ⟨rfl, rfl⟩⟩
  · have hf' : { s with packet := p }.FrameSafe := ⟨hf.walk, hf.row_le⟩
    obtain ⟨hfs, hse⟩ := exec_frameSafe hf' (hi.symm.imp id (hf.idle htodo hr)) he
    exact ⟨hfs, .inl hse⟩
  · exact ⟨⟨hf.walk, hf.row_le⟩, .inl ⟨rfl, rfl⟩⟩
  · exact ⟨⟨hf.walk, hf.row_le⟩, .inl ⟨rfl, rfl⟩⟩
  · exact ⟨⟨hf.walk, hf.row_le⟩, .inr ⟨e, rfl, hh, hh⟩⟩

theorem afterMove_frameSafe {s t : State} (hp : s.Placed) (hf : s.FrameSafe) (hr : s.rst = false)
    (h : afterMove s = .next t) : t.FrameSafe ∧ (SameErrors s t ∨ SrcFaulted s t ∨ Refused s t) := by
  obtain ⟨-, rfl⟩ | ⟨-, -, rfl⟩ | ⟨hb, -, w, -, hw⟩ := afterMove_cases h
  · exact ⟨hf, .inl ⟨rfl, rfl⟩⟩
  · obtain ⟨hfs, he⟩ := preempted_frameSafe hp
    exact ⟨hfs, he.imp id .inl⟩
  · have hf' : { s with pending := none }.FrameSafe := ⟨hf.walk, hf.row_le⟩
    obtain ⟨hfs, he⟩ := feedDecoder_frameSafe hf' (hp.idle_done hb).1 hr hw
    exact ⟨hfs, he.imp id .inr⟩

/-- A move and what follows it: a word that the fault's halted core is fed records nothing more. -/
theorem errors_after_move {s t u : State} (h : SameErrors s t ∨ SrcFaulted s t)
    (g : SameErrors t u ∨ SrcFaulted t u ∨ Refused t u) : SameErrors s u ∨ SrcFaulted s u ∨ Refused s u := by
  obtain hs | hs := h
  · exact g.imp hs.trans (Or.imp (.of_sameErrors_left hs) (.of_sameErrors_left hs))
  · refine .inr (.inl ?_)
    obtain hg | hg | ⟨e, -, hh, -⟩ := g
    · exact hs.of_sameErrors_right hg
    · exact hs.trans hg
    · exact absurd hs.2 (by simp [hh])

theorem performNext_afterMove_frameSafe {s t : State} (hs : s.Inv) (hf : s.FrameSafe) (hb : s.busy = true)
    (h : afterMove (performNext s) = .next t) : t.FrameSafe ∧ (SameErrors s t ∨ SrcFaulted s t ∨ Refused s t) := by
  obtain ⟨hfs, he⟩ := performNext_frameSafe hs.placed hf hb
  obtain ⟨-, hplaced⟩ := performNext_sound_placed hs.sound hs.placed hb
  obtain ⟨es, -, hfol, -⟩ := performNext_follows s
  obtain ⟨hft, het⟩ := afterMove_frameSafe hplaced hfs (hfol.rst.trans (hs.busy_rst hb)) h
  exact ⟨hft, errors_after_move he het⟩

/-! ## One step -/

/-- What a step can do to the error registers of a safe state; the release of RST clears them. -/
def ErrorStep (s t : State) : Prop :=
  SameErrors s t ∨ SrcFaulted s t ∨ Refused s t ∨ (t.errCode = .none ∧ t.halted = false)

theorem moves_frameSafe {act : Option PortAct} {s t : State} (hs : s.Inv) (hf : s.FrameSafe) (h : Moves act s t) :
    t.FrameSafe ∧ ErrorStep s t := by
  cases h with
  | rest => exact ⟨hf, .inl ⟨rfl, rfl⟩⟩
  | event hb h =>
    obtain ⟨hft, he⟩ := performNext_afterMove_frameSafe hs hf hb h
    exact ⟨hft, he.imp id (Or.imp id .inl)⟩
  | time us hb h =>
    obtain e | e | ⟨n, rest, ht, hlt, e⟩ := passTime_cases us s <;> rw [e] at h
    · rw [afterMove_of_busy hb h]
      exact ⟨hf, .inl ⟨rfl, rfl⟩⟩
    · obtain ⟨hft, he⟩ := performNext_afterMove_frameSafe hs hf hb h
      exact ⟨hft, he.imp id (Or.imp id .inl)⟩
    · rw [afterMove_of_busy (s := { s with waited := s.waited + us }) hb h]
      exact ⟨⟨hf.walk, hf.row_le⟩, .inl ⟨rfl, rfl⟩⟩
  | stop hstop =>
    obtain ⟨hft, he⟩ := preempted_frameSafe hs.placed
    exact ⟨hft, he.imp id .inl⟩
  | word w hr hb h =>
    obtain ⟨hft, he⟩ := feedDecoder_frameSafe hf (hs.idle_clean hb).1 hr h
    exact ⟨hft, he.imp id fun hr => .inr (.inl hr)⟩
  | assertRst =>
    refine ⟨⟨?_, hf.row_le⟩, .inl ⟨rfl, rfl⟩⟩
    rintro (hb | ⟨-, hr⟩)
    · cases hb
    · cases hr
  | releaseRst => exact ⟨⟨fun _ => rfl, row_zero_le _⟩, .inr (.inr (.inr ⟨rfl, rfl⟩))⟩
  | ask => exact ⟨⟨hf.walk, hf.row_le⟩, .inl ⟨rfl, rfl⟩⟩
  | hold => exact ⟨⟨hf.walk, hf.row_le⟩, .inl ⟨rfl, rfl⟩⟩
  | acknowledge => exact ⟨⟨hf.walk, hf.row_le⟩, .inl ⟨rfl, rfl⟩⟩
  | write => exact ⟨⟨hf.walk, hf.row_le⟩, .inl ⟨rfl, rfl⟩⟩
  | memOk => exact ⟨⟨hf.walk, hf.row_le⟩, .inl ⟨rfl, rfl⟩⟩

theorem step_frameSafe {s t : State} (hs : s.Inv) (hf : s.FrameSafe) (h : step s = .next t) :
    t.FrameSafe ∧ ErrorStep s t := by
  obtain hm | ⟨a, rest, -, hm⟩ := step_moves h
  · exact moves_frameSafe hs hf hm
  · have hsafe := moves_frameSafe (hs.with_inbox rest) ⟨hf.walk, hf.row_le⟩ hm
    exact hsafe

/-! ## Walking with CR.LE (spec/70_reset_and_hazards.md R363) -/

theorem latchEnable_writeField (f : CrField) (v : Bool) (cr : BitVec 8) :
    (writeField f v cr).getLsbD 0 = if f = .le then v else cr.getLsbD 0 := by
  cases f <;> cases v <;> simp [writeField, CrField.bit]

theorem latchEnable_of_clear {s : State} (h : s.cr = 0x00#8) : s.latchEnable = false := by
  rw [State.latchEnable, h]; decide

/-- A silent position leads on along the walk, and where it faults LE is 0. -/
theorem runSilent_latchWalk {s : State} {i : Silent} {rest : List MicroOp}
    (hw : latchWalk (.silent i :: rest) s.latchEnable = true) :
    (∀ t, runSilent i s = .ok t → latchWalk rest t.latchEnable = true) ∧
      (∀ c, runSilent i s = .error c → s.latchEnable = false) := by
  cases i with
  | setBit f v =>
    refine ⟨fun t h => ?_, fun c h => by cases h⟩
    cases h
    rw [State.latchEnable, latchEnable_writeField]
    cases f <;> exact hw
  | clearCr =>
    refine ⟨fun t h => ?_, fun c h => by cases h⟩
    cases h
    rw [latchEnable_of_clear rfl]
    exact hw
  | openFrame =>
    simp only [latchWalk, Bool.and_eq_true, Bool.not_eq_true'] at hw
    refine ⟨fun t h => ?_, fun _ _ => hw.1⟩
    simp only [runSilent, openFrame] at h
    split at h <;> cases h
    exact hw.2
  | requireRow =>
    simp only [latchWalk, Bool.and_eq_true, Bool.not_eq_true'] at hw
    refine ⟨fun t h => ?_, fun _ _ => hw.1⟩
    simp only [runSilent, requireRow] at h
    split at h <;> cases h
    exact hw.2
  | requireFull =>
    simp only [latchWalk, Bool.and_eq_true, Bool.not_eq_true'] at hw
    refine ⟨fun t h => ?_, fun _ _ => hw.1⟩
    simp only [runSilent, requireFull] at h
    split at h <;> cases h
    exact hw.2
  | compose1 R r =>
    simp only [latchWalk, Bool.and_eq_true, Bool.not_eq_true'] at hw
    refine ⟨fun t h => ?_, fun _ _ => hw.1⟩
    simp only [runSilent, compose1] at h
    split at h <;> cases h
    exact hw.2
  | compose4 R r =>
    simp only [latchWalk, Bool.and_eq_true, Bool.not_eq_true'] at hw
    refine ⟨fun t h => ?_, fun _ _ => hw.1⟩
    simp only [runSilent, compose4] at h
    split at h <;> cases h
    exact hw.2
  | _ => exact ⟨fun t h => by cases h; exact hw, fun c h => by cases h⟩

/-- Settling a list stops on the walk, or with LE = 0 at a fault. -/
theorem settle_latchWalk {ops : List MicroOp} {s : State} (hw : latchWalk ops s.latchEnable = true) :
    latchWalk (settle ops s).todo (settle ops s).latchEnable = true := by
  induction ops generalizing s with
  | nil => exact hw
  | cons op rest ih =>
    cases op with
    | drive d => exact hw
    | silent i =>
      cases hr : i.reads with
      | true => rw [settle_read i rest s hr]; exact hw
      | false =>
        obtain ⟨hok, herr⟩ := runSilent_latchWalk hw
        cases h : runSilent i s with
        | ok t => rw [settle_silent_ok h rest hr]; exact ih (hok t h)
        | error c =>
          have hle : (takeHaltingFault c s).latchEnable = false := herr c h
          rw [settle_silent_error h rest hr, hle]; rfl

theorem finish_latchEnable (s : State) : (finish s).latchEnable = s.latchEnable := by rw [State.latchEnable, finish_cr]; rfl

theorem finish_settle_latchSafe {ops : List MicroOp} {s : State} (hw : latchWalk ops s.latchEnable = true) :
    (finish (settle ops s)).LatchSafe := by
  intro _
  rw [finish_todo, finish_latchEnable]
  exact settle_latchWalk hw

theorem countRead_latchEnable (i : Silent) (s : State) : (countRead i s).latchEnable = s.latchEnable := by
  obtain ⟨n, h⟩ := countRead_shape i s
  rw [h]; rfl

theorem takeFaultAt_latchSafe {s : State} (hle : s.latchEnable = false) (c : ErrCode) (i : Silent) :
    (takeFaultAt c i s).LatchSafe := by
  intro _
  obtain ⟨n, b1, b4, h⟩ := takeFaultAt_shape c i s
  have hlow : (takeFaultAt c i s).latchEnable = false := by rw [h]; exact hle
  rw [hlow, h]; rfl

theorem performNext_latchSafe {s : State} (hl : s.LatchSafe) (hr : s.rst = false) : (performNext s).LatchSafe := by
  have hw := hl hr
  obtain ⟨d, rest, ht, h⟩ | ⟨i, rest, t, ht, hok, h⟩ | ⟨i, rest, c, ht, herr, h⟩ | ⟨ht, h⟩ := performNext_cases s <;> rw [h]
  · rw [ht] at hw
    exact finish_settle_latchSafe (s := { s.emit (d.event s) with waited := 0 }) hw
  · rw [ht, ← countRead_latchEnable i s] at hw
    exact finish_settle_latchSafe ((runSilent_latchWalk hw).1 t hok)
  · rw [ht, ← countRead_latchEnable i s] at hw
    have hle := (runSilent_latchWalk hw).2 c herr
    exact takeFaultAt_latchSafe (countRead_latchEnable i s ▸ hle) c i
  · intro _
    rwa [finish_todo, finish_latchEnable]

theorem preempted_latchSafe (s : State) : (start powerOffAllList (cutShort (readFault s))).LatchSafe :=
  finish_settle_latchSafe (latchWalk_commandList .powerOffAll s powerOffAllList rfl _ (.inl rfl))

theorem exec_latchSafe {i : Instr} {s t : State} (hle : s.latchEnable = false) (htodo : s.todo = [])
    (h : exec i s = .next t) : t.LatchSafe := by
  have hidle : latchWalk s.todo s.latchEnable = true := by rw [hle, htodo]; rfl
  obtain ⟨ops, hops, h'⟩ | ⟨-, h'⟩ | ⟨-, h'⟩ := exec_cases i s <;> rw [h'] at h <;> cases h
  · exact finish_settle_latchSafe (latchWalk_commandList i s ops hops _ (.inr hle))
  · exact fun _ => hidle
  · exact fun _ => hidle

theorem feedDecoder_latchSafe {w : Word} {s t : State} (hl : s.LatchSafe) (htodo : s.todo = []) (hr : s.rst = false)
    (h : feedDecoder w s = .next t) : t.LatchSafe := by
  have hle : s.latchEnable = false := by simpa [htodo, latchWalk] using hl hr
  obtain ⟨-, rfl⟩ | ⟨i, p, -, -, he⟩ | ⟨i, p, -, -, -, rfl⟩ | ⟨e, p, -, -, rfl⟩ | ⟨e, p, -, -, rfl⟩ := feedDecoder_cases h
  · exact hl
  · exact exec_latchSafe (s := { s with packet := p }) hle htodo he
  · exact hl
  · exact hl
  · exact hl

theorem afterMove_latchSafe {s t : State} (hp : s.Placed) (hl : s.LatchSafe) (hr : s.rst = false)
    (h : afterMove s = .next t) : t.LatchSafe := by
  obtain ⟨-, rfl⟩ | ⟨-, -, rfl⟩ | ⟨hb, -, w, -, hw⟩ := afterMove_cases h
  · exact hl
  · exact preempted_latchSafe s
  · exact feedDecoder_latchSafe (s := { s with pending := none }) hl (hp.idle_done hb).1 hr hw

theorem performNext_afterMove_latchSafe {s t : State} (hs : s.Inv) (hl : s.LatchSafe) (hb : s.busy = true)
    (h : afterMove (performNext s) = .next t) : t.LatchSafe := by
  have hr := hs.busy_rst hb
  obtain ⟨-, hplaced⟩ := performNext_sound_placed hs.sound hs.placed hb
  obtain ⟨es, -, hfol, -⟩ := performNext_follows s
  exact afterMove_latchSafe hplaced (performNext_latchSafe hl hr) (hfol.rst.trans hr) h

theorem moves_latchSafe {act : Option PortAct} {s t : State} (hs : s.Inv) (hl : s.LatchSafe) (h : Moves act s t) :
    t.LatchSafe := by
  cases h with
  | event hb h => exact performNext_afterMove_latchSafe hs hl hb h
  | time us hb h =>
    obtain e | e | ⟨n, rest, ht, hlt, e⟩ := passTime_cases us s <;> rw [e] at h
    · rwa [afterMove_of_busy hb h]
    · exact performNext_afterMove_latchSafe hs hl hb h
    · rw [afterMove_of_busy (s := { s with waited := s.waited + us }) hb h]
      exact hl
  | stop hstop => exact preempted_latchSafe s
  | word w hr hb h => exact feedDecoder_latchSafe hl (hs.idle_clean hb).1 hr h
  | assertRst => exact fun h => by cases h
  | releaseRst => exact fun _ => by rw [latchEnable_of_clear rfl]; rfl
  | rest => exact hl
  | ask => exact hl
  | hold => exact hl
  | acknowledge => exact hl
  | write => exact hl
  | memOk => exact hl

theorem step_latchSafe {s t : State} (hs : s.Inv) (hl : s.LatchSafe) (h : step s = .next t) : t.LatchSafe := by
  obtain hm | ⟨a, rest, -, hm⟩ := step_moves h
  · exact moves_latchSafe hs hl hm
  · exact moves_latchSafe (hs.with_inbox rest) hl hm

/-! ## Reset -/

/-- The state after reset is what a release of RST with the inputs of log 4 leaves. -/
theorem reset_eq_releaseRst : State.reset = releaseRst 0#32 0#32 0xFF#8 State.reset := rfl

end Sys2Proof.Machine

namespace Sys2Proof

open Machine

/-- Settles O22: what a step runs follows the walk of its list, a fault leaves a halted core, and an idle core that takes
a command stands IDLE with ROW = 0. -/
theorem stepKeepsFrameSafe : Obligations.StepKeepsFrameSafe := fun _ _ hs hf h => (step_frameSafe hs hf h).1

/-- Settles O24: what a step runs follows the walk of its list, and wherever a fault ends the walk LE is 0. -/
theorem stepKeepsLatchSafe : Obligations.StepKeepsLatchSafe := fun _ _ => step_latchSafe

/-- Settles O59: the state after reset is a release of RST. -/
theorem resetIsSafe : Obligations.ResetIsSafe :=
  ⟨reset_eq_releaseRst ▸ releaseRst_inv rfl _ _ _, ⟨fun _ => rfl, row_zero_le _⟩,
    fun _ => by rw [latchEnable_of_clear rfl]; rfl, rfl⟩

end Sys2Proof
end

section
/-! PROOFS. FSM_FAULT is never recorded. A code that was recorded earlier hides a later one, so the step is compared with
the same step from a state without a code: nothing that the machine does depends on ERR and ERR_CODE. -/

namespace Sys2Proof.Machine

/-! ## States that differ in the error code only -/

/-- The same state with other values of ERR and ERR_CODE. -/
def State.blamed (e : Bool) (c : ErrCode) (s : State) : State := { s with err := e, errCode := c }

/-- The two states differ in ERR and ERR_CODE at most. -/
def Alike (s t : State) : Prop := ∃ e c, t = s.blamed e c

/-- Both answer a next state, and the two are alike. -/
def AlikeNext (o o' : Host.Outcome State Fault Refusal) : Prop := ∃ s t, o = .next s ∧ o' = .next t ∧ Alike s t

theorem Alike.next {s t : State} (h : Alike s t) : AlikeNext (.next s) (.next t) := ⟨s, t, rfl, rfl, h⟩

theorem alike_blamed (e : Bool) (c : ErrCode) (s : State) : Alike s (s.blamed e c) := ⟨e, c, rfl⟩

/-- A silent position does not look at the error registers. -/
theorem runSilent_blamed (i : Silent) (e : Bool) (c : ErrCode) (s : State) :
    runSilent i (s.blamed e c) = (runSilent i s).map (State.blamed e c) := by
  have h1 (R : Rect) (r : Nat) : (s.blamed e c).rowAdmitted1 R r = s.rowAdmitted1 R r := rfl
  have h4 (R : Rect) (r : Nat) : (s.blamed e c).rowAdmitted4 R r = s.rowAdmitted4 R r := rfl
  cases i with
  | openFrame => by_cases h : s.fstate = .idle <;> simp [runSilent, openFrame, State.blamed, h, Except.map]
  | requireRow => by_cases h : s.fstate = .active ∧ s.row < s.height <;> simp [runSilent, requireRow, State.blamed, h, Except.map]
  | requireFull => by_cases h : s.fstate = .active ∧ s.row = s.height <;> simp [runSilent, requireFull, State.blamed, h, Except.map]
  | compose1 R r => simp only [runSilent, compose1, h1]; split <;> rfl
  | compose4 R r => simp only [runSilent, compose4, h4]; split <;> rfl
  | _ => rfl

theorem countRead_blamed (i : Silent) (e : Bool) (c : ErrCode) (s : State) :
    countRead i (s.blamed e c) = (countRead i s).blamed e c := by
  unfold countRead; split <;> rfl

theorem halfCompose_blamed (i : Silent) (e : Bool) (c : ErrCode) (s : State) :
    halfCompose i (s.blamed e c) = (halfCompose i s).blamed e c := by cases i <;> rfl

theorem finish_blamed (e : Bool) (c : ErrCode) (s : State) : finish (s.blamed e c) = (finish s).blamed e c := by
  unfold finish; split <;> rename_i h <;> simp only [State.blamed] at h ⊢ <;> simp [h]

theorem Alike.takeHaltingFault {s t : State} (h : Alike s t) (f : ErrCode) :
    Alike (takeHaltingFault f s) (takeHaltingFault f t) := by
  obtain ⟨e, c, rfl⟩ := h
  exact ⟨true, _, rfl⟩

theorem Alike.takeFaultAt {s t : State} (h : Alike s t) (f : ErrCode) (i : Silent) :
    Alike (takeFaultAt f i s) (takeFaultAt f i t) := by
  obtain ⟨e, c, rfl⟩ := h
  rw [Machine.takeFaultAt, Machine.takeFaultAt, countRead_blamed, halfCompose_blamed]
  exact (alike_blamed e c _).takeHaltingFault f

theorem Alike.finish {s t : State} (h : Alike s t) : Alike (finish s) (finish t) := by
  obtain ⟨e, c, rfl⟩ := h
  exact ⟨e, c, finish_blamed e c s⟩

theorem Alike.settle {s t : State} (h : Alike s t) (ops : List MicroOp) : Alike (settle ops s) (settle ops t) := by
  obtain ⟨e, c, rfl⟩ := h
  induction ops generalizing s with
  | nil => exact alike_blamed e c _
  | cons op rest ih =>
    cases op with
    | drive d => exact alike_blamed e c _
    | silent i =>
      cases hr : i.reads with
      | true =>
        rw [settle_read i rest s hr, settle_read i rest _ hr]
        exact alike_blamed e c _
      | false =>
        have hblamed := runSilent_blamed i e c s
        cases h : Machine.runSilent i s with
        | ok t =>
          rw [h] at hblamed
          rw [settle_silent_ok h rest hr, settle_silent_ok hblamed rest hr]
          exact ih
        | error f =>
          rw [h] at hblamed
          rw [settle_silent_error h rest hr, settle_silent_error hblamed rest hr]
          exact (alike_blamed e c s).takeHaltingFault f

/-! ## Moves of the running command -/

theorem Alike.start {s t : State} (h : Alike s t) (ops : List MicroOp) : Alike (start ops s) (start ops t) := by
  obtain ⟨e, c, rfl⟩ := h
  exact ((alike_blamed e c { s with busy := true, waited := 0, raced := [] }).settle ops).finish

theorem Alike.performNext {s t : State} (h : Alike s t) : Alike (performNext s) (performNext t) := by
  obtain ⟨e, c, rfl⟩ := h
  have htodo : (s.blamed e c).todo = s.todo := rfl
  unfold Machine.performNext
  rw [htodo]
  split
  · rename_i d rest _
    have hd : d.event (s.blamed e c) = d.event s := by cases d <;> rfl
    rw [hd]
    exact ((alike_blamed e c { s.emit (d.event s) with waited := 0 }).settle rest).finish
  · rename_i i rest _
    have hblamed := runSilent_blamed i e c (countRead i s)
    rw [countRead_blamed, hblamed]
    cases Machine.runSilent i (countRead i s) with
    | ok t => exact ((alike_blamed e c t).settle rest).finish
    | error f => exact (alike_blamed e c s).takeFaultAt f i
  · exact (alike_blamed e c s).finish

theorem Alike.passTime {s t : State} (h : Alike s t) (us : Nat) : Alike (passTime us s) (passTime us t) := by
  have hnext := h.performNext
  obtain ⟨e, c, rfl⟩ := h
  have htodo : (s.blamed e c).todo = s.todo := rfl
  have hwaited : (s.blamed e c).waited = s.waited := rfl
  unfold Machine.passTime
  rw [htodo, hwaited]
  split
  · split
    · exact alike_blamed e c { s with waited := s.waited + us }
    · exact hnext
  · exact alike_blamed e c s

theorem Alike.readFault {s t : State} (h : Alike s t) : Alike (readFault s) (readFault t) := by
  obtain ⟨e, c, rfl⟩ := h
  have htodo : (s.blamed e c).todo = s.todo := rfl
  unfold Machine.readFault
  rw [htodo]
  split
  · rename_i i rest _
    rw [countRead_blamed, runSilent_blamed]
    cases Machine.runSilent i (countRead i s) with
    | ok t => exact alike_blamed e c s
    | error f => exact (alike_blamed e c s).takeFaultAt f i
  · exact alike_blamed e c s

theorem Alike.cutShort {s t : State} (h : Alike s t) : Alike (cutShort s) (cutShort t) := by
  obtain ⟨e, c, rfl⟩ := h
  rw [cutShort_eq, cutShort_eq]
  exact alike_blamed e c _

theorem Alike.preempt {s t : State} (h : Alike s t) : AlikeNext (preempt s) (preempt t) :=
  (h.readFault.cutShort.start powerOffAllList).next

/-! ## The decoder's port -/

theorem Alike.exec {s t : State} (h : Alike s t) (i : Instr) : AlikeNext (exec i s) (exec i t) := by
  obtain ⟨e, c, rfl⟩ := h
  cases i with
  | getWidth => exact (alike_blamed e c (respond s.width s)).next
  | getHeight => exact (alike_blamed e c (respond s.height s)).next
  | powerOn => exact ((alike_blamed e c s).start powerOnList).next
  | powerOff => exact ((alike_blamed e c s).start powerOffList).next
  | powerOffAll => exact ((alike_blamed e c s).start powerOffAllList).next
  | clear cycles => exact ((alike_blamed e c (s.latched (.clear cycles))).start (clearList (s.latched (.clear cycles)))).next
  | draw1bpp x y w h src pulse =>
    exact ((alike_blamed e c (s.latched (.draw1bpp x y w h src pulse))).start
      (draw1bppList (s.latched (.draw1bpp x y w h src pulse)))).next
  | drawGray x y w h src mode =>
    exact ((alike_blamed e c (s.latched (.drawGray x y w h src mode))).start
      (drawGrayList (s.latched (.drawGray x y w h src mode)))).next

theorem Alike.feedDecoder {s t : State} (h : Alike s t) (w : Word) : AlikeNext (feedDecoder w s) (feedDecoder w t) := by
  obtain ⟨e, c, rfl⟩ := h
  have hpacket : (s.blamed e c).packet = s.packet := rfl
  have hconsumed (p : List Word) : Alike { s with packet := p } { s.blamed e c with packet := p } := ⟨e, c, rfl⟩
  unfold Machine.feedDecoder
  rw [hpacket]
  split
  · exact (hconsumed _).next
  · rename_i i p _
    have hhalted : ({ s.blamed e c with packet := p } : State).halted = ({ s with packet := p } : State).halted := rfl
    unfold runPacket
    rw [hhalted]
    split
    · exact (hconsumed p).next
    · exact (hconsumed p).exec i
  · rename_i f p _
    have hhalted : ({ s.blamed e c with packet := p } : State).halted = ({ s with packet := p } : State).halted := rfl
    unfold refusePacket
    rw [hhalted]
    split
    · exact (hconsumed p).next
    · exact Alike.next ⟨true, _, rfl⟩

theorem Alike.afterMove {s t : State} (h : Alike s t) : AlikeNext (afterMove s) (afterMove t) := by
  have hpreempt := h.preempt
  obtain ⟨e, c, rfl⟩ := h
  have hbusy : (s.blamed e c).busy = s.busy := rfl
  have hstop : (s.blamed e c).stopReq = s.stopReq := rfl
  have hpending : (s.blamed e c).pending = s.pending := rfl
  unfold Machine.afterMove
  rw [hbusy, hstop, hpending]
  split
  · exact (alike_blamed e c s).next
  · split
    · exact hpreempt
    · split
      · exact (alike_blamed e c s).next
      · exact Alike.feedDecoder (s := { s with pending := none }) ⟨e, c, rfl⟩ _

/-! ## One step -/

theorem Alike.moveCore {s t : State} (h : Alike s t) : AlikeNext (moveCore s) (moveCore t) := by
  have hmove := h.performNext.afterMove
  obtain ⟨e, c, rfl⟩ := h
  have hbusy : (s.blamed e c).busy = s.busy := rfl
  unfold Machine.moveCore
  rw [hbusy]
  split
  · exact hmove
  · exact (alike_blamed e c s).next

theorem Alike.moveOrStop {s t : State} (h : Alike s t) : AlikeNext (moveOrStop s) (moveOrStop t) := by
  have hpreempt := h.preempt
  have hmove := h.moveCore
  obtain ⟨e, c, rfl⟩ := h
  have hstop : (s.blamed e c).stopReq = s.stopReq := rfl
  unfold Machine.moveOrStop
  rw [hstop]
  split
  · exact hpreempt
  · exact hmove

theorem Alike.transfer {s t : State} (h : Alike s t) (w : Word) : AlikeNext (transfer w s) (transfer w t) := by
  have hfeed := h.feedDecoder w
  obtain ⟨e, c, rfl⟩ := h
  have hbusy : (s.blamed e c).busy = s.busy := rfl
  unfold Machine.transfer
  rw [hbusy]
  split
  · split
    · exact Alike.next ⟨e, c, rfl⟩
    · exact Alike.next ⟨e, c, rfl⟩
  · exact hfeed

theorem Alike.takeAct {s t : State} (h : Alike s t) (a : PortAct) (rest : List PortAct) :
    AlikeNext (takeAct a rest s) (takeAct a rest t) := by
  have hmove := h.moveOrStop
  obtain ⟨e, c, rfl⟩ := h
  have hrest : Alike { s with inbox := rest } { s.blamed e c with inbox := rest } := ⟨e, c, rfl⟩
  have hready : (s.blamed e c).cmdReady = s.cmdReady := rfl
  have hrst : (s.blamed e c).rst = s.rst := rfl
  have hbusy : (s.blamed e c).busy = s.busy := rfl
  have hstop : (s.blamed e c).stopReq = s.stopReq := rfl
  cases a with simp only [Machine.takeAct]
  | word w =>
    rw [hready, hrst]
    split
    · exact hrest.transfer w
    · split
      · exact hrest.next
      · exact hmove
  | ack => exact Alike.next ⟨e, c, rfl⟩
  | write addr b => exact Alike.next ⟨e, c, rfl⟩
  | assertRst => exact Alike.next ⟨e, c, rfl⟩
  | releaseRst reqW reqH dmaskIn =>
    rw [hrst]
    split
    · exact Alike.next ⟨false, .none, rfl⟩
    · exact hrest.next
  | core => exact hrest.moveCore
  | time us =>
    rw [hbusy]
    split
    · exact (hrest.passTime us).afterMove
    · exact hrest.next
  | waitIdle =>
    rw [hbusy]
    split
    · exact hmove
    · exact hrest.next
  | stopPoint =>
    rw [hstop]
    split
    · exact hrest.preempt
    · exact hrest.next
  | memOk regions => exact Alike.next ⟨e, c, rfl⟩

theorem Alike.step {s t : State} (h : Alike s t) : AlikeNext (step s) (step t) := by
  have hmove := h.moveOrStop
  have hact := h.takeAct
  obtain ⟨e, c, rfl⟩ := h
  have hinbox : (s.blamed e c).inbox = s.inbox := rfl
  unfold Machine.step move
  rw [hinbox]
  split
  · exact hmove
  · exact hact _ _

/-! ## What a step can record -/

theorem ErrorStep.ne_fsmFault {s t : State} (h : ErrorStep s t) (hs : s.errCode ≠ .fsmFault) : t.errCode ≠ .fsmFault := by
  obtain ⟨hc, -⟩ | ⟨hc, -⟩ | ⟨e, hc, -⟩ | ⟨hc, -⟩ := h <;> rw [hc]
  · exact hs
  · split
    · decide
    · exact hs
  · split
    · cases e <;> decide
    · exact hs
  · decide

/-- A step that halts a core without a recorded code records SRC_FAULT. -/
theorem ErrorStep.srcFault_of_halts {s t : State} (h : ErrorStep s t) (hc : s.errCode = .none) (hs : s.halted = false)
    (ht : t.halted = true) : t.errCode = .srcFault := by
  obtain ⟨-, hh⟩ | ⟨hc', -⟩ | ⟨e, -, -, hh⟩ | ⟨-, hh⟩ := h
  · simp [hh, hs] at ht
  · rw [hc', if_pos hc]
  · simp [hh] at ht
  · simp [hh] at ht

/-- A state that is not halted keeps the invariant without its code. -/
theorem State.Inv.without_code {s : State} (hs : s.Inv) (hh : s.halted = false) : (s.blamed false .none).Inv where
  __ := hs
  err_iff_code := ⟨fun h => (by cases h), fun h => absurd rfl h⟩
  halted_err h := by
    have hhalted : s.halted = true := h
    simp [hh] at hhalted

end Sys2Proof.Machine

namespace Sys2Proof

open Machine

/-- Settles O23: a safe state's step records a SRC_FAULT or a refusal's code, and the same step without an earlier code
does the same but for the code. -/
theorem fsmFaultNeverRecorded : Obligations.FsmFaultNeverRecorded := by
  intro s t hs hf h
  refine ⟨(step_frameSafe hs hf h).2.ne_fsmFault, fun hh ht => ?_⟩
  obtain ⟨t', u, ht', hu, e, c, hue⟩ := (alike_blamed false .none s).step
  cases h.symm.trans ht'
  have hhalted : u.halted = true := by rw [hue]; exact ht
  have hsafe : (s.blamed false .none).FrameSafe := ⟨hf.walk, hf.row_le⟩
  exact ⟨u, hu, hhalted, (step_frameSafe (hs.without_code hh) hsafe hu).2.srcFault_of_halts rfl hh hhalted⟩

end Sys2Proof
end

section
/-! PROOFS. The statements about operands, addresses and pixels: where a source byte stands, which part of a rectangle
lies on the panel, what a read returns while the host writes, and which pixel a composed row holds where. -/

namespace Sys2Proof.Machine

/-! ## Addresses (spec/20_memory.md R73, R79) -/

theorem toNat_ofInt_word (x : Int) : ((BitVec.ofInt 32 x).toNat : Int) = x % 2 ^ 32 := by
  rw [BitVec.toNat_ofInt]
  omega

theorem ceilDiv_eight (a : Int) : ceilDiv a 8 = (a + 7) / 8 := by unfold ceilDiv; omega

theorem ceilDiv_two (a : Int) : ceilDiv a 2 = (a + 1) / 2 := by unfold ceilDiv; omega

/-! ## Rectangles (spec/44_renderer_1bpp.md R221) -/

theorem Rect.hasCol_iff (R : Rect) (c : Nat) : R.hasCol c = true ↔ R.xs ≤ c ∧ (c : Int) < R.xe := by
  simp [Rect.hasCol]

theorem Rect.hasRow_iff (R : Rect) (r : Nat) : R.hasRow r = true ↔ R.ys ≤ r ∧ (r : Int) < R.ye := by
  simp [Rect.hasRow]

section
variable {width height : Nat} {x y w h : Int}

/-- A clip that is not EMPTY: the four bounds, and that each side keeps something. -/
theorem clip_eq_some {R : Rect} (hR : clip width height x y w h = some R) :
    R = { xs := max x 0, xe := min (x + w) width, ys := max y 0, ye := min (y + h) height } ∧
      R.xs < R.xe ∧ R.ys < R.ye := by
  simp only [clip] at hR
  split at hR
  · cases hR
  · split at hR
    · cases hR
    · rename_i hne
      cases hR
      push Not at hne
      exact ⟨rfl, hne⟩

/-- EMPTY says that one of the two sides keeps nothing; a side of no length is such a side. -/
theorem clip_eq_none_iff :
    clip width height x y w h = none ↔ min (x + w) width ≤ max x 0 ∨ min (y + h) height ≤ max y 0 := by
  simp only [clip]
  split
  · rename_i hempty
    simp only [true_iff]
    omega
  · split
    · rename_i hempty
      simpa using hempty
    · rename_i hempty
      simpa using hempty

/-- A side keeps something exactly when one of the panel's columns (or rows) lies in it. -/
theorem exists_visible_iff (a len : Int) (n : Nat) :
    (∃ c : Nat, a ≤ c ∧ (c : Int) < a + len ∧ c < n) ↔ max a 0 < min (a + len) n := by
  constructor
  · rintro ⟨c, hlow, hhigh, hn⟩
    omega
  · intro hlt
    exact ⟨(max a 0).toNat, by omega, by omega, by omega⟩

end

/-! ## Reads and host writes (spec/20_memory.md R84) -/

/-- A read returns the byte stored or one that was replaced while the command runs. -/
theorem readByte_mem (s : State) (a : Word) (col : Nat) : s.readByte a col ∈ s.src.read a.toNat :: s.oldValues a := by
  unfold State.readByte
  cases hold : s.oldValues a with
  | nil => exact List.mem_cons_self
  | cons v old =>
    have hlt : Config.raceChoice s.raceTick a.toNat col % ((v :: old).length + 1) <
        (s.src.read a.toNat :: v :: old).length := Nat.mod_lt _ (Nat.succ_pos _)
    dsimp only
    rw [List.getD_eq_getElem _ _ hlt]
    exact List.getElem_mem hlt

/-- A read depends on the byte's values and the count of rows read. -/
theorem readByte_congr {s t : State} {a : Word} (hsrc : t.src.read a.toNat = s.src.read a.toNat)
    (hold : t.oldValues a = s.oldValues a) (htick : t.raceTick = s.raceTick) (col : Nat) :
    t.readByte a col = s.readByte a col := by
  simp only [State.readByte, hsrc, hold, htick]

theorem oldValues_hostWrite_same (a : Word) (b : Byte) (s : State) :
    (hostWrite a b s).oldValues a = if s.busy then s.src.read a.toNat :: s.oldValues a else s.oldValues a := by
  unfold hostWrite State.oldValues
  cases s.busy <;> simp

theorem oldValues_hostWrite_other {a a' : Word} (h : a' ≠ a) (b : Byte) (s : State) :
    (hostWrite a b s).oldValues a' = s.oldValues a' := by
  have hne : a.toNat ≠ a'.toNat := fun he => h (BitVec.eq_of_toNat_eq he.symm)
  unfold hostWrite State.oldValues
  cases s.busy <;> simp [hne]

theorem read_hostWrite {s : State} (hwf : s.src.wf = true) (a a' : Word) (b : Byte) :
    (hostWrite a b s).src.read a'.toNat = if a'.toNat = a.toNat then b else s.src.read a'.toNat :=
  read_write a.toNat a'.toNat b hwf

theorem step_of_write {s : State} {a : Word} {b : Byte} {rest : List PortAct} (hin : s.inbox = .write a b :: rest) :
    step s = .next (hostWrite a b { s with inbox := rest }) := by
  simp only [step, move, hin, takeAct]

/-! ## Composed rows (spec/44_renderer_1bpp.md R223, spec/45_grayscale_engine.md R262) -/

theorem compose1_cases {R : Rect} {r : Nat} {s : State} :
    (compose1 R r s = .ok { s with rowbuf1 := overwrite s.rowLen1 (s.rowByte1 R r) s.rowbuf1 } ∧
      s.rowAdmitted1 R r = true) ∨ compose1 R r s = .error .srcFault := by
  unfold compose1
  split
  · rename_i h; exact .inl ⟨rfl, h⟩
  · exact .inr rfl

theorem compose4_cases {R : Rect} {r : Nat} {s : State} :
    (compose4 R r s = .ok { s with rowbuf4 := overwrite s.rowLen4 (s.rowByte4 R r) s.rowbuf4 } ∧
      s.rowAdmitted4 R r = true) ∨ compose4 R r s = .error .srcFault := by
  unfold compose4
  split
  · rename_i h; exact .inl ⟨rfl, h⟩
  · exact .inr rfl

theorem admits_of_rowAdmitted1 {s : State} {R : Rect} {r c : Nat} (h : s.rowAdmitted1 R r = true)
    (hc : c < 8 * s.rowLen1) (hin : R.hasCol c = true) : s.admits (s.pixelAddr1 r c) = true := by
  simp only [State.rowAdmitted1, State.columns1, isSome_memRead, List.all_eq_true, List.mem_filter, List.mem_range] at h
  exact h c ⟨hc, hin⟩

theorem admits_of_rowAdmitted4 {s : State} {R : Rect} {r c : Nat} (h : s.rowAdmitted4 R r = true)
    (hc : c < 2 * s.rowLen4) (hin : R.hasCol c = true) : s.admits (s.pixelAddr4 r c) = true := by
  simp only [State.rowAdmitted4, State.columns4, isSome_memRead, List.all_eq_true, List.mem_filter, List.mem_range] at h
  exact h c ⟨hc, hin⟩

/-- The byte of an admitted read that is in no race. -/
theorem admittedByte_of_admits {s : State} (hr : s.raced = []) {a : Word} (ha : s.admits a = true) (col : Nat) :
    s.admittedByte a col = s.src.read a.toNat := by
  rw [State.admittedByte, memRead_of_no_race hr, if_pos ha]; rfl

/-- A 1bpp pixel over the source byte itself: inside the rectangle the bit that R80 names, and 0 outside. -/
theorem pixel1_eq {s : State} (hr : s.raced = []) {R : Rect} {r c : Nat}
    (ha : R.hasCol c = true → s.admits (s.pixelAddr1 r c) = true) :
    s.pixel1 R r c =
      (R.hasCol c && (s.src.read (s.pixelAddr1 r c).toNat).getLsbD (7 - (c - s.opl.x.toInt) % 8).toNat) := by
  unfold State.pixel1 pixelOfByte1
  cases hin : R.hasCol c with
  | false => rfl
  | true => rw [admittedByte_of_admits hr (ha hin)]

/-- A 4bpp pixel over the source byte itself: inside the rectangle the nibble that R81 names, and 0 outside. -/
theorem pixel4_eq {s : State} (hr : s.raced = []) {R : Rect} {r c : Nat}
    (ha : R.hasCol c = true → s.admits (s.pixelAddr4 r c) = true) :
    s.pixel4 R r c = if R.hasCol c then
      (s.src.read (s.pixelAddr4 r c).toNat).extractLsb' (if (c - s.opl.x.toInt) % 2 = 0 then 4 else 0) 4 else 0#4 := by
  unfold State.pixel4 pixelOfByte4
  split
  · rename_i hin
    rw [admittedByte_of_admits hr (ha hin)]
    split <;> rfl
  · rfl

/-- The bit of panel column c in a row buffer that has just been given a packed row. -/
theorem bit_of_overwrite {n len c : Nat} (px : Nat → Bool) (b : Vector Byte n) (hn : len ≤ n) (hc : c < 8 * len) :
    (entry (overwrite len (packByte1 px) b) (c / 8)).getLsbD (7 - c % 8) = px c := by
  have hlen : c / 8 < len := by omega
  rw [entry_overwrite, if_pos (hlen.trans_le hn), if_pos hlen, getLsbD_packByte1]

/-- The nibble of panel column c in a scratch buffer that has just been given a packed row. -/
theorem nibble_of_overwrite {n len c : Nat} (px : Nat → BitVec 4) (b : Vector Byte n) (hn : len ≤ n)
    (hc : c < 2 * len) :
    (entry (overwrite len (packByte4 px) b) (c / 2)).extractLsb' (if c % 2 = 0 then 4 else 0) 4 = px c := by
  have hlen : c / 2 < len := by omega
  rw [entry_overwrite, if_pos (hlen.trans_le hn), if_pos hlen, extractLsb'_packByte4]

theorem entry_overwrite_beyond {n len k : Nat} (f : Nat → Byte) (b : Vector Byte n) (hk : len ≤ k) :
    entry (overwrite len f b) k = entry b k := by
  rw [entry_overwrite]
  split
  · rw [if_neg (Nat.not_lt.mpr hk)]
  · rename_i hn
    rw [entry_of_le b (Nat.not_lt.mp hn)]

end Sys2Proof.Machine

namespace Sys2Proof

open Machine

/-- Settles O6: the machine's address is the exact sum put into 32 bits. -/
theorem sourceAddressesWrap : Obligations.SourceAddressesWrap := by
  intro o r c
  constructor
  · rw [srcByte1, toNat_ofInt_word, ceilDiv_eight]
  · rw [srcByte4, toNat_ofInt_word, ceilDiv_two]

/-- Settles O7: the clip cuts each of the two sides at the panel's edges, and is EMPTY when one of them loses all its
columns or rows. -/
theorem clipKeepsVisiblePixels : Obligations.ClipKeepsVisiblePixels := by
  intro width height x y w h
  refine ⟨fun R hR => ?_, ?_⟩
  · obtain ⟨rfl, -, -⟩ := clip_eq_some hR
    refine ⟨fun c => ?_, fun r => ?_⟩
    · rw [Rect.hasCol_iff]; dsimp only; omega
    · rw [Rect.hasRow_iff]; dsimp only; omega
  · have hcols := exists_visible_iff x w width
    have hrows := exists_visible_iff y h height
    simp only [clip_eq_none_iff, exists_and_left, exists_and_right, hcols, hrows]
    omega

/-- Settles O8: a rectangle inside the panel loses nothing to the clip, and a REJECT looks at each side that sticks
out. -/
theorem grayPolicyDecidesRectangle : Obligations.GrayPolicyDecidesRectangle := by
  intro width height x y w h
  refine ⟨rfl, fun hx hy hw hh => ?_, fun hout => ?_⟩
  · by_cases hempty : w ≤ 0 ∨ h ≤ 0
    · have hreject : w ≤ 0 ∨ h ≤ 0 ∨ x < 0 ∨ y < 0 ∨ x + w > width ∨ y + h > height := by omega
      simp only [grayRect, clip, if_pos hreject, if_pos hempty]
    · have hreject : ¬(w ≤ 0 ∨ h ≤ 0 ∨ x < 0 ∨ y < 0 ∨ x + w > width ∨ y + h > height) := by omega
      have hclip : ¬(x + w ≤ x ∨ y + h ≤ y) := by omega
      simp only [grayRect, clip, if_neg hreject, if_neg hempty, max_eq_left hx, max_eq_left hy, min_eq_left hw,
        min_eq_left hh, if_neg hclip]
  · exact if_pos (by omega)

/-- Settles O9: the write stores the byte and, while a command runs, leaves the replaced one possible at its address
alone. -/
theorem hostWriteRacesWithRead : Obligations.HostWriteRacesWithRead := by
  intro s a b rest col hwf hin
  refine ⟨_, step_of_write hin, ?_⟩
  have hstored : (hostWrite a b { s with inbox := rest }).src.read a.toNat = b :=
    (read_hostWrite (s := { s with inbox := rest }) hwf a a b).trans (if_pos rfl)
  have hold := oldValues_hostWrite_same a b { s with inbox := rest }
  have hmem := readByte_mem (hostWrite a b { s with inbox := rest }) a col
  refine ⟨hstored, rfl, rfl, rfl, fun hb hr => ?_, fun hb => ?_, fun a' ha' => ?_⟩
  · have hraced : (hostWrite a b { s with inbox := rest }).raced = [] := by simp [hostWrite, hb, hr]
    rw [readByte_of_no_race hraced, hstored]
  · rw [hold, hstored, if_pos hb] at hmem
    simp only [List.mem_cons] at hmem
    exact hmem
  · refine readByte_congr ?_ (oldValues_hostWrite_other ha' b { s with inbox := rest }) rfl col
    exact (read_hostWrite (s := { s with inbox := rest }) hwf a a' b).trans
      (if_neg fun he => ha' (BitVec.eq_of_toNat_eq he))

/-- Settles O25: a row buffer that has just been given a packed row holds each column's pixel at its place, and the
pixels are the source's, where they are admitted and in no race. -/
theorem composedRowHoldsSourcePixels : Obligations.ComposedRowHoldsSourcePixels := by
  intro s t R r c hw hr
  dsimp only
  have h1 := rowLen1_le hw
  have h4 := rowLen4_le hw
  refine ⟨fun hok hc => ?_, fun hok hc => ?_, fun e _ => ⟨rfl, fun k hk => ?_, fun hc => ?_⟩,
    fun e _ => ⟨rfl, fun k hk => ?_, fun hc => ?_⟩⟩
  · obtain ⟨h, ha⟩ | h := compose1_cases (R := R) (r := r) (s := s) <;> rw [h] at hok <;> cases hok
    exact (bit_of_overwrite (s.pixel1 R r) s.rowbuf1 h1 hc).trans (pixel1_eq hr (admits_of_rowAdmitted1 ha hc))
  · obtain ⟨h, ha⟩ | h := compose4_cases (R := R) (r := r) (s := s) <;> rw [h] at hok <;> cases hok
    exact (nibble_of_overwrite (s.pixel4 R r) s.rowbuf4 h4 hc).trans (pixel4_eq hr (admits_of_rowAdmitted4 ha hc))
  · exact entry_overwrite_beyond _ _ hk
  · have hbit : (entry (halfCompose (.compose1 R r) s).rowbuf1 (c / 8)).getLsbD (7 - c % 8) =
        (s.copied (s.pixelAddr1 r c) c && s.pixel1 R r c) := bit_of_overwrite _ s.rowbuf1 h1 hc
    rw [hbit]
    cases ha : s.admits (s.pixelAddr1 r c) with
    | false => exact .inl (by simp [State.copied, ha])
    | true =>
      cases hcopied : s.copied (s.pixelAddr1 r c) c with
      | false => exact .inl rfl
      | true => exact .inr ⟨ha, pixel1_eq hr fun _ => ha⟩
  · exact entry_overwrite_beyond _ _ hk
  · have hnibble : (entry (halfCompose (.compose4 R r) s).rowbuf4 (c / 2)).extractLsb' (if c % 2 = 0 then 4 else 0) 4 =
        if s.copied (s.pixelAddr4 r c) c then s.pixel4 R r c else 0#4 := nibble_of_overwrite _ s.rowbuf4 h4 hc
    rw [hnibble]
    cases ha : s.admits (s.pixelAddr4 r c) with
    | false => exact .inl (by simp [State.copied, ha])
    | true =>
      cases hcopied : s.copied (s.pixelAddr4 r c) c with
      | false => exact .inl rfl
      | true => exact .inr ⟨ha, pixel4_eq hr fun _ => ha⟩

end Sys2Proof
end

section
/-! PROOFS. What the two observers and the lines show of a Push, a Pulse, a line of bytes and a frame, and the commands of
spec/42_power_sequencer.md that are left. -/

namespace Sys2Proof.Machine

/-! ## The lines after a Push and a Pulse -/

/-- After a Push (spec/40_config_shift_register.md R134). -/
theorem afterAll_pushEvents (P : Pins) (v : BitVec 8) :
    P.afterAll (pushEvents v) = { P with cfgStr := .hi, cfgClk := .hi, cfgData := Level.ofBit (v.getLsbD 0) } := rfl

theorem afterAll_cons (P : Pins) (e : Event) (es : List Event) : P.afterAll (e :: es) = (P.after e).afterAll es := rfl

theorem afterAll_waitEvents (P : Pins) (n : Nat) : P.afterAll (waitEvents n) = P := by
  unfold waitEvents
  split <;> rfl

/-- After a Pulse CKV is low (spec/43_frame_pipeline.md R191). -/
theorem afterAll_pulseEvents (P : Pins) (a b : Nat) : P.afterAll (pulseEvents a b) = { P with ckv := .lo } := by
  simp only [pulseEvents, afterAll_cons, Pins.afterAll_append, afterAll_waitEvents]
  rfl

/-! ## Events that leave IE alone -/

/-- The events do not change IE, from any levels. -/
def KeepsIe (es : List Event) : Prop := ∀ P : Pins, (P.afterAll es).ie = P.ie

theorem keepsIe_append {es fs : List Event} (h : KeepsIe es) (g : KeepsIe fs) : KeepsIe (es ++ fs) := fun P => by
  rw [Pins.afterAll_append, g, h]

theorem keepsIe_flatMap {α : Type} {row : α → List Event} (h : ∀ r, KeepsIe (row r)) (rows : List α) :
    KeepsIe (rows.flatMap row) := by
  induction rows with
  | nil => exact fun _ => rfl
  | cons r rows ih => exact keepsIe_append (h r) ih

theorem keepsIe_wait (n : Nat) : KeepsIe [.wait n] := fun _ => rfl

theorem keepsIe_pushEvents (v : BitVec 8) : KeepsIe (pushEvents v) := fun P => by rw [afterAll_pushEvents]

theorem keepsIe_pulseEvents (a b : Nat) : KeepsIe (pulseEvents a b) := fun P => by rw [afterAll_pulseEvents]

theorem keepsIe_byteEvents (dmask b : Byte) : KeepsIe (byteEvents dmask b) := by
  have hdata (lines : List (Fin 8)) : KeepsIe (lines.map fun i => .set (.d i) (b.getLsbD i)) := by
    induction lines with
    | nil => exact fun _ => rfl
    | cons i lines ih => exact fun P => ih (P.put (.d i) (Level.ofBit (b.getLsbD i)))
  exact keepsIe_append (hdata _) fun _ => rfl

theorem keepsIe_lineEvents (dmask : Byte) (bytes : List Byte) : KeepsIe (lineEvents dmask bytes) :=
  keepsIe_flatMap (keepsIe_byteEvents dmask) bytes

theorem keepsIe_outputRowEvents (dmask : Byte) (cr : BitVec 8) (bytes : List Byte) (p : Nat) :
    KeepsIe (outputRowEvents dmask cr bytes p) :=
  keepsIe_append (keepsIe_append (keepsIe_append (keepsIe_append (keepsIe_pushEvents _) (keepsIe_pushEvents _))
    (keepsIe_pulseEvents _ _)) (keepsIe_lineEvents _ _)) (keepsIe_pulseEvents _ _)

theorem keepsIe_startFrameEvents (cr : BitVec 8) : KeepsIe (startFrameEvents cr) := fun P => by
  simp only [startFrameEvents, Pins.afterAll_append, keepsIe_pushEvents _ _, keepsIe_pulseEvents _ _ _,
    keepsIe_wait _ _]

/-- EndFrame leaves the config lines and CKV where it needs them, wherever they stood (spec/43_frame_pipeline.md R204). -/
theorem afterAll_endFrameEvents (P : Pins) (cr : BitVec 8) : P.afterAll (endFrameEvents cr) =
    { P with cfgStr := .hi, cfgClk := .hi, cfgData := Level.ofBit ((cr &&& ~~~0xC0#8).getLsbD 0), ckv := .lo } := by
  simp only [endFrameEvents, Pins.afterAll_append, afterAll_pushEvents, afterAll_pulseEvents]

/-! ## The panel observer (spec/10_state.md R34) -/

/-- A bit shifted in at the low end. -/
def shiftIn (r : BitVec 8) (b : Bool) : BitVec 8 := (r <<< 1) ||| BitVec.setWidth 8 (BitVec.ofBool b)

/-- The observer over the three events of one bit of a Push: the rising edge of CFG_CLK shifts the bit in, and CFG_STR
stays where it is. -/
theorem seeAll_bit (o : PanelObserver) (b : Bool) :
    o.seeAll [.set .cfgClk false, .set .cfgData b, .set .cfgClk true] =
      { lines := { o.lines with cfgClk := .hi, cfgData := Level.ofBit b }, shift := shiftIn o.shift b
        latched := o.latched } := by
  have no_edge : ¬(o.lines.cfgStr = .lo ∧ o.lines.cfgStr = .hi) := fun ⟨hlo, hhi⟩ => by simp [hlo] at hhi
  have not_high : (Level.lo == Level.hi) = false := rfl
  cases b <;> simp [PanelObserver.seeAll, PanelObserver.see, Pins.after, Pins.put, Level.ofBit, shiftIn, no_edge, not_high]

theorem getLsbD_shiftIn (r : BitVec 8) (b : Bool) (i : Nat) :
    (shiftIn r b).getLsbD i = if i = 0 then b else (decide (i < 8) && r.getLsbD (i - 1)) := by
  unfold shiftIn
  cases i with
  | zero => cases b <;> simp
  | succ i => cases b <;> simp

/-- Eight bits of a value, highest first, push out whatever the shift register held. -/
theorem shiftIn_eight (r v : BitVec 8) :
    [7, 6, 5, 4, 3, 2, 1, 0].foldl (fun r k => shiftIn r (v.getLsbD k)) r = v := by
  apply BitVec.eq_of_getLsbD_eq
  intro i hi
  have hcases : i = 0 ∨ i = 1 ∨ i = 2 ∨ i = 3 ∨ i = 4 ∨ i = 5 ∨ i = 6 ∨ i = 7 := by omega
  obtain rfl | rfl | rfl | rfl | rfl | rfl | rfl | rfl := hcases <;>
    simp only [List.foldl_cons, List.foldl_nil, getLsbD_shiftIn] <;> rfl

theorem seeAll_append (o : PanelObserver) (es fs : List Event) : o.seeAll (es ++ fs) = (o.seeAll es).seeAll fs :=
  List.foldl_append ..

/-- The observer over bits sent one after another, CFG_STR low: the shift register takes them in order. -/
theorem seeAll_bits (v : BitVec 8) (ks : List Nat) (o : PanelObserver) (hstr : o.lines.cfgStr = .lo)
    (hclk : ks ≠ [] ∨ o.lines.cfgClk = .hi) :
    let p := o.seeAll (ks.flatMap fun k => [.set .cfgClk false, .set .cfgData (v.getLsbD k), .set .cfgClk true])
    p.shift = ks.foldl (fun r k => shiftIn r (v.getLsbD k)) o.shift ∧ p.lines.cfgStr = .lo ∧ p.lines.cfgClk = .hi := by
  induction ks generalizing o with
  | nil => exact ⟨rfl, hstr, hclk.resolve_left (· rfl)⟩
  | cons k ks ih =>
    rw [List.flatMap_cons, seeAll_append, seeAll_bit, List.foldl_cons]
    exact ih { lines := { o.lines with cfgClk := .hi, cfgData := Level.ofBit (v.getLsbD k) }
               shift := shiftIn o.shift (v.getLsbD k), latched := o.latched } hstr (.inr rfl)

/-- The rising edge of CFG_STR latches what has been shifted in; CFG_CLK does not rise with it. -/
theorem latched_of_strobe {o : PanelObserver} (hstr : o.lines.cfgStr = .lo) (hclk : o.lines.cfgClk = .hi) :
    (o.seeAll [.set .cfgStr true]).latched = o.shift := by
  simp [PanelObserver.seeAll, PanelObserver.see, Pins.after, Pins.put, Level.ofBit, hstr, hclk]

/-! ## The bus observer (spec/41_bus_writer.md R157) -/

theorem mem_wiredLines {dmask : Byte} {i : Fin 8} : i ∈ wiredLines dmask ↔ dmask.getLsbD i = true := by
  have hall : ∀ i : Fin 8, i ∈ ([0, 1, 2, 3, 4, 5, 6, 7] : List (Fin 8)) := by decide
  simp [wiredLines, List.mem_filter, hall i]

/-- The data lines after some of them have been driven. -/
theorem data_afterAll_sets (level : Fin 8 → Bool) (lines : List (Fin 8)) (P : Pins) (i : Fin 8) :
    (P.afterAll (lines.map fun j => .set (.d j) (level j))).data[i] =
      if i ∈ lines then Level.ofBit (level i) else P.data[i] := by
  induction lines generalizing P with
  | nil => rfl
  | cons j lines ih =>
    have hput : (P.put (.d j) (Level.ofBit (level j))).data[i] = if j = i then Level.ofBit (level i) else P.data[i] := by
      by_cases hji : j = i
      · subst hji; simp [Pins.put]
      · have hval : (j : Nat) ≠ i := fun h => hji (Fin.ext h)
        simp [Pins.put, hval, hji]
    refine (ih (P.put (.d j) (Level.ofBit (level j)))).trans ?_
    rw [hput]
    by_cases hmem : i ∈ lines
    · simp [hmem]
    · by_cases hji : j = i
      · simp [hji]
      · simp [hmem, hji, Ne.symm hji]

/-- Nothing is captured while data lines are driven. -/
theorem captured_sets (level : Fin 8 → Bool) (lines : List (Fin 8)) (P : Pins) (es : List Event) :
    captured P ((lines.map fun j => .set (.d j) (level j)) ++ es) =
      captured (P.afterAll (lines.map fun j => .set (.d j) (level j))) es := by
  induction lines generalizing P with
  | nil => rfl
  | cons j lines ih =>
    have hne : Event.set (.d j) (level j) ≠ .set .ws true := by simp
    rw [List.map_cons, List.cons_append, captured, if_neg hne]
    exact ih (P.put (.d j) (Level.ofBit (level j)))

/-- The data lines that a byte leaves: its bits on the wired ones, the others as they were (R152, R153). -/
def dataAfterByte (data : Vector Level 8) (dmask b : Byte) : Vector Level 8 :=
  Vector.ofFn fun i : Fin 8 => if dmask.getLsbD i then Level.ofBit (b.getLsbD i) else data[i]

theorem getElem_dataAfterByte (data : Vector Level 8) (dmask b : Byte) (k : Nat) (hk : k < 8) :
    (dataAfterByte data dmask b)[k] = if dmask.getLsbD k then Level.ofBit (b.getLsbD k) else data[k] :=
  Vector.getElem_ofFn hk

/-- What a byte leaves on the unwired lines is what stood there, so the next byte shows the same there. -/
theorem dataAfterByte_dataAfterByte (data : Vector Level 8) (dmask b : Byte) :
    dataAfterByte (dataAfterByte data dmask b) dmask = dataAfterByte data dmask := by
  funext b'
  apply Vector.ext
  intro k hk
  simp only [getElem_dataAfterByte]
  split <;> rfl

theorem data_afterAll_byte (P : Pins) (dmask b : Byte) :
    (P.afterAll ((wiredLines dmask).map fun i => .set (.d i) (b.getLsbD i))).data = dataAfterByte P.data dmask b := by
  apply Vector.ext
  intro k hk
  have hk' := data_afterAll_sets (fun i => b.getLsbD i) (wiredLines dmask) P ⟨k, hk⟩
  rw [getElem_dataAfterByte]
  simp only [mem_wiredLines] at hk'
  exact hk'

/-- A byte is captured at its strobe. -/
theorem captured_byteEvents (P : Pins) (dmask b : Byte) (es : List Event) :
    captured P (byteEvents dmask b ++ es) =
      dataAfterByte P.data dmask b :: captured (P.afterAll (byteEvents dmask b)) es := by
  rw [byteEvents, List.append_assoc, captured_sets, Pins.afterAll_append, ← data_afterAll_byte]
  simp [captured, Pins.afterAll]

theorem data_afterAll_byteEvents (P : Pins) (dmask b : Byte) :
    (P.afterAll (byteEvents dmask b)).data = dataAfterByte P.data dmask b := by
  rw [byteEvents, Pins.afterAll_append, ← data_afterAll_byte]
  rfl

/-! ## POWER_OFF and POWER_OFF_ALL (spec/42_power_sequencer.md R174 to R177) -/

/-- Four Pushes and two Waits. -/
theorem length_powerOffEvents (cr : BitVec 8) : (powerOffEvents cr).length = 106 := by
  simp only [powerOffEvents, List.length_append, length_pushEvents, List.length_singleton]

theorem duration_powerOffEvents (cr : BitVec 8) : duration (powerOffEvents cr) = 110000 := by
  simp only [powerOffEvents, duration_append, duration_pushEvents, duration_cons, duration_nil, Event.micros]

/-- CR after each of POWER_OFF's four SetPushes (R174). -/
theorem writeField_powerOff (cr : BitVec 8) :
    writeField .posEn false cr = cr &&& ~~~0x04#8 ∧
      writeField .negEn false (cr &&& ~~~0x04#8) = cr &&& ~~~0x0C#8 ∧
      writeField .pwrDis true (cr &&& ~~~0x0C#8) = (cr &&& ~~~0x0C#8) ||| 0x02#8 ∧
      writeField .stv false ((cr &&& ~~~0x0C#8) ||| 0x02#8) = (cr &&& ~~~0x1C#8) ||| 0x02#8 := by
  revert cr; decide

/-- POWER_OFF's list emits its events from whatever CR holds (R175). -/
theorem runOps_powerOffList (s : State) :
    runOps powerOffList s = s.advance ((s.cr &&& ~~~0x1C#8) ||| 0x02#8) (powerOffEvents s.cr) := by
  obtain ⟨hpos, hneg, hpwr, hstv⟩ := writeField_powerOff s.cr
  have hlast := runOps_setPush .stv false []
  rw [List.append_nil] at hlast
  simp only [powerOffList, List.append_assoc, runOps_setPush, runOps_waitFor, hlast, runOps_nil, advance_cr,
    advance_advance, hpos, hneg, hpwr, hstv]
  simp [powerOffEvents, waitEvents]

theorem exec_powerOff (s : State) : exec .powerOff s = .next (start powerOffList s) := rfl

theorem keepsIe_powerOffEvents (cr : BitVec 8) : KeepsIe (powerOffEvents cr) := fun P => by
  simp only [powerOffEvents, Pins.afterAll_append, keepsIe_pushEvents _ _, keepsIe_wait _ _]

/-- POWER_OFF_ALL's list drops the frame, clears CR and sends it (R176). -/
theorem runOps_powerOffAllList (s : State) : runOps powerOffAllList s =
    State.advance 0x00#8 (pushEvents 0x00#8) { s with fstate := .idle, row := 0#10 } := by
  have hpush := runOps_push [] { s with fstate := .idle, row := 0#10, cr := 0x00#8 }
  rw [List.append_nil] at hpush
  rw [powerOffAllList, runOps_silent_ok (t := dropFrame s) rfl,
    runOps_silent_ok (t := { dropFrame s with cr := 0x00#8 }) rfl]
  exact hpush

theorem exec_powerOffAll (s : State) : exec .powerOffAll s = .next (start powerOffAllList s) := rfl

end Sys2Proof.Machine

namespace Sys2Proof

open Machine

/-- Settles O12, by running the 26 Sets on the lines. -/
theorem pushLeavesConfigLines : Obligations.PushLeavesConfigLines := afterAll_pushEvents

/-- Settles O13: the strobe falls, eight rising edges of CFG_CLK shift the value in, and the strobe's rise latches
it. -/
theorem panelObserverLatchesPush : Obligations.PanelObserverLatchesPush := by
  intro o v
  obtain ⟨hshift, hstr, hclk⟩ := seeAll_bits v [7, 6, 5, 4, 3, 2, 1, 0] (o.seeAll [.set .cfgStr false]) rfl
    (.inl (List.cons_ne_nil _ _))
  rw [pushEvents, ← List.singleton_append, seeAll_append, seeAll_append, latched_of_strobe hstr hclk, hshift,
    shiftIn_eight]

/-- Settles O15: each byte is captured at its strobe, and leaves the unwired lines as the next byte finds them. -/
theorem busObserverCapturesLine : Obligations.BusObserverCapturesLine := by
  intro P dmask bytes
  show captured P (lineEvents dmask bytes) = bytes.map (dataAfterByte P.data dmask)
  induction bytes generalizing P with
  | nil => rfl
  | cons b bytes ih =>
    rw [lineEvents_cons, captured_byteEvents, ih, List.map_cons, data_afterAll_byteEvents,
      dataAfterByte_dataAfterByte]

/-- Settles O17: POWER_OFF's list ends in the state R175 gives, and none of its events drives IE. -/
theorem powerOffCompletes : Obligations.PowerOffCompletes := by
  intro s hq
  refine ⟨length_powerOffEvents s.cr, duration_powerOffEvents s.cr, start powerOffList s, exec_powerOff s, ?_,
    keepsIe_powerOffEvents s.cr s.pins⟩
  have hrun := start_runs hq (powerOffEvents s.cr) (runOps_powerOffList _) (advance_log ..) (advance_raceTick ..)
  rwa [length_powerOffEvents] at hrun

/-- Settles O18: POWER_OFF_ALL's list asks nothing of the state it starts in. -/
theorem powerOffAllCompletes : Obligations.PowerOffAllCompletes := by
  intro s hq
  refine ⟨start powerOffAllList s, exec_powerOffAll s, ?_, afterAll_pushEvents s.pins 0x00#8⟩
  exact start_runs hq (pushEvents 0x00#8) (runOps_powerOffAllList _) (advance_log ..) (advance_raceTick ..)

/-- Settles O21: EndFrame drives CKV and the config lines to these levels, and nothing in a frame drives IE. -/
theorem frameLeavesClockLow : Obligations.FrameLeavesClockLow := by
  intro P dmask h p R bytes cr
  have hrow (r : Nat) : KeepsIe
      (if R.hasRow r then outputRowEvents dmask (crInFrame cr) (bytes r) p else skipRowEvents) := by
    split
    · exact keepsIe_outputRowEvents _ _ _ _
    · exact keepsIe_pulseEvents _ _
  have hrows := keepsIe_flatMap hrow (List.range h)
  simp only [drawFrameEvents, frameEvents, Pins.afterAll_append, afterAll_endFrameEvents, true_and]
  exact (hrows _).trans (keepsIe_startFrameEvents cr P)

end Sys2Proof
end

section
/-! PROOFS. Rows and frames as they run: the row operations of a frame in which some rows are output and the others are
skipped, whatever fills the row buffers. The 1bpp and the grayscale commands use it. -/

namespace Sys2Proof.Machine

/-! ## The rows of a frame, one after another (spec/43_frame_pipeline.md R197, R198, R202) -/

/-- A state inside a frame before its row operation number k. -/
def State.atRow (s : State) (k : Nat) : State := { s with fstate := .active, row := BitVec.ofNat 10 k }

/-- The next row operation counts the row. -/
theorem advance_countRow (s : State) (k : Nat) (c c' : BitVec 8) (es es' : List Event) :
    State.advance c' es' { (s.atRow k).advance c es with row := ((s.atRow k).advance c es).row + 1#10 } =
      (s.atRow (k + 1)).advance c' (es ++ es') := by
  simp [advance_eq, State.atRow, BitVec.ofNat_add, Pins.afterAll_append]

/-- EndFrame drops the frame. -/
theorem advance_closeFrame (s : State) (k : Nat) (c c' : BitVec 8) (es es' : List Event) :
    State.advance c' es' { (s.atRow k).advance c es with fstate := .idle, row := 0#10 } =
      State.advance c' (es ++ es') { s with fstate := .idle, row := 0#10 } := by
  simp [advance_eq, State.atRow, Pins.afterAll_append]

/-- CR before row operation k of a frame that began with CR = c: a data row clears LE (spec/43_frame_pipeline.md R200). -/
def rowCr (isData : Nat → Bool) (c : BitVec 8) (k : Nat) : BitVec 8 :=
  if (List.range k).any isData then c &&& ~~~0x01#8 else c

theorem rowCr_zero (isData : Nat → Bool) (c : BitVec 8) : rowCr isData c 0 = c := rfl

theorem any_range_succ (isData : Nat → Bool) (k : Nat) :
    (List.range (k + 1)).any isData = ((List.range k).any isData || isData k) := by
  simp [List.range_succ]

theorem rowCr_succ_skip {isData : Nat → Bool} {k : Nat} (hk : isData k = false) (c : BitVec 8) :
    rowCr isData c (k + 1) = rowCr isData c k := by
  simp only [rowCr, any_range_succ, hk, Bool.or_false]

theorem rowCr_succ_data {isData : Nat → Bool} {k : Nat} (hk : isData k = true) (c : BitVec 8) :
    rowCr isData c (k + 1) = rowCr isData c k &&& ~~~0x01#8 := by
  simp only [rowCr, any_range_succ, hk, Bool.or_true, if_true]
  split
  · rw [BitVec.and_assoc, BitVec.and_self]
  · rfl

/-- Once a data row has been output LE is clear. -/
theorem rowCr_of_data {isData : Nat → Bool} {q k : Nat} (hq : isData q = true) (hk : q < k) (c : BitVec 8) :
    rowCr isData c k = c &&& ~~~0x01#8 :=
  if_pos (List.any_eq_true.mpr ⟨q, List.mem_range.mpr hk, hq⟩)

/-- Where LE was clear it stays so. -/
theorem rowCr_of_latch_clear (isData : Nat → Bool) {c : BitVec 8} (hc : c &&& ~~~0x01#8 = c) (k : Nat) :
    rowCr isData c k = c := by
  unfold rowCr
  split
  · exact hc
  · rfl

/-- A latch sends the same two values whatever LE was (R200). -/
theorem outputRowEvents_rowCr (dmask : Byte) (isData : Nat → Bool) (c : BitVec 8) (k : Nat) (bytes : List Byte) (p : Nat) :
    outputRowEvents dmask (rowCr isData c k) bytes p = outputRowEvents dmask c bytes p := by
  have hlatch : ∀ c : BitVec 8, (c &&& ~~~0x01#8) ||| 0x01#8 = c ||| 0x01#8 ∧
      (c &&& ~~~0x01#8) &&& ~~~0x01#8 = c &&& ~~~0x01#8 := by decide
  unfold rowCr
  split
  · simp only [outputRowEvents, latchRowEvents, hlatch c]
  · rfl

/-- The row operations from row r on begin with row r's. -/
theorem flatMap_range_split {m r : Nat} (hr : r < m) (f : Nat → List MicroOp) :
    ∃ tail, (List.range m).flatMap f = (List.range r).flatMap f ++ (f r ++ tail) := by
  obtain ⟨d, rfl⟩ : ∃ d, m = r + (d + 1) := ⟨m - r - 1, by omega⟩
  refine ⟨((List.range d).map fun j => r + (j + 1)).flatMap f, ?_⟩
  rw [List.range_add, List.flatMap_append, List.range_succ_eq_map]
  simp [Function.comp_def, List.flatMap_map]

/-- The row operations of a frame for its first m rows: `buf k` is the state, apart from trace, CR and the frame state,
before row operation k. A data row fills its buffer and is output from `src`; the others are skipped. -/
structure FrameRows (m : Nat) (dmask : Byte) (src : RowSource) (n p : Nat) (isData : Nat → Bool)
    (rowop : Nat → List MicroOp) (buf : Nat → State) : Prop where
  fits : ∀ k, m ≤ (buf k).height.toNat
  data : ∀ k < m, isData k = true → ∀ c es rest, runOps (rowop k ++ rest) (((buf k).atRow k).advance c es) =
    runOps (outputRow dmask src n p ++ rest) (((buf (k + 1)).atRow k).advance c es)
  skip : ∀ k < m, isData k = false → rowop k = skipRow ∧ buf (k + 1) = buf k

/-- The events of row operation r. -/
def rowEvents (dmask : Byte) (src : RowSource) (n p : Nat) (isData : Nat → Bool) (buf : Nat → State) (c : BitVec 8)
    (r : Nat) : List Event :=
  if isData r then outputRowEvents dmask c ((List.range n).map ((buf (r + 1)).rowByte src)) p else skipRowEvents

section
variable {m n p : Nat} {dmask : Byte} {src : RowSource} {isData : Nat → Bool} {rowop : Nat → List MicroOp}
  {buf : Nat → State}

theorem rowByte_atRow (src : RowSource) (s : State) (k : Nat) : (s.atRow k).rowByte src = s.rowByte src := by
  funext j; cases src <;> rfl

/-- The first k row operations. -/
theorem FrameRows.runOps_rows (h : FrameRows m dmask src n p isData rowop buf) (c : BitVec 8) (es : List Event)
    {k : Nat} (hk : k ≤ m) (rest : List MicroOp) :
    runOps ((List.range k).flatMap rowop ++ rest) (((buf 0).atRow 0).advance c es) =
      runOps rest (((buf k).atRow k).advance (rowCr isData c k)
        (es ++ (List.range k).flatMap (rowEvents dmask src n p isData buf c))) := by
  have hstart : ((buf 0).atRow 0).advance c es = ((buf 0).atRow 0).advance (rowCr isData c 0)
      (es ++ (List.range 0).flatMap (rowEvents dmask src n p isData buf c)) := by simp [rowCr_zero]
  rw [hstart]
  refine Machine.runOps_rows (st := fun k => ((buf k).atRow k).advance (rowCr isData c k)
    (es ++ (List.range k).flatMap (rowEvents dmask src n p isData buf c))) rest fun j hj rest => ?_
  have hlt : j < m := by omega
  have hrow (s : State) (hs : m ≤ s.height.toNat) (c' : BitVec 8) (es' : List Event) :
      ((s.atRow j).advance c' es').row < ((s.atRow j).advance c' es').height := by
    have hbound := s.height.isLt
    have hj10 : (BitVec.ofNat 10 j).toNat = j := Nat.mod_eq_of_lt (by omega)
    simp only [advance_row, advance_height, State.atRow, BitVec.lt_def, hj10]
    omega
  have hevents : es ++ (List.range (j + 1)).flatMap (rowEvents dmask src n p isData buf c) =
      es ++ (List.range j).flatMap (rowEvents dmask src n p isData buf c) ++ rowEvents dmask src n p isData buf c j := by
    simp [List.range_succ]
  rw [hevents]
  cases hd : isData j with
  | true =>
    rw [h.data j hlt hd, runOps_outputRow _ _ _ _ _ _ rfl (hrow _ (h.fits _) _ _), advance_countRow, advance_cr,
      rowByte_advance, rowByte_atRow, outputRowEvents_rowCr, rowCr_succ_data hd, rowEvents, if_pos hd]
  | false =>
    obtain ⟨hop, hbuf⟩ := h.skip j hlt hd
    rw [hop, hbuf, runOps_skipRow _ _ rfl (hrow _ (h.fits _) _ _), advance_countRow, advance_cr, rowCr_succ_skip hd,
      rowEvents, if_neg (by simp [hd])]

theorem startFrame_atRow (s : State) (es : List Event) :
    State.advance (crInFrame s.cr) es { s with fstate := .active, row := 0#10 } =
      (s.atRow 0).advance (crInFrame s.cr) es := rfl

/-- CR after EndFrame of a frame with a data row (R196). -/
theorem crAfterFrame_eq (c : BitVec 8) : (crInFrame c &&& ~~~0x01#8) &&& ~~~0xC0#8 = crAfterFrame c := by
  revert c; decide

/-- A whole frame with at least one data row, from IDLE. -/
theorem FrameRows.runOps_frame (h : FrameRows m dmask src n p isData rowop buf) (hm : ∀ k, (buf k).height.toNat = m)
    (hidle : (buf 0).fstate = .idle) {q : Nat} (hq : isData q = true) (hqm : q < m) (rest : List MicroOp) :
    runOps (frame m rowop ++ rest) (buf 0) = runOps rest (State.advance (crAfterFrame (buf 0).cr)
      (frameEvents (buf 0).cr m (rowEvents dmask src n p isData buf (crInFrame (buf 0).cr)))
      { buf m with fstate := .idle, row := 0#10 }) := by
  have hfull : BitVec.ofNat 10 m = (buf m).height := by
    apply BitVec.eq_of_toNat_eq
    have hlt := (buf m).height.isLt
    rw [hm m] at hlt
    rw [BitVec.toNat_ofNat, hm m, Nat.mod_eq_of_lt hlt]
  have hrows (rest : List MicroOp) := h.runOps_rows (crInFrame (buf 0).cr) (startFrameEvents (buf 0).cr) le_rfl rest
  rw [rowCr_of_data hq hqm] at hrows
  have hactive (c : BitVec 8) (es : List Event) : (((buf m).atRow m).advance c es).fstate = .active := rfl
  have hlast (c : BitVec 8) (es : List Event) :
      (((buf m).atRow m).advance c es).row = (((buf m).atRow m).advance c es).height := hfull
  refine (Machine.runOps_frame rest hidle (hactive _ _) (hlast _ _) hrows).trans (congrArg (runOps rest) ?_)
  rw [advance_closeFrame, advance_cr, crAfterFrame_eq, frameEvents]

/-- Where such a frame that begins with CR = c stands before row operation k. -/
def frameAtRow (dmask : Byte) (src : RowSource) (n p : Nat) (isData : Nat → Bool) (buf : Nat → State) (c : BitVec 8)
    (k : Nat) : State :=
  ((buf k).atRow k).advance (rowCr isData (crInFrame c) k)
    (startFrameEvents c ++ (List.range k).flatMap (rowEvents dmask src n p isData buf (crInFrame c)))

section
variable (c : BitVec 8) (k : Nat)

theorem frameAtRow_opl : (frameAtRow dmask src n p isData buf c k).opl = (buf k).opl := by
  rw [frameAtRow, advance_opl]; rfl

theorem frameAtRow_srcAdmit : (frameAtRow dmask src n p isData buf c k).srcAdmit = (buf k).srcAdmit := by
  rw [frameAtRow, advance_admit]; rfl

theorem frameAtRow_width : (frameAtRow dmask src n p isData buf c k).width = (buf k).width := by
  rw [frameAtRow, advance_width]; rfl

end

/-- A frame up to a row whose reads fault, which it does not pass (spec/60_exceptions.md R323). -/
theorem FrameRows.runOps_fault (h : FrameRows m dmask src n p isData rowop buf) (hidle : (buf 0).fstate = .idle)
    {height : Nat} (hm : m < height) {i : Silent} {tail : List MicroOp} {e : ErrCode} (hop : rowop m = .silent i :: tail)
    (herr : runSilent i (countRead i (frameAtRow dmask src n p isData buf (buf 0).cr m)) = .error e)
    (rest : List MicroOp) :
    runOps (frame height rowop ++ rest) (buf 0) = takeFaultAt e i (frameAtRow dmask src n p isData buf (buf 0).cr m) := by
  have hrows (rest : List MicroOp) := h.runOps_rows (crInFrame (buf 0).cr) (startFrameEvents (buf 0).cr) le_rfl rest
  obtain ⟨tail', hsplit⟩ := flatMap_range_split hm rowop
  rw [frame, hsplit, hop]
  simp only [List.append_assoc, List.cons_append]
  rw [runOps_startFrame _ _ hidle, startFrame_atRow, hrows]
  exact runOps_counted_error herr _

end

/-! ## The data rows of a rectangle (spec/44_renderer_1bpp.md R226) -/

/-- How many of the first k panel rows are data rows of the rectangle. -/
def Rect.rowsBefore (R : Rect) (k : Nat) : Nat := (min (k : Int) R.ye - R.ys).toNat

/-- The last data row among the first k panel rows. -/
def Rect.lastBefore (R : Rect) (k : Nat) : Nat := min k R.ye.toNat - 1

/-- The rectangle has a row, and all its rows are rows of a panel of this height. -/
structure Rect.OnPanel (R : Rect) (height : Nat) : Prop where
  top : 0 ≤ R.ys
  nonempty : R.ys < R.ye
  bottom : R.ye ≤ height

section
variable {R : Rect} {height k : Nat} (hR : R.OnPanel height)

theorem Rect.rowsBefore_zero (R : Rect) (h : 0 ≤ R.ys) : R.rowsBefore 0 = 0 := by
  unfold Rect.rowsBefore; omega

include hR

theorem Rect.rowsBefore_succ_data (hk : R.hasRow k = true) : R.rowsBefore (k + 1) = R.rowsBefore k + 1 := by
  obtain ⟨htop, hne, -⟩ := hR
  rw [R.hasRow_iff] at hk
  unfold Rect.rowsBefore; omega

theorem Rect.lastBefore_succ_data (hk : R.hasRow k = true) : R.lastBefore (k + 1) = k := by
  obtain ⟨htop, hne, -⟩ := hR
  rw [R.hasRow_iff] at hk
  unfold Rect.lastBefore; omega

theorem Rect.rowsBefore_succ_skip (hk : R.hasRow k = false) : R.rowsBefore (k + 1) = R.rowsBefore k := by
  obtain ⟨htop, hne, -⟩ := hR
  have hk' := (R.hasRow_iff k).not.mp (by simp [hk])
  unfold Rect.rowsBefore; omega

theorem Rect.lastBefore_succ_skip (hk : R.hasRow k = false) (hpos : R.rowsBefore k ≠ 0) :
    R.lastBefore (k + 1) = R.lastBefore k := by
  obtain ⟨htop, hne, -⟩ := hR
  have hk' := (R.hasRow_iff k).not.mp (by simp [hk])
  unfold Rect.rowsBefore at hpos
  unfold Rect.lastBefore; omega

/-- Over the whole panel the data rows are the rectangle's rows. -/
theorem Rect.rowsBefore_height : R.rowsBefore height = (R.ye - R.ys).toNat := by
  obtain ⟨htop, hne, hbottom⟩ := hR
  unfold Rect.rowsBefore; omega

theorem Rect.lastBefore_height : R.lastBefore height = R.ye.toNat - 1 := by
  obtain ⟨htop, hne, hbottom⟩ := hR
  unfold Rect.lastBefore; omega

theorem Rect.rowsBefore_height_ne_zero : R.rowsBefore height ≠ 0 := by
  obtain ⟨htop, hne, hbottom⟩ := hR
  unfold Rect.rowsBefore; omega

/-- The first row of the rectangle is a data row of the panel. -/
theorem Rect.hasRow_first : R.hasRow R.ys.toNat = true ∧ R.ys.toNat < height := by
  obtain ⟨htop, hne, hbottom⟩ := hR
  rw [R.hasRow_iff]; omega

theorem Rect.hasRow_lt (hk : R.hasRow k = true) : k < height := by
  obtain ⟨htop, hne, hbottom⟩ := hR
  rw [R.hasRow_iff] at hk; omega

theorem Rect.length_filter_hasRow (m : Nat) : ((List.range m).filter R.hasRow).length = R.rowsBefore m := by
  induction m with
  | zero => exact (R.rowsBefore_zero hR.top).symm
  | succ m ih =>
    rw [List.range_succ, List.filter_append, List.length_append, ih]
    cases hm : R.hasRow m with
    | true => simp [hm, Rect.rowsBefore_succ_data hR hm]
    | false => simp [hm, Rect.rowsBefore_succ_skip hR hm]

end

/-- A clip that is not EMPTY lies on the panel. -/
theorem clip_onPanel {width height : Nat} {x y w h : Int} {R : Rect} (hR : clip width height x y w h = some R) :
    R.OnPanel height := by
  obtain ⟨rfl, -, hrows⟩ := clip_eq_some hR
  exact ⟨le_max_right _ _, hrows, min_le_right _ _⟩

theorem grayRect_onPanel {policy : GrayPolicy} {width height : Nat} {x y w h : Int} {R : Rect}
    (hR : grayRect policy width height x y w h = some R) : R.OnPanel height := by
  cases policy with
  | clip => exact clip_onPanel hR
  | reject =>
    simp only [grayRect] at hR
    split at hR
    · cases hR
    · rename_i hin
      push Not at hin
      obtain ⟨-, hh, -, hy, -, hb⟩ := hin
      cases hR
      exact ⟨hy, by dsimp only; omega, hb⟩

end Sys2Proof.Machine
end

section
/-! PROOFS. The commands of spec/44_renderer_1bpp.md: CLEAR and DRAW_1BPP. -/

namespace Sys2Proof.Machine

/-! ## Commands without a list (spec/46_host_interface.md R294) -/

/-- A command whose list is empty is over at once. -/
theorem start_nil (s : State) : start [] s = { s with busy := false, todo := [], waited := 0, raced := [] } := rfl

theorem exec_clear (cycles : Word) (s : State) :
    exec (.clear cycles) s = .next (start (clearList (s.latched (.clear cycles))) (s.latched (.clear cycles))) := rfl

theorem exec_draw1bpp (x y w h src pulse : Word) (s : State) : exec (.draw1bpp x y w h src pulse) s =
    .next (start (draw1bppList (s.latched (.draw1bpp x y w h src pulse))) (s.latched (.draw1bpp x y w h src pulse))) :=
  rfl

/-! ## CLEAR (spec/44_renderer_1bpp.md R230, R231) -/

/-- The duration and the number of events of one frame of CLEAR and its settle. -/
theorem clearFrameEvents_size (dmask : Byte) (h len : Nat) (cr : BitVec 8) (b : Byte) :
    duration (clearFrameEvents dmask h len cr b) = 1038 + 62 * h + 20000 ∧
      (clearFrameEvents dmask h len cr b).length = 180 + h * (60 + len * (popcount dmask + 2)) + 1 := by
  simp only [clearFrameEvents, duration_append, List.length_append, duration_frameEvents, length_frameEvents,
    duration_outputRowEvents, length_outputRowEvents, List.map_const', List.length_range, List.sum_replicate,
    List.length_replicate, duration_cons, duration_nil, List.length_singleton, Event.micros, smul_eq_mul]
  norm_num
  constructor <;> ring

/-- The rows of a frame of CLEAR: each is output from the filled buffer. -/
theorem clear_frameRows (s : State) (b : Byte) :
    FrameRows s.height.toNat s.dmask .rowbuf1 s.rowLen1 10 (fun _ => true)
      (fun _ => outputRow s.dmask .rowbuf1 s.rowLen1 10) (fun _ => fillRow b s) where
  fits _ := le_rfl
  data _ _ _ _ _ _ := rfl
  skip _ _ h := by cases h

/-- The bytes that are sent from a filled buffer. -/
theorem map_rowByte_fillRow {s : State} (hw : s.width.toNat ≤ Config.maxWidth) (b : Byte) :
    (List.range s.rowLen1).map ((fillRow b s).rowByte .rowbuf1) = List.replicate s.rowLen1 b := by
  have h := map_entry_overwrite (fun _ => b) s.rowbuf1 (rowLen1_le hw)
  rw [List.map_const', List.length_range] at h
  exact h

/-- The state after frames of CLEAR: the events, CR, and the byte that fills the buffer. -/
def State.cleared (c : BitVec 8) (es : List Event) (b : Byte) (s : State) : State :=
  State.advance c es { fillRow b s with row := 0#10 }

section
variable (c c' : BitVec 8) (es es' : List Event) (b b' : Byte) (s : State)

@[simp] theorem cleared_cr : (s.cleared c es b).cr = c := rfl
@[simp] theorem cleared_dmask : (s.cleared c es b).dmask = s.dmask := rfl
@[simp] theorem cleared_width : (s.cleared c es b).width = s.width := rfl
@[simp] theorem cleared_height : (s.cleared c es b).height = s.height := rfl
@[simp] theorem cleared_fstate : (s.cleared c es b).fstate = s.fstate := rfl
@[simp] theorem cleared_rowLen1 : (s.cleared c es b).rowLen1 = s.rowLen1 := rfl
theorem clearFrame_cleared : clearFrame (s.cleared c es b) b' = clearFrame s b' := rfl

/-- Filling again leaves the second byte alone. -/
theorem cleared_cleared : (s.cleared c es b).cleared c' es' b' = s.cleared c' (es ++ es') b' := by
  have hbuf : overwrite s.rowLen1 (fun _ => b') (overwrite s.rowLen1 (fun _ => b) s.rowbuf1) =
      overwrite s.rowLen1 (fun _ => b') s.rowbuf1 := overwrite_overwrite ..
  simp only [State.rowLen1] at hbuf
  simp [State.cleared, fillRow, advance_eq, Pins.afterAll_append, State.rowLen1, hbuf]

end

/-- One frame of CLEAR from IDLE: it is emitted with its settle, and the buffer is filled. -/
theorem runOps_clearFrame {s : State} (hw : s.width.toNat ≤ Config.maxWidth) (hh : 1 ≤ s.height.toNat)
    (hf : s.fstate = .idle) (b : Byte) (rest : List MicroOp) :
    runOps (clearFrame s b ++ rest) s = runOps rest
      (s.cleared (crAfterFrame s.cr) (clearFrameEvents s.dmask s.height.toNat s.rowLen1 s.cr b) b) := by
  have hframe := (clear_frameRows s b).runOps_frame (fun _ => rfl) hf (q := 0) rfl hh (waitFor 20000 ++ rest)
  rw [clearFrame, List.cons_append, List.append_assoc, runOps_silent_ok (t := fillRow b s) rfl, hframe, runOps_waitFor,
    advance_cr, advance_advance]
  have hstate : { fillRow b s with fstate := .idle, row := 0#10 } = { fillRow b s with row := 0#10 } := by
    rw [← hf]; rfl
  have hrow : rowEvents s.dmask .rowbuf1 s.rowLen1 10 (fun _ => true) (fun _ => fillRow b s) (crInFrame s.cr) =
      fun _ => outputRowEvents s.dmask (crInFrame s.cr) (List.replicate s.rowLen1 b) 10 := by
    funext r
    rw [rowEvents, if_pos rfl, map_rowByte_fillRow hw]
  rw [hstate, fillRow_cr, hrow]
  rfl

theorem crAfterFrame_crAfterFrame : ∀ c : BitVec 8, crAfterFrame (crAfterFrame c) = crAfterFrame c := by decide

/-- The events of a dark and a white frame, from the CR value `cr` (R230). -/
def clearPairEvents (dmask : Byte) (height len : Nat) (cr : BitVec 8) : List Event :=
  clearFrameEvents dmask height len cr 0x00#8 ++ clearFrameEvents dmask height len (crAfterFrame cr) 0xFF#8

theorem clearEvents_succ (dmask : Byte) (height len n : Nat) (cr : BitVec 8) :
    clearEvents dmask height len (n + 1) cr =
      clearPairEvents dmask height len cr ++ clearEvents dmask height len n (crAfterFrame cr) := rfl

theorem runOps_clearPair {s : State} (hw : s.width.toNat ≤ Config.maxWidth) (hh : 1 ≤ s.height.toNat)
    (hf : s.fstate = .idle) (rest : List MicroOp) :
    runOps (clearFrame s 0x00#8 ++ clearFrame s 0xFF#8 ++ rest) s = runOps rest
      (s.cleared (crAfterFrame s.cr) (clearPairEvents s.dmask s.height.toNat s.rowLen1 s.cr) 0xFF#8) := by
  rw [List.append_assoc, runOps_clearFrame hw hh hf, ← clearFrame_cleared (crAfterFrame s.cr) _ 0x00#8 0xFF#8 s,
    runOps_clearFrame (by rwa [cleared_width]) (by rwa [cleared_height]) (by rwa [cleared_fstate]), cleared_cleared,
    cleared_cr, cleared_dmask, cleared_height, cleared_rowLen1, crAfterFrame_crAfterFrame, clearPairEvents]

/-- The dark and white frames of CLEAR, at least one pair (R230). -/
theorem runOps_clearPairs {s : State} (hw : s.width.toNat ≤ Config.maxWidth) (hh : 1 ≤ s.height.toNat)
    (hf : s.fstate = .idle) (n : Nat) :
    runOps (List.replicate (n + 1) (clearFrame s 0x00#8 ++ clearFrame s 0xFF#8)).flatten s =
      s.cleared (crAfterFrame s.cr) (clearEvents s.dmask s.height.toNat s.rowLen1 (n + 1) s.cr) 0xFF#8 := by
  induction n generalizing s with
  | zero =>
    rw [List.replicate_succ, List.flatten_cons, runOps_clearPair hw hh hf, List.replicate_zero, List.flatten_nil,
      runOps_nil, clearEvents_succ, clearEvents, List.append_nil]
  | succ n ih =>
    rw [List.replicate_succ, List.flatten_cons, runOps_clearPair hw hh hf,
      ← clearFrame_cleared (crAfterFrame s.cr) (clearPairEvents s.dmask s.height.toNat s.rowLen1 s.cr) 0xFF#8 0x00#8 s,
      ← clearFrame_cleared (crAfterFrame s.cr) (clearPairEvents s.dmask s.height.toNat s.rowLen1 s.cr) 0xFF#8 0xFF#8 s,
      ih (by rwa [cleared_width]) (by rwa [cleared_height]) (by rwa [cleared_fstate]), cleared_cleared, cleared_cr,
      cleared_dmask, cleared_height, cleared_rowLen1, crAfterFrame_crAfterFrame, clearEvents_succ _ _ _ (n + 1)]

/-! ## DRAW_1BPP (spec/44_renderer_1bpp.md R223, R226) -/

/-- The state before a draw's row operation k: ROWBUF1 holds the last data row, and each data row has been
read once. -/
def State.drawn1 (s : State) (R : Rect) (k : Nat) : State :=
  { s with
    rowbuf1 := if R.rowsBefore k = 0 then s.rowbuf1 else overwrite s.rowLen1 (s.rowByte1 R (R.lastBefore k)) s.rowbuf1
    raceTick := s.raceTick + R.rowsBefore k }

section
variable {s : State} {R : Rect} {k : Nat}

theorem drawn1_zero (htop : 0 ≤ R.ys) : s.drawn1 R 0 = s := by
  simp [State.drawn1, R.rowsBefore_zero htop]

theorem drawn1_succ_data (hR : R.OnPanel s.height.toNat) (hk : R.hasRow k = true) : s.drawn1 R (k + 1) =
    { s with
      rowbuf1 := overwrite s.rowLen1 (s.rowByte1 R k) s.rowbuf1
      raceTick := s.raceTick + R.rowsBefore k + 1 } := by
  simp [State.drawn1, Rect.rowsBefore_succ_data hR hk, Rect.lastBefore_succ_data hR hk, Nat.add_assoc]

theorem drawn1_succ_skip (hR : R.OnPanel s.height.toNat) (hk : R.hasRow k = false) :
    s.drawn1 R (k + 1) = s.drawn1 R k := by
  simp only [State.drawn1, Rect.rowsBefore_succ_skip hR hk]
  split
  · rfl
  · rename_i hpos
    rw [Rect.lastBefore_succ_skip hR hk hpos]

/-- Whatever row was there before, the buffer takes the new row. -/
theorem overwrite_drawn1 (f : Nat → Byte) :
    overwrite s.rowLen1 f (s.drawn1 R k).rowbuf1 = overwrite s.rowLen1 f s.rowbuf1 := by
  simp only [State.drawn1]
  split
  · rfl
  · exact overwrite_overwrite ..

/-- The reads of an admitted data row fill the buffer with the composed row (R223). -/
theorem compose1_drawn1 (hr : s.raced = []) (c : BitVec 8) (es : List Event) (ha : s.rowAdmitted1 R k = true)
    (hR : R.OnPanel s.height.toNat) (hk : R.hasRow k = true) :
    runSilent (.compose1 R k)
      { ((s.drawn1 R k).atRow k).advance c es with raceTick := (((s.drawn1 R k).atRow k).advance c es).raceTick + 1 } =
      .ok (((s.drawn1 R (k + 1)).atRow k).advance c es) := by
  generalize hu : ({ ((s.drawn1 R k).atRow k).advance c es with
    raceTick := (((s.drawn1 R k).atRow k).advance c es).raceTick + 1 } : State) = u
  have hadmitted : u.rowAdmitted1 = s.rowAdmitted1 := rowAdmitted1_congr (by rw [← hu]; rfl) (by rw [← hu]; rfl)
    (by rw [← hu]; rfl)
  have hbyte : u.rowByte1 = s.rowByte1 := rowByte1_congr (by rw [← hu]; rfl) (by rw [← hu]; rfl)
    (by rw [← hu]; rfl) hr (by rw [← hu]; exact hr)
  have hlen : u.rowLen1 = s.rowLen1 := by rw [← hu]; rfl
  have hbuf : u.rowbuf1 = (s.drawn1 R k).rowbuf1 := by rw [← hu]; rfl
  simp only [runSilent, compose1, hadmitted, ha, if_true, hbyte, hlen, hbuf, overwrite_drawn1]
  rw [drawn1_succ_data hR hk, ← hu]
  rfl

theorem drawn1_frameRows {m : Nat} (hm : m ≤ s.height.toNat) (hr : s.raced = []) (hR : R.OnPanel s.height.toNat)
    (ha : ∀ q < m, R.hasRow q = true → s.rowAdmitted1 R q = true) :
    FrameRows m s.dmask .rowbuf1 s.rowLen1 s.opl.pulse.toNat R.hasRow (drawRow1 s R) (s.drawn1 R) where
  fits _ := hm
  data k hk hd c es rest := by
    rw [drawRow1, if_pos hd, List.cons_append, runOps_read_ok (compose1_drawn1 hr c es (ha k hk hd) hR hd)]
  skip k _ hd := ⟨if_neg (by simp [hd]), drawn1_succ_skip hR hd⟩

/-- What a data row sends is the row just composed. -/
theorem map_rowByte_drawn1 (hw : s.width.toNat ≤ Config.maxWidth) (hR : R.OnPanel s.height.toNat)
    (hk : R.hasRow k = true) :
    (List.range s.rowLen1).map ((s.drawn1 R (k + 1)).rowByte .rowbuf1) = s.sentBytes1 R k := by
  rw [drawn1_succ_data hR hk]
  exact map_entry_overwrite _ _ (rowLen1_le hw)

/-- The events of row r of a draw. -/
theorem rowEvents_drawn1 (hw : s.width.toNat ≤ Config.maxWidth) (hR : R.OnPanel s.height.toNat) (c : BitVec 8) :
    rowEvents s.dmask .rowbuf1 s.rowLen1 s.opl.pulse.toNat R.hasRow (s.drawn1 R) c =
      fun r => if R.hasRow r then outputRowEvents s.dmask c (s.sentBytes1 R r) s.opl.pulse.toNat else skipRowEvents := by
  funext r
  unfold rowEvents
  split
  · rename_i hd
    rw [map_rowByte_drawn1 hw hR hd]
  · rfl

theorem drawn1_height (hR : R.OnPanel s.height.toNat) : s.drawn1 R s.height.toNat =
    { s with
      rowbuf1 := overwrite s.rowLen1 (s.rowByte1 R (R.ye.toNat - 1)) s.rowbuf1
      raceTick := s.raceTick + (R.ye - R.ys).toNat } := by
  rw [State.drawn1, if_neg (Rect.rowsBefore_height_ne_zero hR), Rect.rowsBefore_height hR, Rect.lastBefore_height hR]

/-- DRAW_1BPP's list, every data row admitted, emits one frame (R226). -/
theorem runOps_drawFrame1 (hw : s.width.toNat ≤ Config.maxWidth) (hr : s.raced = []) (hf : s.fstate = .idle)
    (hR : R.OnPanel s.height.toNat) (ha : ∀ q, R.hasRow q = true → s.rowAdmitted1 R q = true) :
    runOps (frame s.height.toNat (drawRow1 s R)) s = State.advance (crAfterFrame s.cr)
      (drawFrameEvents s.dmask s.height.toNat R (s.sentBytes1 R) s.opl.pulse.toNat s.cr)
      { s.drawn1 R s.height.toNat with fstate := .idle, row := 0#10 } := by
  obtain ⟨hfirst, hlt⟩ := Rect.hasRow_first hR
  have hrows := drawn1_frameRows le_rfl hr hR fun q _ => ha q
  have hframe := hrows.runOps_frame (fun _ => rfl) hf hfirst hlt []
  rwa [List.append_nil, runOps_nil, drawn1_zero hR.top, rowEvents_drawn1 hw hR] at hframe

/-- The events of a draw's rows before row r. -/
def State.rowsEvents1 (s : State) (R : Rect) (r : Nat) : List Event :=
  (List.range r).flatMap fun q =>
    if R.hasRow q then outputRowEvents s.dmask (crInFrame s.cr) (s.sentBytes1 R q) s.opl.pulse.toNat else skipRowEvents

end

/-! ## An accepted command, left alone -/

/-- The state in which an accepted command's list begins to run. -/
def State.accepted (s : State) (i : Instr) : State := { s.latched i with busy := true, waited := 0, raced := [] }

/-- An accepted command runs to the end that its list computes: a step for each event and for each row that is read. -/
theorem exec_runs {i : Instr} {s u : State} {ops : List MicroOp} (hq : s.Quiet) (hops : commandList i s = some ops)
    (es : List Event) (rows : Nat) (h : runOps ops (s.accepted i) = u) (hlog : u.log = es.reverse ++ s.log)
    (ht : u.raceTick = s.raceTick + rows) : ∃ t, exec i s = .next t ∧ t.RunsTo (es.length + rows) u.over := by
  have hlatched : (s.latched i).Quiet := ⟨hq.inbox, hq.pending, hq.stopReq, hq.rst⟩
  obtain ⟨ops', hops', he⟩ | ⟨rfl, -⟩ | ⟨rfl, -⟩ := exec_cases i s
  · cases hops.symm.trans hops'
    exact ⟨_, he, start_runs_reading hlatched es rows h hlog ht⟩
  · cases hops
  · cases hops

/-- How a draw ends that began in `s`, emitted `es` and is halted by the reads of row r, the row number `rows` of those it
has read (spec/60_exceptions.md R321, R323). -/
structure ReadFaulted (s : State) (es : List Event) (rows r : Nat) (u : State) : Prop where
  log : u.log = es.reverse ++ s.log
  pins : u.pins = s.pins.afterAll es
  cr : u.cr = crInFrame s.cr
  fstate : u.fstate = .active
  row : u.row = BitVec.ofNat 10 r
  err : u.err = true
  halted : u.halted = true
  errCode : u.errCode = (if s.errCode = .none then .srcFault else s.errCode)
  src : u.src = s.src
  rsp : u.rsp = s.rsp
  raceTick : u.raceTick = s.raceTick + (rows + 1)

/-- A core that is not latching when a frame begins is not latching inside it. -/
theorem rowCr_crInFrame {s : State} (hle : s.latchEnable = false) (isData : Nat → Bool) (k : Nat) :
    rowCr isData (crInFrame s.cr) k = crInFrame s.cr := by
  have hclear : ∀ c : BitVec 8, c.getLsbD 0 = false → crInFrame c &&& ~~~0x01#8 = crInFrame c := by decide
  exact rowCr_of_latch_clear isData (hclear s.cr hle) k

/-- A row's reads that fault, at a position inside a frame. -/
theorem readFaulted_at {s b : State} {es : List Event} {rows r : Nat} {i : Silent} (hreads : i.reads = true)
    (hpins : b.pins = s.pins) (hlog : b.log = s.log) (hcode : b.errCode = s.errCode) (hsrc : b.src = s.src)
    (hrsp : b.rsp = s.rsp) (htick : b.raceTick = s.raceTick + rows) :
    ReadFaulted s es rows r (takeFaultAt .srcFault i ((b.atRow r).advance (crInFrame s.cr) es)) := by
  rw [takeFaultAt_of_reads hreads]
  exact {
    log := by rw [← hlog, takeHaltingFault_log, halfCompose_log]; rfl
    pins := by rw [← hpins, takeHaltingFault_pins, halfCompose_pins]; rfl
    cr := by rw [takeHaltingFault_cr, halfCompose_cr]; rfl
    fstate := by rw [takeHaltingFault_fstate, halfCompose_fstate]; rfl
    row := by rw [takeHaltingFault_row, halfCompose_row]; rfl
    err := rfl
    halted := rfl
    errCode := by rw [← hcode, takeHaltingFault, State.recordError, halfCompose_errCode]; rfl
    src := by rw [← hsrc, takeHaltingFault_src, halfCompose_src]; rfl
    rsp := by rw [← hrsp, takeHaltingFault_rsp, halfCompose_rsp]; rfl
    raceTick := by
      rw [takeHaltingFault_raceTick, halfCompose_raceTick, advance_raceTick, ← Nat.add_assoc, ← htick]; rfl }

/-- The reads of a row fault where the row was not admitted when the command began. -/
theorem compose1_faults {s b : State} {R : Rect} {r : Nat} (ho : b.opl = s.opl) (ha : b.srcAdmit = s.srcAdmit)
    (hw : b.width = s.width) (hno : s.rowAdmitted1 R r = false) :
    runSilent (.compose1 R r) (countRead (.compose1 R r) b) = .error .srcFault := by
  have hadmitted : (countRead (.compose1 R r) b).rowAdmitted1 = s.rowAdmitted1 := rowAdmitted1_congr ho ha hw
  rw [runSilent, compose1, hadmitted, hno]; rfl

/-- DRAW_1BPP's list up to the first data row that is not admitted (R323). -/
theorem runOps_drawFrame1_faulted {s : State} {R : Rect} {r : Nat} (hw : s.width.toNat ≤ Config.maxWidth)
    (hr : s.raced = []) (hf : s.fstate = .idle) (hle : s.latchEnable = false) (hR : R.OnPanel s.height.toNat)
    (hd : R.hasRow r = true) (hno : s.rowAdmitted1 R r = false)
    (ha : ∀ q < r, R.hasRow q = true → s.rowAdmitted1 R q = true) :
    ∃ u, runOps (frame s.height.toNat (drawRow1 s R)) s = u ∧
      ReadFaulted s (startFrameEvents s.cr ++ s.rowsEvents1 R r) (R.rowsBefore r) r u := by
  have hlt := Rect.hasRow_lt hR hd
  have hrows := drawn1_frameRows hlt.le hr hR ha
  have hfault := hrows.runOps_fault hf hlt (if_pos hd) (e := .srcFault)
    (compose1_faults (s := s) (frameAtRow_opl ..) (frameAtRow_srcAdmit ..) (frameAtRow_width ..) hno) []
  rw [List.append_nil, drawn1_zero hR.top, frameAtRow, rowEvents_drawn1 hw hR, rowCr_crInFrame hle] at hfault
  exact ⟨_, hfault, readFaulted_at (b := s.drawn1 R r) rfl rfl rfl rfl rfl rfl rfl⟩

/-- A row composed by an accepted command is that of the latched operands, with no byte in a race yet. -/
theorem accepted_rowAdmitted1 (s : State) (i : Instr) :
    (s.accepted i).rowAdmitted1 = State.rowAdmitted1 { s.latched i with raced := [] } := rowAdmitted1_congr rfl rfl rfl

theorem accepted_rowByte1 (s : State) (i : Instr) :
    (s.accepted i).rowByte1 = State.rowByte1 { s.latched i with raced := [] } := rowByte1_congr rfl rfl rfl rfl rfl

theorem commandList_draw1bpp {s : State} {x y w h src pulse : Word} {R : Rect}
    (hrect : (s.latched (.draw1bpp x y w h src pulse)).rect1 = some R) : commandList (.draw1bpp x y w h src pulse) s =
      some (frame s.height.toNat (drawRow1 (s.accepted (.draw1bpp x y w h src pulse)) R)) := by
  rw [commandList, draw1bppList, hrect]; rfl

end Sys2Proof.Machine

namespace Sys2Proof

open Machine

/-- Settles O26: an EMPTY rectangle has an empty list. -/
theorem emptyDraw1bppIsNoOp : Obligations.EmptyDraw1bppIsNoOp := by
  intro s x y w h src pulse hempty
  have hrect : (s.latched (.draw1bpp x y w h src pulse)).rect1 = none := hempty
  rw [exec_draw1bpp, draw1bppList, hrect, start_nil]
  rfl

/-- Settles O29: no cycles, no list. -/
theorem clearOfNoCyclesIsNoOp : Obligations.ClearOfNoCyclesIsNoOp := by
  intro s cycles hcycles
  have hnone : (s.latched (.clear cycles)).opl.cycles.toInt.toNat = 0 := Int.toNat_of_nonpos hcycles
  rw [exec_clear, clearList, hnone, List.replicate_zero, List.flatten_nil, start_nil]
  rfl

/-- Settles O31, by induction on the cycles: each is two frames of the same size. -/
theorem clearSize : Obligations.ClearSize := by
  intro dmask h len c cr
  induction c generalizing cr with
  | zero => simp [clearEvents]
  | succ c ih =>
    have hframe := clearFrameEvents_size dmask h len
    obtain ⟨hdur, hlen⟩ := ih (crAfterFrame cr)
    simp only [clearEvents_succ, clearPairEvents, duration_append, List.length_append, hframe, hdur, hlen]
    constructor <;> ring

/-- Settles O30: the list is pairs of a dark and a white frame, of which each leaves the next one's start. -/
theorem clearCompletes : Obligations.ClearCompletes := by
  intro s cycles
  dsimp only
  intro hs hq hf hcycles
  obtain ⟨n, hn⟩ : ∃ n, cycles.toInt.toNat = n + 1 := ⟨cycles.toInt.toNat - 1, by omega⟩
  have hops : commandList (.clear cycles) s = some (List.replicate (n + 1)
      (clearFrame (s.accepted (.clear cycles)) 0x00#8 ++ clearFrame (s.accepted (.clear cycles)) 0xFF#8)).flatten := by
    rw [← hn]; rfl
  have hrun := runOps_clearPairs (s := s.accepted (.clear cycles)) hs.width_range.2 hs.height_range.1 hf n
  rw [hn]
  have hruns := exec_runs hq hops (clearEvents s.dmask s.height.toNat s.rowLen1 (n + 1) s.cr) 0 hrun (advance_log ..)
    (advance_raceTick ..)
  simp only [State.over, State.cleared, advance_eq, fillRow, State.accepted, State.latched, latchOperands,
    emitAll_eq] at hruns ⊢
  exact hruns

/-- Settles O27: the list is one frame whose data rows are composed and sent one after another. -/
theorem draw1bppCompletes : Obligations.Draw1bppCompletes := by
  intro s x y w h src pulse R
  dsimp only
  intro hs hq hf hrect ha
  have hR : R.OnPanel s.height.toNat := clip_onPanel hrect
  have hops := commandList_draw1bpp (s := s) (pulse := pulse) (src := src) hrect
  have hadmitted := accepted_rowAdmitted1 s (.draw1bpp x y w h src pulse)
  have hbyte : (s.accepted (.draw1bpp x y w h src pulse)).rowByte1 = State.rowByte1
      { s with opl := { s.opl with x := x, y := y, w := w, h := h, src := src, pulse := pulse }, raced := [] } :=
    accepted_rowByte1 s _
  have hrun := runOps_drawFrame1 (s := s.accepted (.draw1bpp x y w h src pulse)) hs.width_range.2 rfl hf hR
    (by rw [hadmitted]; exact ha)
  rw [drawn1_height (s := s.accepted (.draw1bpp x y w h src pulse)) hR] at hrun
  unfold State.sentBytes1 at hrun ⊢
  rw [hbyte] at hrun
  have hruns := exec_runs hq hops (drawFrameEvents s.dmask s.height.toNat R _ pulse.toNat s.cr) (R.ye - R.ys).toNat hrun
    (advance_log ..) (advance_raceTick ..)
  simp only [State.over, advance_eq, State.accepted, State.latched, latchOperands, emitAll_eq] at hruns ⊢
  rw [hf]
  exact hruns

/-- Settles O28: up to the row that is not admitted the frame runs as it would, and the row's reads halt the core there. -/
theorem draw1bppSourceFault : Obligations.Draw1bppSourceFault := by
  intro s x y w h src pulse R r
  dsimp only
  intro hs hq hf hle hrect hd hno ha
  have hR : R.OnPanel s.height.toNat := clip_onPanel hrect
  have hops := commandList_draw1bpp (s := s) (pulse := pulse) (src := src) hrect
  have hadmitted := accepted_rowAdmitted1 s (.draw1bpp x y w h src pulse)
  have hbyte : (s.accepted (.draw1bpp x y w h src pulse)).rowByte1 = State.rowByte1
      { s with opl := { s.opl with x := x, y := y, w := w, h := h, src := src, pulse := pulse }, raced := [] } :=
    accepted_rowByte1 s _
  obtain ⟨u, hrun, hu⟩ := runOps_drawFrame1_faulted (s := s.accepted (.draw1bpp x y w h src pulse)) hs.width_range.2 rfl
    hf hle hR hd (by rw [hadmitted]; exact hno) (by rw [hadmitted]; exact ha)
  obtain ⟨t, ht, hruns⟩ := exec_runs hq hops _ (R.rowsBefore r + 1) hrun hu.log hu.raceTick
  unfold State.sentBytes1
  rw [← hbyte, Rect.length_filter_hasRow hR, Nat.add_assoc]
  refine ⟨t, u.over, ht, hruns, ?_, hu.pins, hu.cr, hu.fstate, hu.row, rfl, hu.err, hu.halted, hu.errCode, hu.src, hu.rsp⟩
  rw [State.trace, State.trace, show u.over.log = u.log from rfl, hu.log, List.reverse_append, List.reverse_reverse]
  rfl

end Sys2Proof
end

section
/-! PROOFS. The command DRAW_GRAY (spec/45_grayscale_engine.md): its passes, one frame each. -/

namespace Sys2Proof.Machine

/-! ## The LUT and the output row of a pass (spec/45_grayscale_engine.md R255 to R265) -/

/-- The state with the LUT of pass p. -/
def State.carvedFor (s : State) (p : Nat) : State := carve (carveLevel p s.opl.mode) (resetLut s.opl.mode s)

/-- An output byte asks for the lower scratch byte alone: the LUT's entries depend on the two lowest nibbles of the
index (R259). -/
theorem entry_lookup_of_carved {s : State} {m : BitVec 2} {level j : Nat} (hw : s.width.toNat ≤ Config.maxWidth)
    (hlut : s.lut = (carve level (resetLut m s)).lut) (hj : j < s.rowLenOut) :
    entry (lookup s).outbuf j = lutBase m
      &&& ~~~(if (entry s.rowbuf4 (2 * j)).toNat % 16 = level then 0x03#8 else 0x00#8)
      &&& ~~~(if (entry s.rowbuf4 (2 * j)).toNat / 16 = level then 0x0C#8 else 0x00#8) := by
  rw [entry_lookup hw hj, hlut, lutClosedForm s m level _ (lutIndex_lt s j), lutIndex_mod, lutIndex_div_mod]

/-- Composing a row and looking it up, in a state with the pass's LUT: OUTBUF takes the row's bytes in closed form. -/
theorem lookup_compose4 {s t : State} {R : Rect} {p r : Nat} (hw : s.width.toNat ≤ Config.maxWidth)
    (hlut : s.lut = (s.carvedFor p).lut) (h : compose4 R r s = .ok t) :
    lookup t = { t with outbuf := overwrite s.rowLenOut (s.grayByte R p r) s.outbuf } := by
  have hcarved : s.carvedFor p = s :=
    calc s.carvedFor p = { s with lut := (s.carvedFor p).lut } := rfl
      _ = s := by rw [← hlut]
  have ht := eq_of_compose4_ok h
  have hbytes : ∀ j < s.rowLenOut, entry t.lut (t.lutIndex j).toNat = s.grayByte R p r j := by
    intro j hj
    have hwidth : t.width = s.width := by rw [ht]
    have hj' : j < t.rowLenOut := by simpa only [State.rowLenOut, State.rowLen4, hwidth] using hj
    rw [← entry_lookup (by rwa [hwidth]) hj']
    exact outputByteClosedForm s t R p r j hw (by rw [State.carvedFor] at hcarved; rwa [hcarved]) hj
  have hout : lookup t = { t with
      outbuf := overwrite s.rowLenOut (fun j => entry t.lut (t.lutIndex j).toNat) s.outbuf } := by
    rw [lookup, ht]; rfl
  rw [hout, overwrite_congr _ hbytes]

/-! ## A pass of DRAW_GRAY (R262, R266) -/

/-- The state before row operation k of pass p: ROWBUF4 and OUTBUF hold the last data row, each data row has been read. -/
def State.drawn4 (s : State) (R : Rect) (p k : Nat) : State :=
  { s with
    rowbuf4 := if R.rowsBefore k = 0 then s.rowbuf4 else overwrite s.rowLen4 (s.rowByte4 R (R.lastBefore k)) s.rowbuf4
    outbuf := if R.rowsBefore k = 0 then s.outbuf
      else overwrite s.rowLenOut (s.grayByte R p (R.lastBefore k)) s.outbuf
    raceTick := s.raceTick + R.rowsBefore k }

theorem grayByte_congr {s t : State} (ho : t.opl = s.opl) (hs : t.src = s.src) (ha : t.srcAdmit = s.srcAdmit)
    (hr : s.raced = []) (hr' : t.raced = []) : t.grayByte = s.grayByte := by
  funext R p r j
  simp only [State.grayByte, pixel4_congr ho hs ha hr hr', ho]

section
variable {s : State} {R : Rect} {p k : Nat}

theorem drawn4_zero (htop : 0 ≤ R.ys) : s.drawn4 R p 0 = s := by
  simp [State.drawn4, R.rowsBefore_zero htop]

theorem drawn4_succ_data (hR : R.OnPanel s.height.toNat) (hk : R.hasRow k = true) : s.drawn4 R p (k + 1) =
    { s with
      rowbuf4 := overwrite s.rowLen4 (s.rowByte4 R k) s.rowbuf4
      outbuf := overwrite s.rowLenOut (s.grayByte R p k) s.outbuf
      raceTick := s.raceTick + R.rowsBefore k + 1 } := by
  simp [State.drawn4, Rect.rowsBefore_succ_data hR hk, Rect.lastBefore_succ_data hR hk, Nat.add_assoc]

theorem drawn4_succ_skip (hR : R.OnPanel s.height.toNat) (hk : R.hasRow k = false) :
    s.drawn4 R p (k + 1) = s.drawn4 R p k := by
  simp only [State.drawn4, Rect.rowsBefore_succ_skip hR hk]
  split
  · rfl
  · rename_i hpos
    rw [Rect.lastBefore_succ_skip hR hk hpos]

/-- Whatever row was there before, the buffers take the new row. -/
theorem overwrite_drawn4 (f g : Nat → Byte) :
    overwrite s.rowLen4 f (s.drawn4 R p k).rowbuf4 = overwrite s.rowLen4 f s.rowbuf4 ∧
      overwrite s.rowLenOut g (s.drawn4 R p k).outbuf = overwrite s.rowLenOut g s.outbuf := by
  simp only [State.drawn4]
  split
  · exact ⟨rfl, rfl⟩
  · exact ⟨overwrite_overwrite .., overwrite_overwrite ..⟩

/-- The reads of an admitted data row and its look-up fill both buffers (R262, R265). -/
theorem runOps_grayData (hw : s.width.toNat ≤ Config.maxWidth) (hr : s.raced = [])
    (hlut : s.lut = (s.carvedFor p).lut) (c : BitVec 8) (es : List Event) (ha : s.rowAdmitted4 R k = true)
    (hR : R.OnPanel s.height.toNat) (hk : R.hasRow k = true) (rest : List MicroOp) :
    runOps (.silent (.compose4 R k) :: .silent .lookup :: rest) (((s.drawn4 R p k).atRow k).advance c es) =
      runOps rest (((s.drawn4 R p (k + 1)).atRow k).advance c es) := by
  generalize hu : ({ ((s.drawn4 R p k).atRow k).advance c es with
    raceTick := (((s.drawn4 R p k).atRow k).advance c es).raceTick + 1 } : State) = u
  have hadmitted : u.rowAdmitted4 = s.rowAdmitted4 := rowAdmitted4_congr (by rw [← hu]; rfl) (by rw [← hu]; rfl)
    (by rw [← hu]; rfl)
  have hbyte : u.rowByte4 = s.rowByte4 := rowByte4_congr (by rw [← hu]; rfl) (by rw [← hu]; rfl)
    (by rw [← hu]; rfl) hr (by rw [← hu]; exact hr)
  have hgray : u.grayByte = s.grayByte := grayByte_congr (by rw [← hu]; rfl) (by rw [← hu]; rfl)
    (by rw [← hu]; rfl) hr (by rw [← hu]; exact hr)
  have hlen : u.rowLen4 = s.rowLen4 := by rw [← hu]; rfl
  have hlenOut : u.rowLenOut = s.rowLenOut := by rw [← hu]; rfl
  have hbuf : u.rowbuf4 = (s.drawn4 R p k).rowbuf4 := by rw [← hu]; rfl
  have hout : overwrite s.rowLenOut (s.grayByte R p k) u.outbuf =
      overwrite s.rowLenOut (s.grayByte R p k) s.outbuf := by
    rw [← hu]; exact (overwrite_drawn4 (fun _ => 0) _).2
  have hcompose : compose4 R k u = .ok { u with rowbuf4 := overwrite s.rowLen4 (s.rowByte4 R k) s.rowbuf4 } := by
    simp only [compose4, hadmitted, ha, if_true, hbyte, hlen, hbuf, (overwrite_drawn4 _ (fun _ => 0)).1]
  have hlookup := lookup_compose4 (p := p) (by rw [← hu]; exact hw) (by rw [← hu]; exact hlut) hcompose
  rw [hlenOut, hgray, hout] at hlookup
  rw [runOps_read_ok (by rw [hu]; exact hcompose), runOps_silent_ok (i := .lookup) (congrArg Except.ok hlookup),
    drawn4_succ_data hR hk, ← hu]
  rfl

theorem drawn4_frameRows {m : Nat} (hm : m ≤ s.height.toNat) (hw : s.width.toNat ≤ Config.maxWidth) (hr : s.raced = [])
    (hlut : s.lut = (s.carvedFor p).lut) (hR : R.OnPanel s.height.toNat)
    (ha : ∀ q < m, R.hasRow q = true → s.rowAdmitted4 R q = true) :
    FrameRows m s.dmask .outbuf s.rowLenOut (contrastTime s.opl.mode p) R.hasRow (grayRow s R p) (s.drawn4 R p) where
  fits _ := hm
  data k hk hd c es rest := by
    rw [grayRow, if_pos hd, List.cons_append, List.cons_append, runOps_grayData hw hr hlut c es (ha k hk hd) hR hd]
  skip k _ hd := ⟨if_neg (by simp [hd]), drawn4_succ_skip hR hd⟩

/-- The events of row r of a pass. -/
theorem rowEvents_drawn4 (hw : s.width.toNat ≤ Config.maxWidth) (hR : R.OnPanel s.height.toNat) (c : BitVec 8) :
    rowEvents s.dmask .outbuf s.rowLenOut (contrastTime s.opl.mode p) R.hasRow (s.drawn4 R p) c = fun r =>
      if R.hasRow r then outputRowEvents s.dmask c (s.sentBytes4 R p r) (contrastTime s.opl.mode p)
      else skipRowEvents := by
  funext r
  unfold rowEvents
  split
  · rename_i hd
    have hsent : (List.range s.rowLenOut).map ((s.drawn4 R p (r + 1)).rowByte .outbuf) = s.sentBytes4 R p r := by
      rw [drawn4_succ_data hR hd]
      exact map_entry_overwrite _ _ (rowLenOut_le hw)
    rw [hsent]
  · rfl

theorem drawn4_height (hR : R.OnPanel s.height.toNat) : s.drawn4 R p s.height.toNat =
    { s with
      rowbuf4 := overwrite s.rowLen4 (s.rowByte4 R (R.ye.toNat - 1)) s.rowbuf4
      outbuf := overwrite s.rowLenOut (s.grayByte R p (R.ye.toNat - 1)) s.outbuf
      raceTick := s.raceTick + (R.ye - R.ys).toNat } := by
  rw [State.drawn4, if_neg (Rect.rowsBefore_height_ne_zero hR), if_neg (Rect.rowsBefore_height_ne_zero hR),
    Rect.rowsBefore_height hR, Rect.lastBefore_height hR]

end

/-! ## The passes of DRAW_GRAY (R266, R267) -/

/-- The state after n passes, of which the last is pass p: the events, CR, the LUT of that pass and the last data row in
both buffers. -/
def State.grayed (s : State) (R : Rect) (p n : Nat) (c : BitVec 8) (es : List Event) : State :=
  State.advance c es { s with
    rowbuf4 := overwrite s.rowLen4 (s.rowByte4 R (R.ye.toNat - 1)) s.rowbuf4
    outbuf := overwrite s.rowLenOut (s.grayByte R p (R.ye.toNat - 1)) s.outbuf
    lut := (s.carvedFor p).lut
    raceTick := s.raceTick + n * (R.ye - R.ys).toNat
    row := 0#10 }

/-- The events of pass p. -/
def grayPassEvents (s : State) (R : Rect) (p : Nat) (cr : BitVec 8) : List Event :=
  drawFrameEvents s.dmask s.height.toNat R (s.sentBytes4 R p) (contrastTime s.opl.mode p) cr ++ [.wait 5000]

theorem grayEvents_succ (s : State) (R : Rect) (n p : Nat) (cr : BitVec 8) :
    grayEvents s R (n + 1) p cr = grayPassEvents s R p cr ++ grayEvents s R n (p + 1) (crAfterFrame cr) := rfl

/-- A pass sends the same bytes from a state with the same operands and source memory. -/
theorem grayEvents_congr {s t : State} {R : Rect} (hg : t.grayByte = s.grayByte) (ho : t.opl = s.opl)
    (hd : t.dmask = s.dmask) (hh : t.height = s.height) (hl : t.rowLenOut = s.rowLenOut) (n p : Nat) (cr : BitVec 8) :
    grayEvents t R n p cr = grayEvents s R n p cr := by
  have hsent (p : Nat) : t.sentBytes4 R p = s.sentBytes4 R p := by
    funext r
    rw [State.sentBytes4, State.sentBytes4, hg, hl]
  induction n generalizing p cr with
  | zero => rfl
  | succ n ih => simp only [grayEvents_succ, grayPassEvents, hsent, ho, hd, hh, ih]

/-- The list of a pass asks for nothing but the operands and the panel. -/
theorem grayPass_congr {s t : State} {R : Rect} (ho : t.opl = s.opl) (hd : t.dmask = s.dmask)
    (hh : t.height = s.height) (hl : t.rowLenOut = s.rowLenOut) : grayPass t R = grayPass s R := by
  funext p
  have hrow : grayRow t R p = grayRow s R p := by
    funext r
    rw [grayRow, grayRow, ho, hd, hl]
  rw [grayPass, grayPass, hrow, ho, hh]

section
variable {s : State} {R : Rect} {p n : Nat}

theorem grayed_cr (c : BitVec 8) (es : List Event) : (s.grayed R p n c es).cr = c := rfl
theorem grayed_width (c : BitVec 8) (es : List Event) : (s.grayed R p n c es).width = s.width := rfl
theorem grayed_height (c : BitVec 8) (es : List Event) : (s.grayed R p n c es).height = s.height := rfl
theorem grayed_fstate (c : BitVec 8) (es : List Event) : (s.grayed R p n c es).fstate = s.fstate := rfl
theorem grayed_raced (c : BitVec 8) (es : List Event) : (s.grayed R p n c es).raced = s.raced := rfl

theorem rowAdmitted4_grayed (c : BitVec 8) (es : List Event) : (s.grayed R p n c es).rowAdmitted4 = s.rowAdmitted4 :=
  rowAdmitted4_congr rfl rfl rfl

theorem grayPass_grayed (c : BitVec 8) (es : List Event) : grayPass (s.grayed R p n c es) R = grayPass s R :=
  grayPass_congr rfl rfl rfl rfl

theorem grayByte_grayed (hr : s.raced = []) (c : BitVec 8) (es : List Event) :
    (s.grayed R p n c es).grayByte = s.grayByte := grayByte_congr rfl rfl rfl hr hr

theorem rowByte4_grayed (hr : s.raced = []) (c : BitVec 8) (es : List Event) :
    (s.grayed R p n c es).rowByte4 = s.rowByte4 := rowByte4_congr rfl rfl rfl hr hr

theorem grayEvents_grayed (hr : s.raced = []) (c : BitVec 8) (es : List Event) (n' p' : Nat) (cr : BitVec 8) :
    grayEvents (s.grayed R p n c es) R n' p' cr = grayEvents s R n' p' cr :=
  grayEvents_congr (grayByte_grayed hr c es) rfl rfl rfl rfl n' p' cr

/-- Later passes write the buffers again. -/
theorem grayed_grayed (hr : s.raced = []) (p' n' : Nat) (c c' : BitVec 8) (es es' : List Event) :
    (s.grayed R p n c es).grayed R p' n' c' es' = s.grayed R p' (n + n') c' (es ++ es') := by
  have hgray := grayByte_grayed (R := R) (p := p) (n := n) hr c es
  have hrow := rowByte4_grayed (R := R) (p := p) (n := n) hr c es
  have h4 (f g : Nat → Byte) : overwrite s.rowLen4 f (overwrite s.rowLen4 g s.rowbuf4) =
    overwrite s.rowLen4 f s.rowbuf4 := overwrite_overwrite ..
  have hout (f g : Nat → Byte) : overwrite s.rowLenOut f (overwrite s.rowLenOut g s.outbuf) =
    overwrite s.rowLenOut f s.outbuf := overwrite_overwrite ..
  rw [State.grayed, hgray, hrow]
  have hlen4 : (s.grayed R p n c es).rowLen4 = s.rowLen4 := rfl
  have hlenOut : (s.grayed R p n c es).rowLenOut = s.rowLenOut := rfl
  have hcarved : ((s.grayed R p n c es).carvedFor p').lut = (s.carvedFor p').lut := rfl
  rw [hlen4, hlenOut, hcarved]
  simp only [State.grayed, advance_eq, h4, hout, List.reverse_append, List.append_assoc, Pins.afterAll_append,
    Nat.add_mul, Nat.add_assoc]

/-- A pass: one frame with the composed and looked-up rows, and a settle (R266). -/
theorem runOps_grayPass (hw : s.width.toNat ≤ Config.maxWidth) (hr : s.raced = []) (hf : s.fstate = .idle)
    (hR : R.OnPanel s.height.toNat) (ha : ∀ q, R.hasRow q = true → s.rowAdmitted4 R q = true) (rest : List MicroOp) :
    runOps (grayPass s R p ++ rest) s =
      runOps rest (s.grayed R p 1 (crAfterFrame s.cr) (grayPassEvents s R p s.cr)) := by
  obtain ⟨hfirst, hlt⟩ := Rect.hasRow_first hR
  have hadmitted : (s.carvedFor p).rowAdmitted4 = s.rowAdmitted4 := rowAdmitted4_congr rfl rfl rfl
  have hgray : (s.carvedFor p).grayByte = s.grayByte := grayByte_congr rfl rfl rfl hr hr
  have hrow : (s.carvedFor p).rowByte4 = s.rowByte4 := rowByte4_congr rfl rfl rfl hr hr
  have hrows := drawn4_frameRows (s := s.carvedFor p) (p := p) le_rfl hw hr rfl hR
    fun q _ hq => by rw [hadmitted]; exact ha q hq
  have hframe := hrows.runOps_frame (fun _ => rfl) hf hfirst hlt (waitFor 5000 ++ rest)
  rw [drawn4_zero hR.top, rowEvents_drawn4 (s := s.carvedFor p) hw hR, drawn4_height (s := s.carvedFor p) hR] at hframe
  unfold State.sentBytes4 at hframe
  rw [hgray, hrow] at hframe
  rw [grayPass, List.cons_append, List.cons_append, List.append_assoc, runOps_silent_ok (t := resetLut s.opl.mode s) rfl,
    runOps_silent_ok (t := s.carvedFor p) rfl]
  refine hframe.trans ?_
  rw [runOps_waitFor, advance_cr, advance_advance, State.grayed, Nat.one_mul, ← hf]
  rfl

/-- The passes from pass p on, at least one. -/
theorem runOps_grayPasses (hw : s.width.toNat ≤ Config.maxWidth) (hr : s.raced = []) (hf : s.fstate = .idle)
    (hR : R.OnPanel s.height.toNat) (ha : ∀ q, R.hasRow q = true → s.rowAdmitted4 R q = true) :
    runOps ((List.range' p (n + 1)).flatMap (grayPass s R)) s =
      s.grayed R (p + n) (n + 1) (crAfterFrame s.cr) (grayEvents s R (n + 1) p s.cr) := by
  induction n generalizing s p with
  | zero =>
    rw [List.range'_one, List.flatMap_singleton, ← List.append_nil (grayPass s R p), runOps_grayPass hw hr hf hR ha,
      runOps_nil, grayEvents_succ, grayEvents, List.append_nil]
    rfl
  | succ n ih =>
    have hnext := ih (s := s.grayed R p 1 (crAfterFrame s.cr) (grayPassEvents s R p s.cr)) (p := p + 1)
      (by rwa [grayed_width]) (by rwa [grayed_raced]) (by rwa [grayed_fstate]) (by rwa [grayed_height])
      (by rwa [rowAdmitted4_grayed])
    rw [grayPass_grayed, grayed_cr, grayEvents_grayed hr, grayed_grayed hr, crAfterFrame_crAfterFrame,
      Nat.add_comm 1 (n + 1), Nat.add_assoc p 1 n, Nat.add_comm 1 n] at hnext
    rw [List.range'_succ, List.flatMap_cons, runOps_grayPass hw hr hf hR ha, hnext, grayEvents_succ s R (n + 1)]

end

/-! ## How many events the passes have and how long they last (R268) -/

/-- A pass is its frame and a settle of 5 ms. -/
theorem grayPassEvents_size (s : State) (R : Rect) (p : Nat) (cr : BitVec 8) (hp : 1 ≤ contrastTime s.opl.mode p) :
    let h := s.height.toNat
    let d := ((List.range h).filter R.hasRow).length
    duration (grayPassEvents s R p cr) = 6038 + 50 * (h - d) + 52 * d + d * contrastTime s.opl.mode p ∧
      (grayPassEvents s R p cr).length =
        180 + 4 * (h - d) + d * (60 + s.rowLenOut * (popcount s.dmask + 2)) + 1 := by
  intro h d
  have hbytes : ∀ r, (s.sentBytes4 R p r).length = s.rowLenOut := fun r => by simp [State.sentBytes4]
  obtain ⟨hdur, hlen⟩ := frameSize s.dmask h s.rowLenOut (contrastTime s.opl.mode p) R _ cr hbytes
  rw [if_pos hp] at hlen
  simp only [grayPassEvents, duration_append, List.length_append, duration_cons, duration_nil, List.length_singleton,
    Event.micros]
  rw [hdur, hlen]
  constructor <;> ring

/-- Passes p, p + 1, …: all but the contrast times is the same in each. -/
theorem grayEvents_size (s : State) (R : Rect) (n p : Nat) (cr : BitVec 8)
    (hp : ∀ q ∈ List.range' p n, 1 ≤ contrastTime s.opl.mode q) :
    let h := s.height.toNat
    let d := ((List.range h).filter R.hasRow).length
    duration (grayEvents s R n p cr) =
        n * (6038 + 50 * (h - d) + 52 * d) + d * ((List.range' p n).map (contrastTime s.opl.mode)).sum ∧
      (grayEvents s R n p cr).length =
        n * (180 + 4 * (h - d) + d * (60 + s.rowLenOut * (popcount s.dmask + 2)) + 1) := by
  intro h d
  induction n generalizing p cr with
  | zero => simp [grayEvents]
  | succ n ih =>
    rw [List.range'_succ, List.forall_mem_cons] at hp
    obtain ⟨hdur, hlen⟩ := ih (p + 1) (crAfterFrame cr) hp.2
    obtain ⟨hpass, hpassLen⟩ := grayPassEvents_size s R p cr hp.1
    rw [grayEvents_succ, duration_append, List.length_append, hdur, hlen, hpass, hpassLen, List.range'_succ,
      List.map_cons, List.sum_cons]
    constructor <;> ring

/-- The contrast tables (spec/10_state.md R47) as a mode's passes read them. -/
theorem map_contrastTime (m : BitVec 2) : (List.range 15).map (contrastTime m) =
    if m = 2#2 then [10, 10, 8, 8, 8, 8, 8, 10, 10, 15, 15, 20, 20, 100, 300]
    else [30, 30, 20, 20, 30, 30, 30, 40, 40, 50, 50, 50, 100, 200, 300] := by
  revert m; decide

/-! ## A pass whose reads fault (spec/60_exceptions.md R321, R323) -/

/-- The events of a pass's rows before row r. -/
def State.rowsEvents4 (s : State) (R : Rect) (p r : Nat) : List Event :=
  (List.range r).flatMap fun q => if R.hasRow q then
    outputRowEvents s.dmask (crInFrame s.cr) (s.sentBytes4 R p q) (contrastTime s.opl.mode p) else skipRowEvents

/-- The reads of a row fault where the row was not admitted when the command began. -/
theorem compose4_faults {s b : State} {R : Rect} {r : Nat} (ho : b.opl = s.opl) (ha : b.srcAdmit = s.srcAdmit)
    (hw : b.width = s.width) (hno : s.rowAdmitted4 R r = false) :
    runSilent (.compose4 R r) (countRead (.compose4 R r) b) = .error .srcFault := by
  have hadmitted : (countRead (.compose4 R r) b).rowAdmitted4 = s.rowAdmitted4 := rowAdmitted4_congr ho ha hw
  rw [runSilent, compose4, hadmitted, hno]; rfl

/-- A pass up to the first data row that is not admitted. -/
theorem runOps_grayPass_faulted {s : State} {R : Rect} {p r : Nat} (hw : s.width.toNat ≤ Config.maxWidth)
    (hr : s.raced = []) (hf : s.fstate = .idle) (hle : s.latchEnable = false) (hR : R.OnPanel s.height.toNat)
    (hd : R.hasRow r = true) (hno : s.rowAdmitted4 R r = false)
    (ha : ∀ q < r, R.hasRow q = true → s.rowAdmitted4 R q = true) (rest : List MicroOp) :
    ∃ u, runOps (grayPass s R p ++ rest) s = u ∧
      ReadFaulted s (startFrameEvents s.cr ++ s.rowsEvents4 R p r) (R.rowsBefore r) r u ∧
      u.lut = (s.carvedFor p).lut := by
  have hlt := Rect.hasRow_lt hR hd
  have hadmitted : (s.carvedFor p).rowAdmitted4 = s.rowAdmitted4 := rowAdmitted4_congr rfl rfl rfl
  have hgray : (s.carvedFor p).grayByte = s.grayByte := grayByte_congr rfl rfl rfl hr hr
  have hrows := drawn4_frameRows (s := s.carvedFor p) (p := p) hlt.le hw hr rfl hR
    fun q hq hdq => by rw [hadmitted]; exact ha q hq hdq
  have hfault := hrows.runOps_fault hf hlt (if_pos hd) (e := .srcFault)
    (compose4_faults (s := s) (frameAtRow_opl ..) (frameAtRow_srcAdmit ..) (frameAtRow_width ..) hno)
    (waitFor 5000 ++ rest)
  rw [drawn4_zero hR.top, frameAtRow, rowEvents_drawn4 (s := s.carvedFor p) hw hR,
    rowCr_crInFrame (s := s.carvedFor p) hle] at hfault
  unfold State.sentBytes4 at hfault
  rw [hgray] at hfault
  rw [grayPass, List.cons_append, List.cons_append, List.append_assoc, runOps_silent_ok (t := resetLut s.opl.mode s) rfl,
    runOps_silent_ok (t := s.carvedFor p) rfl]
  refine ⟨_, hfault, readFaulted_at (s := s) (b := (s.carvedFor p).drawn4 R p r) rfl rfl rfl rfl rfl rfl rfl, ?_⟩
  rw [takeFaultAt_of_reads rfl, takeHaltingFault_lut, halfCompose_lut]
  rfl

/-! ## The command (R267) -/

theorem exec_drawGray (x y w h src mode : Word) (s : State) : exec (.drawGray x y w h src mode) s =
    .next (start (drawGrayList (s.latched (.drawGray x y w h src mode))) (s.latched (.drawGray x y w h src mode))) :=
  rfl

theorem commandList_drawGray {s : State} {x y w h src mode : Word} {R : Rect}
    (hrect : (s.latched (.drawGray x y w h src mode)).rect4 = some R) : commandList (.drawGray x y w h src mode) s =
      some ((List.range' 0 15).flatMap (grayPass (s.accepted (.drawGray x y w h src mode)) R)) := by
  rw [commandList, drawGrayList, hrect]; rfl

theorem accepted_rowAdmitted4 (s : State) (i : Instr) :
    (s.accepted i).rowAdmitted4 = State.rowAdmitted4 { s.latched i with raced := [] } := rowAdmitted4_congr rfl rfl rfl

theorem accepted_rowByte4 (s : State) (i : Instr) :
    (s.accepted i).rowByte4 = State.rowByte4 { s.latched i with raced := [] } := rowByte4_congr rfl rfl rfl rfl rfl

theorem accepted_grayByte (s : State) (i : Instr) :
    (s.accepted i).grayByte = State.grayByte { s.latched i with raced := [] } := grayByte_congr rfl rfl rfl rfl rfl

end Sys2Proof.Machine

namespace Sys2Proof

open Machine

/-- Settles O34: an output byte asks for scratch byte 2j alone. -/
theorem upperColumnsNeverMatter : Obligations.UpperColumnsNeverMatter := by
  intro s s' m level j hw hwidth hlut hlut' hj hbyte
  have hj' : j < s'.rowLenOut := by simpa only [State.rowLenOut, State.rowLen4, hwidth] using hj
  rw [entry_lookup_of_carved hw hlut hj, entry_lookup_of_carved (hwidth ▸ hw) (hlut'.trans hlut) hj', hbyte]

/-- Settles O35: the level of a pass counts up in the inverted modes and down in the others. -/
theorem passThatCarves : Obligations.PassThatCarves := by
  intro m v p hv hp
  constructor
  · intro hm
    have hinv : inverted m = false := by rcases hm with rfl | rfl <;> rfl
    refine ⟨hinv, by rw [lutBase, hinv]; rfl, ?_⟩
    rw [carveLevel, hinv, if_neg Bool.false_ne_true]
    omega
  · intro hm
    have hinv : inverted m = true := by rcases hm with rfl | rfl <;> rfl
    refine ⟨hinv, by rw [lutBase, hinv]; rfl, ?_⟩
    rw [carveLevel, hinv, if_pos rfl]
    omega

/-- Settles O36: an EMPTY rectangle has an empty list. -/
theorem emptyDrawGrayIsNoOp : Obligations.EmptyDrawGrayIsNoOp := by
  intro s x y w h src mode hempty
  have hrect : (s.latched (.drawGray x y w h src mode)).rect4 = none := hempty
  rw [exec_drawGray, drawGrayList, hrect, start_nil]
  rfl

/-- Settles O37: the list is 15 passes, each of which leaves the next one's start. -/
theorem drawGrayCompletes : Obligations.DrawGrayCompletes := by
  intro s x y w h src mode R
  dsimp only
  intro hs hq hf hrect ha
  have hR : R.OnPanel s.height.toNat := grayRect_onPanel hrect
  have hops := commandList_drawGray (s := s) (src := src) hrect
  have hadmitted := accepted_rowAdmitted4 s (.drawGray x y w h src mode)
  have hbyte := accepted_rowByte4 s (.drawGray x y w h src mode)
  have hgray := accepted_grayByte s (.drawGray x y w h src mode)
  have hrun := runOps_grayPasses (s := s.accepted (.drawGray x y w h src mode)) (p := 0) (n := 14) hs.width_range.2 rfl
    hf hR (by rw [hadmitted]; exact ha)
  rw [grayEvents_congr (s := { s.latched (.drawGray x y w h src mode) with raced := [] }) hgray rfl rfl rfl rfl,
    State.grayed, hbyte, hgray] at hrun
  have hruns := exec_runs hq hops _ (15 * (R.ye - R.ys).toNat) hrun (advance_log ..) (advance_raceTick ..)
  simp only [State.over, advance_eq, State.accepted, State.latched, latchOperands, emitAll_eq] at hruns ⊢
  exact hruns

/-- Settles O38: pass 0 runs as it would up to the row that is not admitted, whose reads halt the core there; and
wherever a row is about to be read of which a byte is no longer admitted, that is what the core's move does. -/
theorem drawGraySourceFault : Obligations.DrawGraySourceFault := by
  refine ⟨?_, ?_⟩
  · intro s x y w h src mode R r
    dsimp only
    intro hs hq hf hle hrect hd hno ha
    have hR : R.OnPanel s.height.toNat := grayRect_onPanel hrect
    have hops := commandList_drawGray (s := s) (src := src) hrect
    have hadmitted := accepted_rowAdmitted4 s (.drawGray x y w h src mode)
    have hgray : (s.accepted (.drawGray x y w h src mode)).grayByte = State.grayByte
        { s with opl := { s.opl with x := x, y := y, w := w, h := h, src := src, mode := mode.setWidth 2 }, raced := [] } :=
      accepted_grayByte s _
    obtain ⟨u, hrun, hu, hlut⟩ := runOps_grayPass_faulted (s := s.accepted (.drawGray x y w h src mode)) (p := 0)
      hs.width_range.2 rfl hf hle hR hd (by rw [hadmitted]; exact hno) (by rw [hadmitted]; exact ha)
      ((List.range' 1 14).flatMap (grayPass (s.accepted (.drawGray x y w h src mode)) R))
    obtain ⟨t, ht, hruns⟩ := exec_runs hq hops _ (R.rowsBefore r + 1) hrun hu.log hu.raceTick
    unfold State.sentBytes4
    rw [← hgray, Rect.length_filter_hasRow hR, Nat.add_assoc]
    refine ⟨t, u.over, ht, hruns, ?_, hu.pins, hu.cr, hu.fstate, hu.row, rfl, hu.err, hu.halted, hu.errCode, hu.src,
      hu.rsp, hlut⟩
    rw [State.trace, State.trace, show u.over.log = u.log from rfl, hu.log, List.reverse_append, List.reverse_reverse]
    rfl
  · intro s R r regions rest acts hb hstop hpending hin htodo hno
    have hmemOk : step s = .next { s with srcAdmit := regions, inbox := .core :: acts } := by
      rw [step, move, hin]; rfl
    have hcore : step { s with srcAdmit := regions, inbox := .core :: acts } =
        afterMove (performNext { s with srcAdmit := regions, inbox := acts }) := if_pos hb
    have hfault := performNext_of_reads (s := { s with srcAdmit := regions, inbox := acts }) htodo rfl
      (by rw [State.readsAdmitted, htodo]; exact hno)
    rw [hfault] at hcore
    have hhalted := hcore.trans (afterMove_quiet hstop hpending)
    rw [run_succ_of_step hmemOk, run_succ_of_step hhalted]
    rfl

/-- Settles O39, by induction on the passes. -/
theorem drawGraySize : Obligations.DrawGraySize := by
  intro s R cr h d
  have hpos : ∀ m : BitVec 2, ∀ q ∈ List.range' 0 15, 1 ≤ contrastTime m q := by decide
  have hsum : ((List.range' 0 15).map (contrastTime s.opl.mode)).sum = if s.opl.mode = 2#2 then 550 else 1020 := by
    rw [← List.range_eq_range', map_contrastTime]
    split <;> rfl
  obtain ⟨hdur, hlen⟩ := grayEvents_size s R 15 0 cr (hpos s.opl.mode)
  refine ⟨map_contrastTime, ?_, hlen⟩
  rw [hdur, hsum]
  ring

end Sys2Proof
end

section
/-! PROOFS. The host interface (spec/46_host_interface.md) and the halted core (spec/60_exceptions.md section 3): what
the port does with a word, how a held word reaches the decoder, and how a preemption runs POWER_OFF_ALL. -/

namespace Sys2Proof.Machine

/-! ## A word at the decoder (spec/30_encoding.md R96, spec/60_exceptions.md R322, R326) -/

theorem feedDecoder_of_incomplete {s : State} {w : Word} (h : decode (s.packet ++ [w]) = .incomplete) :
    feedDecoder w s = .next { s with packet := s.packet ++ [w] } := by
  rw [feedDecoder, h]

theorem feedDecoder_of_accept {s : State} {w : Word} {i : Instr} {more : List Word}
    (h : decode (s.packet ++ [w]) = .accept i more) : feedDecoder w s = runPacket i { s with packet := more } := by
  rw [feedDecoder, h]

theorem feedDecoder_of_refused {s : State} {w : Word} {e : DecodeError} {more : List Word}
    (h : decode (s.packet ++ [w]) = .refuse e more) :
    feedDecoder w s = .next (refusePacket e { s with packet := more }) := by
  rw [feedDecoder, h]

theorem runPacket_of_unhalted {s : State} (hh : s.halted = false) (i : Instr) : runPacket i s = exec i s :=
  if_neg fun h => Bool.false_ne_true (hh.symm.trans h.1)

theorem runPacket_powerOffAll (s : State) : runPacket .powerOffAll s = exec .powerOffAll s :=
  if_neg fun h => h.2 rfl

theorem runPacket_of_halted {s : State} (hh : s.halted = true) {i : Instr} (hi : i ≠ .powerOffAll) :
    runPacket i s = .next s := if_pos ⟨hh, hi⟩

/-- What word 0 of a packet does. -/
theorem feedDecoder_word_zero {s : State} (hp : s.packet = []) (w : Word) :
    (decode [w] = .incomplete → feedDecoder w s = .next { s with packet := [w] }) ∧
    (∀ i, decode [w] = .accept i [] →
      feedDecoder w s = if s.halted = true ∧ i ≠ .powerOffAll then .next s else exec i s) ∧
    (∀ e, decode [w] = .refuse e [] →
      feedDecoder w s = .next (if s.halted then s else takeRefusal (refusalCode e) s)) := by
  have hkept : { s with packet := [] } = s := by rw [← hp]
  have hword : s.packet ++ [w] = [w] := by rw [hp]; rfl
  refine ⟨fun h => ?_, fun i h => ?_, fun e h => ?_⟩
  · rw [feedDecoder_of_incomplete (by rw [hword, h]), hword]
  · rw [feedDecoder_of_accept (by rw [hword, h]), hkept, runPacket]
  · rw [feedDecoder_of_refused (by rw [hword, h]), hkept, refusePacket]

/-! ## The schedule: the core's own moves leave it alone -/

theorem start_inbox (ops : List MicroOp) (s : State) : (start ops s).inbox = s.inbox := by
  rw [start, finish_inbox, settle_inbox]

theorem takeFaultAt_inbox (c : ErrCode) (i : Silent) (s : State) : (takeFaultAt c i s).inbox = s.inbox := by
  obtain ⟨_, _, _, h⟩ := takeFaultAt_shape c i s
  rw [h]; rfl

theorem performNext_inbox (s : State) : (performNext s).inbox = s.inbox := by
  obtain ⟨d, rest, -, h⟩ | ⟨i, rest, t, -, hok, h⟩ | ⟨i, rest, c, -, -, h⟩ | ⟨-, h⟩ := performNext_cases s <;> rw [h]
  · rw [finish_inbox, settle_inbox]; rfl
  · obtain ⟨n, hn⟩ := countRead_shape i s
    have hkept : t.inbox = (countRead i s).inbox := (congrArg State.inbox (runSilent_ok hok).1 :)
    rw [finish_inbox, settle_inbox, hkept, hn]
  · exact takeFaultAt_inbox c i s
  · exact finish_inbox s

theorem preempted_inbox (s : State) : (start powerOffAllList (cutShort (readFault s))).inbox = s.inbox := by
  rw [start_inbox, cutShort_eq]
  obtain h | ⟨i, _, c, -, -, h⟩ := readFault_cases s <;> rw [h]
  · rfl
  · exact takeFaultAt_inbox c i s

theorem exec_inbox {i : Instr} {s t : State} (h : exec i s = .next t) : t.inbox = s.inbox := by
  obtain ⟨ops, -, he⟩ | ⟨-, he⟩ | ⟨-, he⟩ := exec_cases i s <;> rw [he] at h <;> cases h
  · exact start_inbox ops _
  · rfl
  · rfl

theorem feedDecoder_inbox {w : Word} {s t : State} (h : feedDecoder w s = .next t) : t.inbox = s.inbox := by
  obtain ⟨-, rfl⟩ | ⟨i, p, -, -, he⟩ | ⟨i, p, -, -, -, rfl⟩ | ⟨e, p, -, -, rfl⟩ | ⟨e, p, -, -, rfl⟩ := feedDecoder_cases h
  · rfl
  · exact exec_inbox (s := { s with packet := p }) he
  · rfl
  · rfl
  · rfl

theorem afterMove_inbox {s t : State} (h : afterMove s = .next t) : t.inbox = s.inbox := by
  obtain ⟨-, rfl⟩ | ⟨-, -, rfl⟩ | ⟨-, -, w, -, hw⟩ := afterMove_cases h
  · rfl
  · exact preempted_inbox s
  · exact feedDecoder_inbox (s := { s with pending := none }) hw

theorem moveOrStop_inbox {s t : State} (h : moveOrStop s = .next t) : t.inbox = s.inbox := by
  unfold moveOrStop at h
  split at h
  · rw [preempt_eq] at h
    cases h
    exact preempted_inbox s
  · unfold moveCore at h
    split at h
    · exact (afterMove_inbox h).trans (performNext_inbox s)
    · cases h; rfl

/-! ## BUSY falls (spec/46_host_interface.md R292) -/

/-- The running command moves where no act is scheduled and no preemption is asked for. -/
theorem step_of_unasked {s : State} (hin : s.inbox = []) (hstop : s.stopReq = false) (hb : s.busy = true) :
    step s = afterMove (performNext s) := by
  simp only [step, move, hin, moveOrStop, hstop, moveCore, hb, if_true, Bool.false_eq_true, if_false]

/-- A held word is decoded where BUSY has fallen. -/
theorem afterMove_of_held {s : State} {w : Word} (hb : s.busy = false) (hstop : s.stopReq = false)
    (hp : s.pending = some w) : afterMove s = feedDecoder w { s with pending := none } := by
  simp only [afterMove, hb, hstop, hp, Bool.false_eq_true, if_false]

/-- Silent positions alone settle to the command's end, or to a fault, which ends it too. -/
theorem settle_silents {silents : List MicroOp} (h : ∀ op ∈ silents, ∃ i : Silent, op = .silent i ∧ i.reads = false)
    (s : State) : (settle silents s).todo = [] := by
  induction silents generalizing s with
  | nil => rfl
  | cons op rest ih =>
    rw [List.forall_mem_cons] at h
    obtain ⟨⟨i, rfl, hr⟩, hrest⟩ := h
    cases hrun : runSilent i s with
    | ok t => rw [settle_silent_ok hrun rest hr, ih hrest]
    | error c => rw [settle_silent_error hrun rest hr]; rfl

theorem performNext_drive {s : State} {d : Drive} {rest : List MicroOp} (ht : s.todo = .drive d :: rest) :
    performNext s = finish (settle rest { s.emit (d.event s) with waited := 0 }) := by
  rw [performNext, ht]

/-- The last event of a command: BUSY falls. -/
theorem performNext_last {s : State} {d : Drive} {silents : List MicroOp} (ht : s.todo = .drive d :: silents)
    (h : ∀ op ∈ silents, ∃ i : Silent, op = .silent i ∧ i.reads = false) :
    performNext s = { settle silents { s.emit (d.event s) with waited := 0 } with busy := false } := by
  rw [performNext_drive ht]
  exact finish_of_nil (settle_silents h _)

/-! ## A command that runs while a word is held -/

/-- An event that another move follows, whatever is held. -/
theorem step_event_with_held {s : State} {d : Drive} {rest : List MicroOp} (hin : s.inbox = [])
    (hstop : s.stopReq = false) (hb : s.busy = true) (hw : s.waited = 0) (ht : s.todo = .drive d :: rest)
    (hm : headMoves rest = true) : step s = .next { s.emit (d.event s) with todo := rest } := by
  have hperform : performNext s = { s.emit (d.event s) with todo := rest } := by
    rw [performNext_drive ht, emit_waited_zero _ hw, settle_of_headMoves hm]
    exact finish_of_headMoves hm
  rw [step_of_unasked hin hstop hb, hperform]
  exact if_pos hb

/-- As `run_drives`, whatever is held. -/
theorem run_drives_with_held (ds : List Drive) {rest : List MicroOp} (hm : headMoves rest = true) {s : State}
    (hin : s.inbox = []) (hstop : s.stopReq = false) (hb : s.busy = true) (hw : s.waited = 0)
    (ht : s.todo = ds.map .drive ++ rest) :
    Host.Core.run core ds.length s = .next { s.emitAll (ds.map fun d => d.event s) with todo := rest } := by
  induction ds generalizing s with
  | nil =>
    subst ht
    rfl
  | cons d ds ih =>
    have hstep := step_event_with_held hin hstop hb hw ht (headMoves_drives_append hm ds)
    have hrest := ih (s := { s.emit (d.event s) with todo := ds.map .drive ++ rest }) hin hstop hb hw rfl
    refine (run_succ_of_step hstep ds.length).trans (hrest.trans ?_)
    simp only [Drive.event_todo, Drive.event_emit, emitAll_with_todo, List.map_cons, emitAll_cons]

/-- BUSY stays 1 until the last of them. -/
theorem run_drives_busy (ds : List Drive) {s : State} (hin : s.inbox = []) (hstop : s.stopReq = false)
    (hb : s.busy = true) (hw : s.waited = 0) (ht : s.todo = ds.map .drive) {k : Nat} (hk : k < ds.length) :
    ∃ v, Host.Core.run core k s = .next v ∧ v.busy = true := by
  have hmoves : headMoves ((ds.drop k).map .drive) = true := by rw [List.drop_eq_getElem_cons hk]; rfl
  have hsplit : s.todo = (ds.take k).map .drive ++ (ds.drop k).map .drive := by
    rw [ht, ← List.map_append, List.take_append_drop]
  have hrun := run_drives_with_held (ds.take k) hmoves hin hstop hb hw hsplit
  rw [List.length_take_of_le hk.le] at hrun
  exact ⟨_, hrun, hb⟩

theorem run_one (s : State) : Host.Core.run core 1 s = step s := by
  obtain ⟨t, ht⟩ := everyStepAnswersNext s
  rw [run_succ_of_step ht, ht]
  rfl

/-- Positions that each emit an event, to the end of the command: BUSY falls with the last, and what then happens is
still part of its step. -/
theorem run_drives_to_end (ds : List Drive) (d : Drive) {s : State} (hin : s.inbox = []) (hstop : s.stopReq = false)
    (hb : s.busy = true) (hw : s.waited = 0) (ht : s.todo = (ds ++ [d]).map .drive) :
    Host.Core.run core (ds.length + 1) s =
      afterMove { s.emitAll ((ds ++ [d]).map fun d => d.event s) with todo := [], busy := false } := by
  induction ds generalizing s with
  | nil =>
    have hlast := performNext_last ht (fun op hop => by cases hop)
    rw [emit_waited_zero _ hw] at hlast
    rw [List.length_nil, Nat.zero_add, run_one, step_of_unasked hin hstop hb, hlast]
    rfl
  | cons e ds ih =>
    have hmoves : headMoves ((ds ++ [d]).map .drive) = true := by cases ds <;> rfl
    have hstep := step_event_with_held hin hstop hb hw ht hmoves
    have hrest := ih (s := { s.emit (e.event s) with todo := (ds ++ [d]).map .drive }) hin hstop hb hw rfl
    refine (run_succ_of_step hstep (ds.length + 1)).trans (hrest.trans ?_)
    simp only [Drive.event_todo, Drive.event_emit, emitAll_with_todo, List.cons_append, List.map_cons, emitAll_cons]
    rfl

/-- POWER_OFF_ALL's Push, from CR 0x00, whatever word is held. -/
theorem run_push {s : State} (hin : s.inbox = []) (hstop : s.stopReq = false) (hb : s.busy = true) (hw : s.waited = 0)
    (ht : s.todo = push) :
    (∀ k < 26, ∃ v, Host.Core.run core k s = .next v ∧ v.busy = true) ∧
      Host.Core.run core 26 s = afterMove { s.emitAll (pushEvents s.cr) with todo := [], busy := false } :=
  ⟨fun _ hk => run_drives_busy pushDrives hin hstop hb hw ht hk,
    run_drives_to_end pushDrives.dropLast (.set .cfgStr true) hin hstop hb hw ht⟩

/-! ## Time inside a Wait (spec/10_state.md R36) -/

theorem passTime_inside {s : State} {n us : Nat} {rest : List MicroOp} (ht : s.todo = .drive (.wait n) :: rest)
    (h : s.waited + us < n) : passTime us s = { s with waited := s.waited + us } := by
  rw [passTime, ht]
  exact if_pos h

theorem passTime_end {s : State} {n us : Nat} {rest : List MicroOp} (ht : s.todo = .drive (.wait n) :: rest)
    (h : n ≤ s.waited + us) : passTime us s = performNext s := by
  rw [passTime, ht]
  exact if_neg (Nat.not_lt.mpr h)

/-! ## A preemption (spec/46_host_interface.md R296, R297) -/

/-- Where the schedule leaves the core to itself, or names the point, a preemption that is asked for is taken. -/
theorem step_takes_preemption {s : State} {acts : List PortAct} (hstop : s.stopReq = true)
    (hin : s.inbox = [] ∧ acts = [] ∨ s.inbox = .stopPoint :: acts) :
    step s = .next (start powerOffAllList (cutShort (readFault { s with inbox := acts }))) := by
  obtain ⟨hin, rfl⟩ | hin := hin
  · have hkept : { s with inbox := [] } = s := by rw [← hin]
    rw [hkept, ← preempt_eq, step, move, hin]
    exact if_pos hstop
  · rw [← preempt_eq, step, move, hin]
    exact if_pos hstop

/-- The end of POWER_OFF_ALL on the state `c` of a command that was cut short, before a held word is decoded. -/
def State.poweredOff (c : State) : State :=
  { c.emitAll (pushEvents 0x00#8) with
    cr := 0x00#8, fstate := .idle, row := 0#10, busy := false, todo := [], waited := 0, raced := [] }

/-- POWER_OFF_ALL after a cut runs its 26 events, whatever word is held. -/
theorem run_powerOffAllList {c : State} (hin : c.inbox = []) (hstop : c.stopReq = false) :
    (∀ k < 26, ∃ v, Host.Core.run core k (start powerOffAllList c) = .next v ∧ v.busy = true) ∧
      Host.Core.run core 26 (start powerOffAllList c) = afterMove c.poweredOff :=
  run_push (s := start powerOffAllList c) hin hstop rfl rfl rfl

/-- The cut and POWER_OFF_ALL emit the truncated Wait and the Push of 0x00. -/
theorem poweredOff_cutShort (s : State) : (cutShort s).poweredOff =
    { s.emitAll (s.cutEvents ++ pushEvents 0x00#8) with
      cr := 0x00#8, fstate := .idle, row := 0#10, busy := false, todo := [], waited := 0, stopReq := false
      raced := [] } := by
  rw [cutShort_eq, emitAll_append]
  rfl

/-- A SRC_FAULT that is taken first leaves nothing of the list to be cut. -/
theorem start_powerOffAllList_of_fault (c : ErrCode) (s : State) :
    start powerOffAllList (cutShort (takeHaltingFault c s)) = { s.recordError c with
      halted := true, cr := 0x00#8, fstate := .idle, row := 0#10, busy := true, todo := push, waited := 0
      stopReq := false, raced := [] } := by
  rw [cutShort_eq, cutEvents_of_waited_zero (s := takeHaltingFault c s) rfl, start_powerOffAllList]
  rfl

/-! ## STATUS (spec/10_state.md R48) -/

/-- The status word bit by bit: each field begins where the ones to its right end. -/
theorem getLsbD_statusWord (s : State) (i : Nat) : s.statusWord.getLsbD i =
    if i < 8 then s.cr.getLsbD i
    else if i - 8 < 1 then (BitVec.ofBool s.busy).getLsbD (i - 8)
    else if i - 8 - 1 < 1 then (BitVec.ofBool s.frameActive).getLsbD (i - 8 - 1)
    else if i - 8 - 1 - 1 < 1 then (BitVec.ofBool s.err).getLsbD (i - 8 - 1 - 1)
    else if i - 8 - 1 - 1 - 1 < 1 then (BitVec.ofBool s.halted).getLsbD (i - 8 - 1 - 1 - 1)
    else if i - 8 - 1 - 1 - 1 - 1 < 4 then s.errCode.bits.getLsbD (i - 8 - 1 - 1 - 1 - 1)
    else if i - 8 - 1 - 1 - 1 - 1 - 4 < 10 then s.row.getLsbD (i - 8 - 1 - 1 - 1 - 1 - 4)
    else (0#6).getLsbD (i - 8 - 1 - 1 - 1 - 1 - 4 - 10) := by
  simp only [← BitVec.getLsbD_append]
  rfl

end Sys2Proof.Machine

namespace Sys2Proof

open Machine

/-- Settles O40: the decoder hands a whole packet to exec. -/
theorem stepRunsDecodedPacket : Obligations.StepRunsDecodedPacket := by
  intro s w rest i more hl hh hin haccept
  refine ⟨hl.cmdReady, ?_⟩
  calc step s = feedDecoder w { s with inbox := rest } := step_of_listening_word hl hin
    _ = runPacket i { s with inbox := rest, packet := more } :=
      feedDecoder_of_accept (s := { s with inbox := rest }) haccept
    _ = exec i { s with inbox := rest, packet := more } :=
      runPacket_of_unhalted (s := { s with inbox := rest, packet := more }) hh i

/-- Settles O41: the decoder keeps the words of a packet that is not whole. -/
theorem partialPacketIsKept : Obligations.PartialPacketIsKept := by
  intro s w rest hl hin hincomplete
  rw [step_of_listening_word hl hin]
  exact feedDecoder_of_incomplete (s := { s with inbox := rest }) hincomplete

/-- Settles O51: a halted core's decoder frames packets as any other's, and runs POWER_OFF_ALL alone. -/
theorem haltedCoreDropsOthers : Obligations.HaltedCoreDropsOthers := by
  intro s w rest hl hh hin
  have hstep := step_of_listening_word hl hin
  refine ⟨hl.cmdReady, fun more h => ?_, fun i more h hi => ?_, fun e more h => ?_⟩
  · rw [hstep, feedDecoder_of_accept (s := { s with inbox := rest }) h, runPacket_powerOffAll]
  · rw [hstep, feedDecoder_of_accept (s := { s with inbox := rest }) h]
    exact runPacket_of_halted (s := { s with inbox := rest, packet := more }) hh hi
  · rw [hstep, feedDecoder_of_refused (s := { s with inbox := rest }) h]
    exact congrArg Host.Outcome.next (if_pos hh)

/-- Settles O42: a busy port tells POWER_OFF_ALL's word from the others, and is closed while it holds one. -/
theorem busyPortHoldsOneWord : Obligations.BusyPortHoldsOneWord := by
  intro s w rest hb hr hin
  have hready : s.cmdReady = s.pending.isNone := by simp [State.cmdReady, hb, hr]
  refine ⟨fun hp => ?_, fun hp => ?_⟩
  · have htaken : s.cmdReady = true := by rw [hready, hp]; rfl
    refine ⟨htaken, ?_⟩
    have hstep : step s = transfer w { s with inbox := rest } := by
      rw [step, move, hin]
      exact if_pos htaken
    rw [hstep, transfer, if_pos hb, stopWord]
    split <;> rfl
  · have hclosed : s.cmdReady = false := by
      rw [hready]
      cases hpending : s.pending with
      | none => exact absurd hpending hp
      | some v => rfl
    refine ⟨hclosed, fun t ht => ?_⟩
    have hstep : step s = moveOrStop s := by
      rw [step, move, hin]
      simp only [takeAct, hclosed, hr, Bool.false_eq_true, if_false]
    exact moveOrStop_inbox (hstep.symm.trans ht)

/-- Settles O43: BUSY falls with the last event or with the fault, and the same step goes on to the held word. -/
theorem heldWordDecodedWhenBusyFalls : Obligations.HeldWordDecodedWhenBusyFalls := by
  intro s t w hb hr hstop hin hpacket hpending hfall
  have hstep : step s = feedDecoder w t ∧ t.packet = [] := by
    rw [step_of_unasked hin hstop hb]
    obtain ⟨d, silents, htodo, hsilent, rfl⟩ | ⟨i, rest, htodo, hreads, hno, rfl⟩ := hfall
    · refine ⟨?_, (settle_packet ..).trans hpacket⟩
      rw [performNext_last htodo hsilent]
      exact afterMove_of_held rfl ((settle_stopReq ..).trans hstop) ((settle_pending ..).trans hpending)
    · refine ⟨?_, (halfCompose_packet ..).trans hpacket⟩
      rw [performNext_of_reads htodo hreads hno]
      have hfed := afterMove_of_held (w := w)
        (s := takeHaltingFault .srcFault (halfCompose i { s with raceTick := s.raceTick + 1 })) rfl
        ((halfCompose_stopReq ..).trans hstop) ((halfCompose_pending ..).trans hpending)
      rw [hfed, takeHaltingFault, State.recordError, halfCompose_errCode]
  rw [hstep.1]
  exact feedDecoder_word_zero hstep.2 w

/-- Settles O46: the end of a Wait is a move of the command like any other event. -/
theorem timePassesInsideWait : Obligations.TimePassesInsideWait := by
  intro s n us rest acts hb hstop hpending hin htodo
  have hstep : step s = afterMove (passTime us { s with inbox := acts }) := by
    rw [step, move, hin]
    exact if_pos hb
  refine ⟨fun hlt => ?_, fun hle => ?_⟩
  · rw [hstep, passTime_inside (s := { s with inbox := acts }) htodo hlt]
    exact if_pos hb
  · have hperform := performNext_drive (s := { s with inbox := acts }) htodo
    have hstop' : (performNext { s with inbox := acts }).stopReq = false := by
      rw [hperform, finish_stopReq, settle_stopReq]; exact hstop
    have hpending' : (performNext { s with inbox := acts }).pending = none := by
      rw [hperform, finish_pending, settle_pending]; exact hpending
    rw [hstep, passTime_end (s := { s with inbox := acts }) htodo hle, afterMove_quiet hstop' hpending']
    refine ⟨_, rfl, ?_, ?_⟩
    · rw [State.trace, State.trace, hperform, finish_log, settle_log]
      exact List.reverse_cons
    · rw [hperform, finish_pins, settle_pins]
      rfl

/-- Settles O45: however the point is reached, the fault halts the core and POWER_OFF_ALL runs on it. -/
theorem sourceFaultBeforePreemption : Obligations.SourceFaultBeforePreemption := by
  intro s i rest acts hb hstop htodo hreads hno hin
  have hfault : readFault { s with inbox := acts } = takeHaltingFault .srcFault
      (halfCompose i { s with inbox := acts, raceTick := s.raceTick + 1 }) := readFault_of_reads htodo hreads hno
  have hstep : step s = .next (start powerOffAllList (cutShort (takeHaltingFault .srcFault
      (halfCompose i { s with inbox := acts, raceTick := s.raceTick + 1 })))) := by
    obtain hin | hin | hin := hin
    · have hcore : step s = afterMove (performNext { s with inbox := acts }) := by
        rw [step, move, hin]
        exact if_pos hb
      have hperform := performNext_of_reads (s := { s with inbox := acts }) htodo hreads hno
      rw [hcore, hperform, afterMove, if_neg (by simp), if_pos (by simpa using hstop), preempt_eq]
      rfl
    · rw [step_takes_preemption hstop (.inr hin), hfault]
    · rw [step_takes_preemption hstop (.inl hin), hfault]
  rw [hstep, start_powerOffAllList_of_fault, State.recordError, halfCompose_errCode]

/-- Settles O49, field by field. -/
theorem statusWordFields : Obligations.StatusWordFields := by
  intro s
  have hone (b : Bool) : (BitVec.ofBool b).getLsbD 0 = b := by cases b <;> rfl
  refine ⟨?_, (getLsbD_statusWord s 8).trans (hone _), (getLsbD_statusWord s 9).trans (hone _),
    (getLsbD_statusWord s 10).trans (hone _), (getLsbD_statusWord s 11).trans (hone _), ?_, ?_, ?_, rfl, rfl, rfl, rfl,
    rfl⟩
  · ext i hi
    simp [getLsbD_statusWord, hi]
  · ext i hi
    rw [BitVec.getElem_extractLsb', Nat.add_comm, getLsbD_statusWord]
    simp [hi]
  · ext i hi
    rw [BitVec.getElem_extractLsb', Nat.add_comm, getLsbD_statusWord]
    simp [hi]
  · ext i hi
    rw [BitVec.getElem_extractLsb', Nat.add_comm, getLsbD_statusWord]
    simp

/-- Settles O55: the release writes the reset values itself. -/
theorem resetValues : Obligations.ResetValues := by
  intro s reqW reqH dmaskIn rest hr hin
  have hstep : step s = .next (releaseRst reqW reqH dmaskIn { s with inbox := rest }) := by
    rw [step, move, hin]
    exact if_pos hr
  have hpins : ∀ p, Pins.undriven.get p = .x := by
    intro p
    cases p with
    | d i => exact undriven_data i
    | _ => rfl
  have hstatus : State.reset.statusWord = 0#32 := by decide
  exact ⟨_, hstep, rfl, rfl, rfl, rfl, rfl, rfl, rfl, rfl, rfl, rfl, rfl, rfl, rfl, rfl, hpins, rfl, hstatus⟩

/-- Settles O44: the cut records the Wait in progress, POWER_OFF_ALL's list begins in the same step, and its Push runs
whatever word is held. -/
theorem preemptionRunsPowerOffAll : Obligations.PreemptionRunsPowerOffAll := by
  intro s acts hr hb hstop hm ha hin
  dsimp only
  have hread : readFault { s with inbox := acts } = { s with inbox := acts } := readFault_of_readsAdmitted hm ha
  have hstep := step_takes_preemption hstop hin
  rw [hread] at hstep
  have htrace := (preempted_follows { s with inbox := acts }).trace
  rw [hread] at htrace
  have hcut := cutShort_eq { s with inbox := acts }
  have hpending : (cutShort { s with inbox := acts }).pending = s.pending := by rw [hcut]; rfl
  have hinbox : (cutShort { s with inbox := acts }).inbox = acts := by rw [hcut]; rfl
  have hpacket : (cutShort { s with inbox := acts }).packet = s.packet := by rw [hcut]; rfl
  have hstop' : (cutShort { s with inbox := acts }).stopReq = false := by rw [hcut]
  have hend := poweredOff_cutShort { s with inbox := acts }
  refine ⟨_, hstep, htrace, rfl, rfl, hpending, hinbox, ?_, ?_⟩
  · rintro rfl hp
    obtain ⟨hbusy, hreached⟩ := run_powerOffAllList hinbox hstop'
    refine ⟨hbusy, ?_, rfl⟩
    have hquiet := afterMove_quiet (s := (cutShort { s with inbox := [] }).poweredOff) hstop' (hpending.trans hp)
    rw [hreached, hquiet, hend, ← hp]
    rfl
  · rintro w rfl hp hopen
    obtain ⟨hbusy, hreached⟩ := run_powerOffAllList hinbox hstop'
    refine ⟨hbusy, ?_⟩
    have hheld := afterMove_of_held (s := (cutShort { s with inbox := [] }).poweredOff) rfl hstop' (hpending.trans hp)
    have hword := feedDecoder_word_zero (s := { (cutShort { s with inbox := [] }).poweredOff with pending := none })
      (hpacket.trans hopen) w
    rw [hend] at hword
    rw [hreached, hheld, hend]
    exact hword

end Sys2Proof
end
